-- ==== Sys2Proof/Word.lean ====
section
/-! DEFINITION. The word types and the four reserved byte values (spec 00_scope.md R12, R13; 30_encoding.md R70). -/

namespace Sys2Proof

/-- R12: a byte is an 8-bit value. -/
abbrev Byte := BitVec 8

/-- R81: a command word has 32 bits, bit 0 the least significant (R13). -/
abbrev Word := BitVec 32

/-- R11: packet-buffer identifiers, an opaque countable set, numbered here by the naturals
(DESIGN CHOICE, log entry 1). -/
abbrev Handle := Nat

/-- R70: the frame delimiter. -/
def END : Byte := 0xC0
/-- R70: introduces a two-byte escape sequence. -/
def ESC : Byte := 0xDB
/-- R70: second byte of an escape, stands for END. -/
def ESC_END : Byte := 0xDC
/-- R70: second byte of an escape, stands for ESC. -/
def ESC_ESC : Byte := 0xDD

end Sys2Proof
end

