-- ==== Sys2Proof/Config.lean ====
section
/-! DEFINITION. The open parameters of the spec (00_scope.md R6 to R10) and the free values, which nothing in Lean
can evaluate. -/

namespace Sys2Proof

/-- The open parameters. The spec makes each an argument of the model (R6, R7, R9, R10); a state holds the one it
runs under, and no step changes it (DESIGN CHOICE, log entry 2). -/
structure Config where
  /-- R6: the capacity of ACC. -/
  accCap : Nat
  /-- R7: the longest payload SEND takes. -/
  maxTxPayload : Nat
  /-- R9: the width of TD_STATUS in bits. -/
  wStatus : Nat
  /-- R10: the asynchronous write has its own copy of the bytes when submission returns. -/
  txCopyAtSubmit : Bool
  deriving DecidableEq, Repr

/-- R6: a configuration is well formed only if `ACC_CAP >= 2`. -/
def Config.wf (c : Config) : Bool := decide (2 ≤ c.accCap)

/-- R7, R25: the fixed capacity of SCRATCH. -/
def Config.scratchCap (c : Config) : Nat := 2 * c.maxTxPayload + 2

/-- Free value (log entry 2): ACC_CAP of the platform, less the 2 that R6 asks for. -/
opaque Config.freeAccCap : Nat
/-- Free value (log entry 2): MAX_TX_PAYLOAD of the platform. -/
opaque Config.freeMaxTxPayload : Nat
/-- Free value (log entry 2): W_STATUS of the platform. -/
opaque Config.freeWStatus : Nat
/-- Free value (log entry 14): TD_STATUS at power-on, before it is cut to W_STATUS bits. -/
opaque Config.freeStatus : Nat
/-- Free value (log entry 12): byte `i` of packet buffer `h` where nothing in the model has written it. -/
opaque Config.freePktByte : Handle → Nat → Byte
/-- Free value (log entry 13): the capacity of a handle that no pool answer and no owner has named. -/
opaque Config.freeCap : Handle → Nat

/-- The configuration State.reset runs under: well formed and otherwise open; TX_COPY_AT_SUBMIT is the spec's
default (R10). -/
def Config.platform : Config :=
  { accCap := Config.freeAccCap + 2
    maxTxPayload := Config.freeMaxTxPayload
    wStatus := Config.freeWStatus
    txCopyAtSubmit := true }

end Sys2Proof
end

