-- ==== Sys2Proof/Syntax.lean ====
section
/-! DEFINITION. The instructions: one constructor per row of spec/opcode_table.json. Operand fields that travel
beside a command word (R81) are not part of the instruction; they stand in the state (`State.fields`). -/

namespace Sys2Proof

/-- One constructor per row of the opcode table, in the table's order. -/
inductive Instr where
  /-- ENCODE (40_codec.md R100): frame the payload for the wire. -/
  | encode
  /-- DECODE (40_codec.md R110): recover the payload from a raw frame. -/
  | decode
  /-- FEED (41_reassembler.md R130): `b` is IMM8 of the command word. -/
  | feed (b : Byte)
  /-- SEND (43_transmit.md R180): `rel` is the REL bit, `releaseAfterSend`. -/
  | send (rel : Bool)
  /-- READ_STATUS (60_exceptions.md R230). -/
  | readStatus
  /-- ILLEGAL (30_encoding.md R83): any command word none of the five rows above matches. -/
  | illegal (w : Word)
  /-- RX_BYTE (42_receive_pump.md R150): `b` is the byte `readByte()` returned. -/
  | rxByte (b : Byte)
  /-- ENC_END (R104): payload byte 0xC0. -/
  | encEnd
  /-- ENC_ESC (R105): payload byte 0xDB. -/
  | encEsc
  /-- ENC_LIT (R106): any other payload byte. -/
  | encLit (b : Byte)
  /-- DEC_N_END (R112): NORMAL mode, byte 0xC0. -/
  | decNEnd
  /-- DEC_N_ESC (R113): NORMAL mode, byte 0xDB. -/
  | decNEsc
  /-- DEC_N_LIT (R114): NORMAL mode, any other byte. -/
  | decNLit (b : Byte)
  /-- DEC_E_ESC_END (R115): ESCAPED mode, byte 0xDC. -/
  | decEEscEnd
  /-- DEC_E_ESC_ESC (R115): ESCAPED mode, byte 0xDD. -/
  | decEEscEsc
  /-- DEC_E_LIT (R116): ESCAPED mode, any other byte. -/
  | decELit (b : Byte)
  /-- DEC_EOI_ESCAPED (R118): the input ends in ESCAPED mode. -/
  | decEoiEscaped
  deriving DecidableEq, Repr

end Sys2Proof
end

