-- ==== Sys2Proof/WellFormed.lean ====
section
/-! DEFINITION. Which instruction terms stand for a row of the opcode table. A row that is tried last does not take
the keys of the rows before it (R73, R74, R83), so its operand excludes them. -/

namespace Sys2Proof

/-- A command word that one of the five rows ENCODE, DECODE, FEED, SEND, READ_STATUS matches: match and mask of
spec/opcode_table.json (R81, R82). Every other word is illegal (R83). -/
def Word.legal (w : Word) : Bool :=
  w == 1#32 || w == 2#32 || (w &&& 0xFFFF00FF#32) == 3#32 || (w &&& 0xFFFFFFEF#32) == 4#32 || w == 5#32

/-- The operand checks of each row. -/
def Instr.wf : Instr → Bool
  | .encode => true
  | .decode => true
  | .feed _ => true
  | .send _ => true
  | .readStatus => true
  | .illegal w => !w.legal
  | .rxByte _ => true
  | .encEnd => true
  | .encEsc => true
  | .encLit b => b != END && b != ESC
  | .decNEnd => true
  | .decNEsc => true
  | .decNLit b => b != END && b != ESC
  | .decEEscEnd => true
  | .decEEscEsc => true
  | .decELit b => b != ESC_END && b != ESC_ESC
  | .decEoiEscaped => true

end Sys2Proof
end

