-- ==== Sys2Proof/Decode.lean ====
section
/-! DEFINITION. The decoder, total on any number under any format, and the encoder, both from the encoding tables
of 30_encoding.md (R73, R74, R81 to R84) and spec/opcode_table.json. -/

namespace Sys2Proof

/-- The five formats of the opcode table. A word alone does not say its format: the port it arrives on does (R80). -/
inductive Format where
  /-- CMD: a 32-bit command word on the command port (R81). -/
  | cmd
  /-- RXPORT: one byte from `readByte()` (R84). -/
  | rxPort
  /-- ENC_SYM: a payload byte, key of the encoder symbol table (R73). -/
  | encSym
  /-- DEC_SYM: the 9-bit key mode and byte of the decoder symbol table (R74). -/
  | decSym
  /-- DEC_EOI: the one-bit mode at the end of the input (R74, last paragraph). -/
  | decEoi
  deriving DecidableEq, Repr

/-- Why the decoder rejects. -/
inductive Reject where
  /-- The number has bits above the format's width. -/
  | tooWide (f : Format)
  /-- The key matches no row of the format's table (only DEC_EOI with mode NORMAL). -/
  | noRow (f : Format)
  deriving DecidableEq, Repr

/-- The width in bits of each format (spec/opcode_table.json, "width"). -/
def formatWidth : Format → Nat
  | .cmd => 32
  | .rxPort => 8
  | .encSym => 8
  | .decSym => 9
  | .decEoi => 1

/-- R81 to R83: the command rows in the table's order, the catch-all ILLEGAL last. IMM8 is bits 15..8 and REL
bit 4 (R87). -/
def decodeCmd (w : Word) : Instr :=
  if w = 1#32 then .encode
  else if w = 2#32 then .decode
  else if w &&& 0xFFFF00FF#32 = 3#32 then .feed (w.extractLsb' 8 8)
  else if w &&& 0xFFFFFFEF#32 = 4#32 then .send (w.getLsbD 4)
  else if w = 5#32 then .readStatus
  else .illegal w

/-- R73: the encoder symbol table, first match wins. -/
def decodeEncSym (b : Byte) : Instr :=
  if b = END then .encEnd
  else if b = ESC then .encEsc
  else .encLit b

/-- R74: the decoder symbol table on the key's mode bit (true for ESCAPED) and byte, first match wins. -/
def decodeDecSym (escaped : Bool) (b : Byte) : Instr :=
  if escaped then
    if b = ESC_END then .decEEscEnd
    else if b = ESC_ESC then .decEEscEsc
    else .decELit b
  else
    if b = END then .decNEnd
    else if b = ESC then .decNEsc
    else .decNLit b

/-- The decoder: total on any number, rejecting by name. -/
def decode (f : Format) (w : Nat) : Except Reject Instr :=
  if 2 ^ formatWidth f ≤ w then .error (.tooWide f)
  else
    match f with
    | .cmd => .ok (decodeCmd (BitVec.ofNat 32 w))
    | .rxPort => .ok (.rxByte (BitVec.ofNat 8 w))
    | .encSym => .ok (decodeEncSym (BitVec.ofNat 8 w))
    | .decSym => .ok (decodeDecSym (w.testBit 8) (BitVec.ofNat 8 w))
    | .decEoi => if w = 1 then .ok .decEoiEscaped else .error (.noRow .decEoi)

/-- The encoder: the format and the word of an instruction, from the same tables. -/
def encode : Instr → Format × Nat
  | .encode => (.cmd, 1)
  | .decode => (.cmd, 2)
  | .feed b => (.cmd, b.toNat * 256 + 3)
  | .send rel => (.cmd, if rel then 20 else 4)
  | .readStatus => (.cmd, 5)
  | .illegal w => (.cmd, w.toNat)
  | .rxByte b => (.rxPort, b.toNat)
  | .encEnd => (.encSym, 0xC0)
  | .encEsc => (.encSym, 0xDB)
  | .encLit b => (.encSym, b.toNat)
  | .decNEnd => (.decSym, 0x0C0)
  | .decNEsc => (.decSym, 0x0DB)
  | .decNLit b => (.decSym, b.toNat)
  | .decEEscEnd => (.decSym, 0x1DC)
  | .decEEscEsc => (.decSym, 0x1DD)
  | .decELit b => (.decSym, 256 + b.toNat)
  | .decEoiEscaped => (.decEoi, 1)

/-- Which format a bare number of `nbits` bits is taken to have, where nothing else says it (the host's question).
A width of 9 or 16 is DEC_SYM, 1 is DEC_EOI, 32 is CMD. Five rows share eight bits (RX_BYTE, ENC_END, ENC_ESC,
ENC_LIT, and DEC_EOI_ESCAPED padded to a byte), so the choice is made such that every row has at least one number
that gives it (DESIGN CHOICE, log entry 6): 0x00 is RX_BYTE, 0x01 is DEC_EOI_ESCAPED, every other byte a payload
byte under ENC_SYM. -/
def tableFormat (nbits w : Nat) : Option Format :=
  if nbits = 32 then some .cmd
  else if nbits = 9 ∨ nbits = 16 then some .decSym
  else if nbits = 1 then some .decEoi
  else if nbits = 8 then
    if w = 0 then some .rxPort else if w = 1 then some .decEoi else some .encSym
  else none

/-- The instruction the decoder reads from an instruction whose bits are `w`, numbered as spec/opcode_table.json
numbers them. -/
def decodeTableWord (nbits w : Nat) : Option Instr :=
  match tableFormat nbits w with
  | none => none
  | some f =>
    match decode f w with
    | .ok i => some i
    | .error _ => none

end Sys2Proof
end

