-- ==== Sys2Proof/Machine/State.lean ====
section
/-! DEFINITION. The state of the block, all of it plain data: what 10_state.md R20 to R31 name, the byte spaces of
20_memory.md R50, the transaction's status, results and event history (R81, R85, R40), and the model's own fields
for the configuration and the pending inputs (R33, R40, R221). -/

namespace Sys2Proof.Machine

/-! ## Small types -/

/-- R26: the mode of one DECODE operation. -/
inductive DecMode where
  | normal
  | escaped
  deriving DecidableEq, Repr

/-- The work area of one codec operation: `DEC_MODE` (R26; it exists only while a DECODE runs) and the output
in progress, `out` of R100 and `dst[0..k)` of R110, with `k` its length. -/
structure Codec where
  mode : Option DecMode
  out : List Byte
  deriving DecidableEq, Repr

/-- R27: the Receive Pump's control state. -/
inductive PumpPhase where
  | waitByte
  | feed
  | acquire
  | decode
  | filter
  | checksum
  | ingest
  | release
  deriving DecidableEq, Repr

/-- R29: the values of the lifecycle ledger. -/
inductive Life where
  | untracked
  | ownedByBlock
  | borrowed
  | handedOff
  | released
  deriving DecidableEq, Repr

/-- R42, R44, R46: who owns an allocated packet buffer, or that the pool has it (log entry 32). -/
inductive Owner where
  /-- The pool: the buffer is not allocated. -/
  | pool
  /-- The block, within one transaction, or for good after a fault (R162). -/
  | block
  /-- An agent outside the block: the consumer, or a transmit caller. -/
  | outside
  deriving DecidableEq, Repr

/-- R245: what a request can break of the host's and the collaborators' duties. Item 2 is no request's to break, and
item 4 cannot be broken, since transactions are atomic (R222). -/
inductive Duty where
  /-- Item 1: the pool handed out a handle that someone still owns. -/
  | poolGivesFree
  /-- Item 1: the pool gave less than was asked for. -/
  | poolGivesEnough
  /-- Item 3: the caller of SEND does not own the buffer. -/
  | senderOwns
  /-- Item 3: the payload is longer than its buffer. -/
  | payloadFits
  /-- Item 5: direct FEED commands and the receive port share a span. -/
  | feedAlone
  /-- Item 6: SEND while a transfer is pending that reads SCRATCH. -/
  | scratchFree
  deriving DecidableEq, Repr

/-- R50: the three kinds of byte space. -/
inductive Space where
  | acc
  | scratch
  | pkt (h : Handle)
  deriving DecidableEq, Repr

/-- R86: the fault codes held in `FAULT`. -/
inductive FaultCode where
  | none
  | bufferTooSmall
  | decodeDstTooSmall
  | lifecycleViolation
  | illegalCommand
  deriving DecidableEq, Repr

/-- R201 to R204: the info recorded with a fatal fault (R211). -/
inductive FaultInfo where
  /-- No fault has been recorded. -/
  | none
  /-- R201, R202: the size asked for and the capacity there was. -/
  | sizes (need room : Nat)
  /-- R203: the buffer concerned. -/
  | handle (h : Handle)
  /-- R203: the byte-space access concerned. -/
  | access (sp : Space) (i : Nat)
  /-- R204: the illegal command word. -/
  | word (w : Word)
  deriving DecidableEq, Repr

/-- R85: the event codes. -/
inductive EventCode where
  | ok
  | incomplete
  | frameReady
  | overflow
  | poolExhausted
  | delivered
  | ingestionRejected
  | filteredOut
  | checksumInvalid
  | sent
  | linkDown
  deriving DecidableEq, Repr

/-- R81: the result fields of a command, beside its status. -/
inductive Result where
  /-- No result field: SEND, RX_BYTE, FEED without a frame, or no transaction yet. -/
  | none
  /-- ENCODE: `out` and `L`. -/
  | encoded (out : List Byte) (len : Nat)
  /-- DECODE: `dst[0..k)` and `k`. -/
  | decoded (out : List Byte) (k : Nat)
  /-- FEED, FrameReady: `start`, `len` and the span. -/
  | frame (start len : Nat) (span : List Byte)
  /-- READ_STATUS: `FILL`, `LOST_RX`, `FAULT`, `TD_PENDING`. -/
  | block (fill : Nat) (lostRx : BitVec 32) (fault : FaultCode) (pending : Nat)
  deriving DecidableEq, Repr

/-- R43: the filter's answer. -/
inductive FilterAnswer where
  | accept
  | reject
  deriving DecidableEq, Repr

/-- R43: the checksum's answer. -/
inductive ChecksumAnswer where
  | valid
  | invalid
  deriving DecidableEq, Repr

/-- R44: the consumer's answer. -/
inductive IngestAnswer where
  | ok
  | fail
  deriving DecidableEq, Repr

/-- R15, R40: one call to a collaborator, with its answer, as the event history records it. -/
inductive Call where
  /-- R41: the pump calls `readByte()`; its answer is the next arrival. -/
  | readByte
  /-- R42: `acquire(minSize)`, answered `none` or a handle and its capacity. -/
  | acquire (minSize : Nat) (answer : Option (Handle × Nat))
  /-- R42: `release(h)`. -/
  | release (h : Handle)
  /-- R43: `filter(h, k)`. -/
  | filter (h : Handle) (k : Nat) (answer : FilterAnswer)
  /-- R43: `checksum(h, k)`. -/
  | checksum (h : Handle) (k : Nat) (answer : ChecksumAnswer)
  /-- R44: `ingest(h, k)`. -/
  | ingest (h : Handle) (k : Nat) (answer : IngestAnswer)
  /-- R45: `queryLinkUp()`. -/
  | queryLinkUp (answer : Bool)
  /-- R45: `submitWrite(bytes, ref TD_STATUS)`. -/
  | submitWrite (bytes : List Byte)
  deriving DecidableEq, Repr

/-- R81: the operand fields that travel with a command word. -/
structure Fields where
  /-- ENCODE: the payload. -/
  payload : List Byte
  /-- DECODE: the raw frame. -/
  raw : List Byte
  /-- ENCODE, DECODE: the destination capacity. -/
  dstCap : Nat
  /-- SEND: the handle. -/
  h : Handle
  /-- SEND: the payload length. -/
  n : Nat
  deriving DecidableEq, Repr

/-- R40: the collaborators' answers to one transaction, each a draw the block does not choose. -/
structure Draws where
  /-- R42: `none`, or a handle and its capacity. -/
  acquire : Option (Handle × Nat)
  filter : FilterAnswer
  checksum : ChecksumAnswer
  ingest : IngestAnswer
  linkUp : Bool
  deriving DecidableEq, Repr

/-- One pending step of an agent (R220, R221). -/
inductive Input where
  /-- A word presented under a format: a command word on the command port, a byte on the receive port, or a symbol
  key (log entry 8), with its operand fields (R81) and the answers it will draw (R90). -/
  | request (f : Format) (w : Nat) (fields : Fields) (draws : Draws)
  /-- R41: `readByte()` answers INTERRUPTED. -/
  | interrupted
  /-- R45, R189: a completion event of the transport. `which` says which pending submission it completes, `v` is the
  status word, `picks` settles the raced bytes of R252. -/
  | complete (which v : Nat) (picks : List Nat)
  /-- R240: reset. -/
  | reset
  /-- R42: the pool gives an agent outside the block a buffer and fixes its capacity (DESIGN CHOICE, log entry 20). -/
  | poolGives (h : Handle) (cap : Nat)
  /-- R46: the owner of a buffer outside the block writes its first bytes (DESIGN CHOICE, log entry 20). -/
  | ownerWrite (h : Handle) (bytes : List Byte)
  /-- R46: the owner of a buffer outside the block gives it back to the pool (DESIGN CHOICE, log entry 20). -/
  | ownerRelease (h : Handle)
  deriving DecidableEq, Repr

/-- R30: the Transfer Descriptor slot. -/
structure TransferDescriptor where
  /-- `TD_PENDING`. -/
  pending : Nat
  /-- `TD_LEN`. -/
  len : Nat
  /-- `TD_SRC`, always SCRATCH. -/
  src : Space
  /-- `TD_STATUS`, a number below `2^W_STATUS` (R31). -/
  status : Nat
  deriving DecidableEq, Repr

/-- One submission whose completion event is owed (R45): for each wire byte, the values the transport may have read,
oldest first. More than one value stands there only in the race of R252. -/
structure Transfer where
  cand : List (List Byte)
  deriving DecidableEq, Repr

/-- A byte space: the written bytes, by rising index. An index not listed holds no value (R20, R25; PKT: log
entry 12). -/
abbrev Memory := List Host.Cell

/-! ## The state -/

structure State where
  /-- The configuration, never changed by a step (R33; log entry 2). -/
  cfg : Config
  /-- R20: `ACC`. -/
  acc : Memory
  /-- R21: `FILL`. -/
  fill : Nat
  /-- R245, item 5: the span in progress in ACC holds a byte of the receive port (log entry 33). -/
  receiving : Bool
  /-- R23: `LOST_RX`. -/
  lostRx : BitVec 32
  /-- R24: `FAULT`. -/
  fault : FaultCode
  /-- R211: the info recorded with `FAULT`. -/
  faultInfo : FaultInfo
  /-- R25: `SCRATCH`. -/
  scratch : Memory
  /-- R26: `DEC_MODE`, with the output in progress. -/
  codec : Codec
  /-- R27: `PUMP_PHASE`. -/
  pumpPhase : PumpPhase
  /-- R28: `HELD`. -/
  held : Option Handle
  /-- R29: `LIFE`; a handle not listed is UNTRACKED. -/
  life : List (Handle × Life)
  /-- R11, R42, R46: who owns each buffer that has been named; a handle not listed may be anyone's (log entry 32). -/
  owner : List (Handle × Owner)
  /-- R30: `TD`. -/
  td : TransferDescriptor
  /-- R50: `PKT(h)`; a handle not listed has no byte written. -/
  pkt : List (Handle × Memory)
  /-- R11, R42: `cap(h)`, for the handles whose capacity has been given. -/
  caps : List (Handle × Nat)
  /-- R85: the status of the last transaction; none where it faulted (R211). -/
  status : Option EventCode
  /-- R81: the results of the last transaction. -/
  result : Result
  /-- R40: the event history. -/
  history : List Call
  /-- R45: the transfers whose completion event is owed, oldest first. -/
  inflight : List Transfer
  /-- The frames the transport has put on the wire, in the order of their completion (log entry 18). -/
  wire : List (List Byte)
  /-- R81: the operand fields of the current transaction. -/
  fields : Fields
  /-- R40: the answers of the current transaction. -/
  draws : Draws
  /-- R221: the pending steps of all agents, in the order they will be taken (log entry 5). -/
  inbox : List Input
  deriving DecidableEq, Repr

/-! ## How a step stops -/

/-- The machine stops. -/
inductive Fault where
  /-- R211: a transaction offered to a block whose `FAULT` is not `F_NONE`. Raised by every meaning and by `step`.
  Safe: the block takes no further step, so no claim about a next state can be made. -/
  | stopped (code : FaultCode)
  /-- R20, R25: a read of a byte of ACC or SCRATCH that nothing has written since reset. Raised by the byte read;
  no rule makes such a read in a state a run reaches (R22). Safe. -/
  | noValue (sp : Space) (i : Nat)
  deriving DecidableEq, Repr

/-- The step has no meaning. -/
inductive Refusal where
  /-- An instruction the model gives no meaning. No arm of exec answers it. Safe. -/
  | notModelled (mnemonic : String)
  /-- R6: a configuration with `ACC_CAP < 2`. Raised by `step`. Safe. -/
  | illFormedConfig
  /-- A request that the decoder rejects: a number wider than its format, or DEC_EOI in NORMAL mode. Raised by
  `step`. Safe: no agent of the spec can present one. -/
  | notAnInstruction (why : Reject)
  /-- R245, item 3 and R46: an agent outside sends, writes or releases a buffer that is not its own. Raised by `step`
  before anything runs. Safe: the spec gives such a run no meaning (93 I21, `refuse`). -/
  | notTheOwner (h : Handle)
  /-- R245, item 1: the pool hands out a handle that someone still owns. Raised by `step` before anything runs. Safe:
  the spec gives such a run no meaning (93 I21, `refuse`). -/
  | handleOwned (h : Handle)
  deriving DecidableEq, Repr

/-! ## Reset -/

/-- No operand: what the operand fields hold before a request brings its own (DESIGN CHOICE, log entry 7). -/
def Fields.empty : Fields := { payload := [], raw := [], dstCap := 0, h := 0, n := 0 }

/-- No answer yet: what the answers hold before a request brings its own (DESIGN CHOICE, log entry 7). -/
def Draws.empty : Draws :=
  { acquire := none, filter := .reject, checksum := .invalid, ingest := .fail, linkUp := false }

/-- The codec at rest: no DECODE runs (R26) and no output is in progress. -/
def Codec.rest : Codec := { mode := none, out := [] }

/-- The machine right after reset under a given configuration (R240; 10_state.md section 3). The history holds the
`readByte()` the pump is blocked in (R240, R27; log entry 17). -/
def State.resetWith (c : Config) : State :=
  { cfg := c
    acc := []
    fill := 0
    receiving := false
    lostRx := 0
    fault := .none
    faultInfo := .none
    scratch := []
    codec := Codec.rest
    pumpPhase := .waitByte
    held := none
    life := []
    owner := []
    td := { pending := 0, len := 0, src := .scratch, status := Config.freeStatus % 2 ^ c.wStatus }
    pkt := []
    caps := []
    status := none
    result := .none
    history := [.readByte]
    inflight := []
    wire := []
    fields := Fields.empty
    draws := Draws.empty
    inbox := [] }

/-- The machine right after reset, in the platform's configuration, which is open (log entry 2). -/
def State.reset : State := State.resetWith Config.platform

end Sys2Proof.Machine
end

