-- ==== Sys2Proof/Machine/Mem.lean ====
section
/-! DEFINITION. The one canonical form of everything kept by number (a byte space by index, LIFE, PKT and the
capacities by handle): pairs by strictly rising number. Nothing here knows what the numbers mean. -/

namespace Sys2Proof.Machine

/-- What stands at number `k`, if anything does. -/
def Table.lookup {α : Type} (k : Nat) : List (Nat × α) → Option α
  | [] => none
  | (j, a) :: t => if j = k then some a else Table.lookup k t

/-- Put `a` at number `k`, in place of what stood there. -/
def Table.insert {α : Type} (k : Nat) (a : α) : List (Nat × α) → List (Nat × α)
  | [] => [(k, a)]
  | (j, b) :: t =>
    if k < j then (k, a) :: (j, b) :: t
    else if k = j then (k, a) :: t
    else (j, b) :: Table.insert k a t

/-- Take away what stands at number `k`. -/
def Table.erase {α : Type} (k : Nat) (t : List (Nat × α)) : List (Nat × α) :=
  t.filter (fun p => p.1 != k)

/-- Keep only the numbers below `n`. -/
def Table.below {α : Type} (n : Nat) (t : List (Nat × α)) : List (Nat × α) :=
  t.filter (fun p => p.1 < n)

/-- The canonical form: strictly rising numbers. -/
abbrev Table.Rising {α : Type} (t : List (Nat × α)) : Prop :=
  (t.map Prod.fst).Pairwise (· < ·)

/-- The canonical form of a byte space of `size` bytes: strictly rising indices, all of them in the space. An index
that is not listed holds no value, so no entry can repeat what an unlisted one reads as (log entry 21). -/
abbrev Memory.wf (size : Nat) (m : Memory) : Prop :=
  Table.Rising m ∧ ∀ p ∈ m, p.1 < size

end Sys2Proof.Machine
end

