-- ==== Sys2Proof/Machine/Flags.lean ====
section
/-! DEFINITION. The block's one flag-like state, DEC_MODE, with the emission of every symbol row (R73, R74, R104 to
R106, R112 to R118), the lost-receive counter (R23), and the numbers of the event and fault codes (R85, R86). -/

namespace Sys2Proof.Machine

/-! ## The numbers of the codes -/

/-- R85: the number of each event code. -/
def EventCode.number : EventCode → BitVec 8
  | .ok => 0x00
  | .incomplete => 0x01
  | .frameReady => 0x02
  | .overflow => 0x03
  | .poolExhausted => 0x04
  | .delivered => 0x05
  | .ingestionRejected => 0x06
  | .filteredOut => 0x07
  | .checksumInvalid => 0x08
  | .sent => 0x09
  | .linkDown => 0x0A

/-- R86: the number of each fault code. -/
def FaultCode.number : FaultCode → BitVec 8
  | .none => 0x00
  | .bufferTooSmall => 0x10
  | .decodeDstTooSmall => 0x11
  | .lifecycleViolation => 0x12
  | .illegalCommand => 0x13

/-! ## The lost-receive counter -/

/-- R23, R8: one more lost-receive event, modulo 2^32. -/
def countLost (s : State) : State := { s with lostRx := s.lostRx + 1 }

/-! ## The symbol rows on the codec's work area -/

/-- Append bytes to the output in progress. -/
def Codec.emit (bs : List Byte) (c : Codec) : Codec := { c with out := c.out ++ bs }

/-- Set `DEC_MODE`. -/
def Codec.setMode (m : DecMode) (c : Codec) : Codec := { c with mode := some m }

/-- R104: ENC_END. -/
def Codec.encEnd (c : Codec) : Codec := c.emit [ESC, ESC_END]
/-- R105: ENC_ESC. -/
def Codec.encEsc (c : Codec) : Codec := c.emit [ESC, ESC_ESC]
/-- R106: ENC_LIT. -/
def Codec.encLit (b : Byte) (c : Codec) : Codec := c.emit [b]

/-- R112: DEC_N_END, the byte is discarded. -/
def Codec.decNEnd (c : Codec) : Codec := c.setMode .normal
/-- R113: DEC_N_ESC. -/
def Codec.decNEsc (c : Codec) : Codec := c.setMode .escaped
/-- R114: DEC_N_LIT. -/
def Codec.decNLit (b : Byte) (c : Codec) : Codec := (c.emit [b]).setMode .normal
/-- R115: DEC_E_ESC_END. -/
def Codec.decEEscEnd (c : Codec) : Codec := (c.emit [END]).setMode .normal
/-- R115: DEC_E_ESC_ESC. -/
def Codec.decEEscEsc (c : Codec) : Codec := (c.emit [ESC]).setMode .normal
/-- R116: DEC_E_LIT, the protocol-violation passthrough. -/
def Codec.decELit (b : Byte) (c : Codec) : Codec := (c.emit [b]).setMode .normal
/-- R118: DEC_EOI_ESCAPED; nothing is emitted, and the mode ends with the DECODE (R26). -/
def Codec.decEoiEscaped (c : Codec) : Codec := { c with mode := none }

/-- R73: the row of the encoder symbol table that takes payload byte `b`, first match wins. -/
def Codec.encSymbol (b : Byte) (c : Codec) : Codec :=
  if b = END then c.encEnd
  else if b = ESC then c.encEsc
  else c.encLit b

/-- R74: the row of the decoder symbol table that takes `b` in the present mode, first match wins. -/
def Codec.decSymbol (b : Byte) (c : Codec) : Codec :=
  if c.mode = some .escaped then
    if b = ESC_END then c.decEEscEnd
    else if b = ESC_ESC then c.decEEscEsc
    else c.decELit b
  else
    if b = END then c.decNEnd
    else if b = ESC then c.decNEsc
    else c.decNLit b

/-- The loop of R100 over the payload. -/
def Codec.encLoop : List Byte → Codec → Codec
  | [], c => c
  | b :: p, c => Codec.encLoop p (c.encSymbol b)

/-- The loop of R110 over the raw frame. -/
def Codec.decLoop : List Byte → Codec → Codec
  | [], c => c
  | b :: r, c => Codec.decLoop r (c.decSymbol b)

/-- The end of DECODE's input: R118 in ESCAPED mode; in NORMAL mode nothing is left to do (R119). Either way the
mode ends with the operation (R26). -/
def Codec.decEndOfInput (c : Codec) : Codec :=
  if c.mode = some .escaped then c.decEoiEscaped else { c with mode := none }

end Sys2Proof.Machine
end

