-- ==== Sys2Proof/Machine/Ops.lean ====
section
/-! DEFINITION. The named operations every meaning is built of: how a transaction goes on or ends, the fatal-fault
entry (R211), the lifecycle ledger (R29), the byte accesses (R52), the collaborator calls (R40) and the report of a
status (R85). -/

namespace Sys2Proof.Machine

/-! ## How a piece of a transaction ends -/

/-- One piece of a transaction: it is done with a result and the transaction goes on, it has raised a fatal fault
and the transaction is over (R211), or the model stops. -/
inductive Run (α : Type) where
  | done (a : α) (s : State)
  | raised (s : State)
  | stopped (f : Fault)

/-- Go on with `k` where the piece is done. -/
def Run.andThen {α β : Type} (r : Run α) (k : α → State → Run β) : Run β :=
  match r with
  | .done a s => k a s
  | .raised s => .raised s
  | .stopped f => .stopped f

/-- The step that a transaction makes: a raised fault is a next state, in which `FAULT` is set (R211). -/
def Run.close (r : Run Unit) : Host.Outcome State Fault Refusal :=
  match r with
  | .done _ s => .next s
  | .raised s => .next s
  | .stopped f => .fault f

/-! ## The fatal-fault entry and the end of a transaction -/

/-- R211: set `FAULT` and its info unless a fault is recorded already. -/
def recordFault (f : FaultCode) (info : FaultInfo) (s : State) : State :=
  if s.fault = .none then { s with fault := f, faultInfo := info } else s

/-- R211, R15: `raise F(info)`. Writes made earlier in the transaction stay; the transaction ends with no status. -/
def raise {α : Type} (f : FaultCode) (info : FaultInfo) (s : State) : Run α :=
  .raised (recordFault f info s)

/-- R15, R85: `report E`, with the result fields of R81. -/
def report (e : EventCode) (r : Result) (s : State) : Run Unit :=
  .done () { s with status := some e, result := r }

/-- R211: a block whose `FAULT` is set takes no step. -/
def whenRunning (s : State) (o : Host.Outcome State Fault Refusal) : Host.Outcome State Fault Refusal :=
  if s.fault = .none then o else .fault (.stopped s.fault)

/-- Start a transaction: no status and no result of it yet. -/
def startTransaction (s : State) : State := { s with status := none, result := .none }

/-- One transaction (R5, R221): the body runs to its end in one step. -/
def transact (s : State) (body : State → Run Unit) : Host.Outcome State Fault Refusal :=
  whenRunning s (body (startTransaction s)).close

/-- One symbol row on the codec's work area; no transaction of R85, so no status. -/
def symbolStep (s : State) (f : Codec → Codec) : Host.Outcome State Fault Refusal :=
  whenRunning s (.next { s with codec := f s.codec })

/-! ## The lifecycle ledger and the capacities -/

/-- R29: `LIFE(h)`. -/
def lifeOf (s : State) (h : Handle) : Life := (Table.lookup h s.life).getD .untracked

/-- R42, R44, R46: who owns `h`, if anything has named it (log entry 32). -/
def ownerOf (s : State) (h : Handle) : Option Owner := Table.lookup h s.owner

/-- R11, R42: the buffer is known to be allocated: the block or an agent outside owns it. -/
def allocated (s : State) (h : Handle) : Bool := ownerOf s h == some .block || ownerOf s h == some .outside

/-- R11: from now on `o` owns `h`. -/
def setOwner (h : Handle) (o : Owner) (s : State) : State := { s with owner := Table.insert h o s.owner }

/-- Whose the buffer is when the block sets its ledger entry (R29): the block's, the consumer's after a hand-off
(R158), the pool's after a release, and the caller's again after a SEND with REL = 0 (R186). -/
def ownerAfter : Life → Owner
  | .untracked => .outside
  | .ownedByBlock => .block
  | .borrowed => .block
  | .handedOff => .outside
  | .released => .pool

/-- R29: `LIFE(h) <- v`; UNTRACKED is the entry not listed. The buffer's owner follows. -/
def setLife (h : Handle) (v : Life) (s : State) : State :=
  { s with
    life := if v = .untracked then Table.erase h s.life else Table.insert h v s.life
    owner := Table.insert h (ownerAfter v) s.owner }

/-- R11: `cap(h)`; a free value where nothing has given it (log entry 13). -/
def capOf (s : State) (h : Handle) : Nat := (Table.lookup h s.caps).getD (Config.freeCap h)

/-! ## The byte spaces -/

/-- R50: the number of bytes of a space. -/
def spaceSize (s : State) : Space → Nat
  | .acc => s.cfg.accCap
  | .scratch => s.cfg.scratchCap
  | .pkt h => capOf s h

/-- The written bytes of a space. -/
def spaceMem (s : State) : Space → Memory
  | .acc => s.acc
  | .scratch => s.scratch
  | .pkt h => (Table.lookup h s.pkt).getD []

/-- Replace the written bytes of a space; a packet buffer with none is not listed. -/
def setSpaceMem (sp : Space) (m : Memory) (s : State) : State :=
  match sp with
  | .acc => { s with acc := m }
  | .scratch => { s with scratch := m }
  | .pkt h => { s with pkt := if m = [] then Table.erase h s.pkt else Table.insert h m s.pkt }

/-- R42: the pool's answer fixes `cap(h)`; bytes that the buffer no longer has are gone (log entry 22). -/
def setCap (h : Handle) (c : Nat) (s : State) : State :=
  setSpaceMem (.pkt h) (Table.below c (spaceMem s (.pkt h))) { s with caps := Table.insert h c s.caps }

/-- What a byte of a space reads as: the byte written there; in a packet buffer otherwise a free value (log
entry 12); in ACC and SCRATCH otherwise nothing (R20, R25). -/
def readByteOf (s : State) (sp : Space) (i : Nat) : Option Byte :=
  match Table.lookup i (spaceMem s sp) with
  | some b => some b
  | none =>
    match sp with
    | .pkt h => some (Config.freePktByte h i)
    | _ => none

/-- R52, R53: the block may read the space: always ACC and SCRATCH, a packet buffer while it owns or borrows it. -/
def mayRead (s : State) : Space → Bool
  | .pkt h => lifeOf s h == .ownedByBlock || lifeOf s h == .borrowed
  | _ => true

/-- R52, R53: the block may write the space: always ACC and SCRATCH, a packet buffer while it owns it. -/
def mayWrite (s : State) : Space → Bool
  | .pkt h => lifeOf s h == .ownedByBlock
  | _ => true

/-- R15, R52: `MemRead(space, i, 1)`. -/
def memRead (sp : Space) (i : Nat) (s : State) : Run Byte :=
  if spaceSize s sp ≤ i ∨ mayRead s sp = false then raise .lifecycleViolation (.access sp i) s
  else
    match readByteOf s sp i with
    | some b => .done b s
    | none => .stopped (.noValue sp i)

/-- R15, R52: `MemWrite(space, i, 1, v)`. -/
def memWrite (sp : Space) (i : Nat) (v : Byte) (s : State) : Run Unit :=
  if spaceSize s sp ≤ i ∨ mayWrite s sp = false then raise .lifecycleViolation (.access sp i) s
  else .done () (setSpaceMem sp (Table.insert i v (spaceMem s sp)) s)

/-! ## The collaborator calls -/

/-- R15, R40: record a call in the event history. -/
def record (c : Call) (s : State) : State := { s with history := s.history ++ [c] }

/-- R42, R203: `release(h)`, the ledger's entry with it. Releasing a buffer the block does not own is a violation. -/
def releaseBuffer (h : Handle) (s : State) : Run Unit :=
  if lifeOf s h = .ownedByBlock then .done () (setLife h .released (record (.release h) s))
  else raise .lifecycleViolation (.handle h) s

/-- R44, R203: `ingest(h, k)`, the hand-off with it where the consumer answers OK (R158). Offering a buffer the
block does not own is a violation, found before the call (log entry 26). -/
def ingestBuffer (h : Handle) (k : Nat) (s : State) : Run IngestAnswer :=
  if lifeOf s h = .ownedByBlock then
    match s.draws.ingest with
    | .ok => .done .ok (setLife h .handedOff (record (.ingest h k .ok) s))
    | .fail => .done .fail (record (.ingest h k .fail) s)
  else raise .lifecycleViolation (.handle h) s

end Sys2Proof.Machine
end

