-- ==== Sys2Proof/Machine/Operands.lean ====
section
/-! DEFINITION. The operand forms: byte sequences in the byte spaces (R14, R51), the operand fields of a command
(R81), and the request's operands and answers taken into the state. IMM8 and REL are assembled by the decoder (R87). -/

namespace Sys2Proof.Machine

/-- `space[i..i+n)` read byte by byte, each a `MemRead` (R14, R56, R183). -/
def readSpan (sp : Space) (i : Nat) : Nat → State → Run (List Byte)
  | 0, s => .done [] s
  | n + 1, s =>
    (memRead sp i s).andThen fun b s =>
      (readSpan sp (i + 1) n s).andThen fun bs s => .done (b :: bs) s

/-- Bytes written from index `i` on, each a `MemWrite` (R14, R56, R183). -/
def writeSpan (sp : Space) (i : Nat) : List Byte → State → Run Unit
  | [], s => .done () s
  | b :: bs, s => (memWrite sp i b s).andThen fun _ s => writeSpan sp (i + 1) bs s

/-- R81: ENCODE's payload. -/
def payloadOperand (s : State) : List Byte := s.fields.payload
/-- R81: DECODE's raw frame. -/
def rawOperand (s : State) : List Byte := s.fields.raw
/-- R81: ENCODE's and DECODE's destination capacity. -/
def dstCapOperand (s : State) : Nat := s.fields.dstCap
/-- R81: SEND's handle. -/
def handleOperand (s : State) : Handle := s.fields.h
/-- R81: SEND's payload length. -/
def lengthOperand (s : State) : Nat := s.fields.n

/-- A request is taken from the inbox: its operand fields and its answers are those of the transaction it starts
(R81, R90; log entry 7). -/
def acceptRequest (fields : Fields) (draws : Draws) (rest : List Input) (s : State) : State :=
  { s with fields := fields, draws := draws, inbox := rest }

end Sys2Proof.Machine
end

