-- ==== Sys2Proof/Machine/FrameCodec.lean ====
section
/-! DEFINITION. The Frame Codec: ENCODE (R100 to R108) and DECODE (R110 to R120), as operations SEND and RX_BYTE use
too, and as commands. -/

namespace Sys2Proof.Machine

/-- R101: the encoded length `L = n + 2 + e`. -/
def encodedLength (p : List Byte) : Nat := p.length + 2 + p.countP (fun b => b == END || b == ESC)

/-- R100: ENCODE of `p` for a destination of `dstCap` bytes; the answer is `out` and `L`. The check comes before any
byte (R102). The output is built in the codec's work area, which holds none of it afterwards (R107). -/
def encodeOp (p : List Byte) (dstCap : Nat) (s : State) : Run (List Byte × Nat) :=
  if dstCap < encodedLength p then raise .bufferTooSmall (.sizes (encodedLength p) dstCap) s
  else
    .done (((Codec.encLoop p { s.codec with out := [END] }).emit [END]).out, encodedLength p)
      { s with codec := { s.codec with out := [] } }

/-- R110: DECODE of `r` for a destination of `dstCap` bytes; the answer is `dst[0..k)`, and `k` is its length (R119).
The check is on `len(r)` and comes before any byte (R117). `DEC_MODE` starts NORMAL (R111) and ends with the
operation (R26). -/
def decodeOp (r : List Byte) (dstCap : Nat) (s : State) : Run (List Byte) :=
  if dstCap < r.length then raise .decodeDstTooSmall (.sizes r.length dstCap) s
  else
    .done ((Codec.decLoop r { mode := some .normal, out := [] }).decEndOfInput).out { s with codec := Codec.rest }

/-- R100: the command ENCODE. -/
def execEncode (s : State) : Host.Outcome State Fault Refusal :=
  transact s fun s =>
    (encodeOp (payloadOperand s) (dstCapOperand s) s).andThen fun r s =>
      report .ok (.encoded r.1 r.2) s

/-- R110: the command DECODE. -/
def execDecode (s : State) : Host.Outcome State Fault Refusal :=
  transact s fun s =>
    (decodeOp (rawOperand s) (dstCapOperand s) s).andThen fun out s =>
      report .ok (.decoded out out.length) s

end Sys2Proof.Machine
end

