-- ==== Sys2Proof/Machine/Reassembler.lean ====
section
/-! DEFINITION. The Frame Reassembler: FEED (R130 to R139), as the operation RX_BYTE uses too (R136), and as a
command. -/

namespace Sys2Proof.Machine

/-- R130: the three outcomes of FEED. -/
inductive FeedOutcome where
  | incomplete
  | frameReady (start len : Nat)
  | overflow
  deriving DecidableEq, Repr

/-- R130: one raw byte into the Accumulation Buffer. The overflow check comes before the END test (R131). -/
def feedOp (b : Byte) (s : State) : Run FeedOutcome :=
  if s.cfg.accCap < s.fill + 1 then .done .overflow { s with fill := 0, receiving := false }
  else
    (memWrite .acc s.fill b s).andThen fun _ s =>
      if b = END ∧ 1 < s.fill + 1 then .done (.frameReady 0 (s.fill + 1)) { s with fill := 0, receiving := false }
      else .done .incomplete { s with fill := s.fill + 1 }

/-- R130, R136: the command FEED; a frame's span is a result (R81). -/
def execFeed (b : Byte) (s : State) : Host.Outcome State Fault Refusal :=
  transact s fun s =>
    (feedOp b s).andThen fun r s =>
      match r with
      | .incomplete => report .incomplete .none s
      | .overflow => report .overflow .none s
      | .frameReady start len =>
        (readSpan .acc start len s).andThen fun span s =>
          report .frameReady (.frame start len span) s

end Sys2Proof.Machine
end

