-- ==== Sys2Proof/Machine/Pump.lean ====
section
/-! DEFINITION. The Receive Pump: RX_BYTE (R150 to R164) with the receive half of the buffer lifecycle. -/

namespace Sys2Proof.Machine

/-- R27: the pump's sub-phase. -/
def setPhase (p : PumpPhase) (s : State) : State := { s with pumpPhase := p }

/-- The end of an RX_BYTE transaction: the leak check of R203, then WAIT_BYTE and the next `readByte()` (R161). -/
def finishRx (e : EventCode) (s : State) : Run Unit :=
  match s.held with
  | some h => raise .lifecycleViolation (.handle h) s
  | none => report e .none (record .readByte (setPhase .waitByte s))

/-- R157, R159: release the held buffer and end with the event `e`. -/
def dropFrame (h : Handle) (e : EventCode) (s : State) : Run Unit :=
  (releaseBuffer h (setPhase .release s)).andThen fun _ s => finishRx e { s with held := none }

/-- R158, R159: offer the frame to the consumer. -/
def offerFrame (h : Handle) (k : Nat) (s : State) : Run Unit :=
  (ingestBuffer h k (setPhase .ingest s)).andThen fun answer s =>
    match answer with
    | .ok => finishRx .delivered { s with held := none }
    | .fail =>
      (releaseBuffer h (setPhase .release s)).andThen fun _ s =>
        finishRx .ingestionRejected (countLost { s with held := none })

/-- R157: consult the filter, then, if it accepts, the checksum. -/
def inspectFrame (h : Handle) (k : Nat) (s : State) : Run Unit :=
  let s := record (.filter h k s.draws.filter) (setPhase .filter s)
  match s.draws.filter with
  | .reject => dropFrame h .filteredOut s
  | .accept =>
    let s := record (.checksum h k s.draws.checksum) (setPhase .checksum s)
    match s.draws.checksum with
    | .invalid => dropFrame h .checksumInvalid s
    | .valid => offerFrame h k s

/-- R155: the pump takes the acquired buffer. -/
def takeBuffer (h : Handle) (c : Nat) (s : State) : State :=
  setLife h .ownedByBlock (setCap h c { s with held := some h })

/-- R155: decode the span into the acquired buffer, then inspect it. -/
def decodeFrame (h : Handle) (len : Nat) (s : State) : Run Unit :=
  (readSpan .acc 0 len (setPhase .decode s)).andThen fun span s =>
    (decodeOp span (capOf s h) s).andThen fun out s =>
      (writeSpan (.pkt h) 0 out s).andThen fun _ s => inspectFrame h out.length s

/-- R154: ask the pool for a buffer for a raw frame of `len` bytes. -/
def acquireForFrame (len : Nat) (s : State) : Run Unit :=
  let s := record (.acquire len s.draws.acquire) (setPhase .acquire s)
  match s.draws.acquire with
  | none => finishRx .poolExhausted (countLost s)
  | some (h, c) => decodeFrame h len (takeBuffer h c s)

/-- R245, item 5: the span in progress holds a byte of the receive port (log entry 33). -/
def markReceiving (s : State) : State := { s with receiving := true }

/-- R150: RX_BYTE. -/
def execRxByte (b : Byte) (s : State) : Host.Outcome State Fault Refusal :=
  transact s fun s =>
    (feedOp b (setPhase .feed s)).andThen fun r s =>
      match r with
      | .incomplete => finishRx .incomplete (markReceiving s)
      | .overflow => finishRx .overflow (countLost s)
      | .frameReady _ len => acquireForFrame len s

end Sys2Proof.Machine
end

