-- ==== Sys2Proof/Machine/Status.lean ====
section
/-! DEFINITION. READ_STATUS (R230) and the illegal command word (R83, R204). -/

namespace Sys2Proof.Machine

/-- R230: READ_STATUS. -/
def execReadStatus (s : State) : Host.Outcome State Fault Refusal :=
  transact s fun s => report .ok (.block s.fill s.lostRx s.fault s.td.pending) s

/-- R83, R204: an illegal command word raises F_ILLEGAL_COMMAND with the word as info. -/
def execIllegal (w : Word) (s : State) : Host.Outcome State Fault Refusal :=
  transact s fun s => raise .illegalCommand (.word w) s

end Sys2Proof.Machine
end

