-- ==== Sys2Proof/Machine/Symbols.lean ====
section
/-! DEFINITION. The meanings of the ten symbol rows (R73, R74, R104 to R106, R112 to R118), each on the codec's work
area, by the same operation ENCODE or DECODE runs for that row. -/

namespace Sys2Proof.Machine

/-- R104: ENC_END. -/
def execEncEnd (s : State) : Host.Outcome State Fault Refusal := symbolStep s Codec.encEnd
/-- R105: ENC_ESC. -/
def execEncEsc (s : State) : Host.Outcome State Fault Refusal := symbolStep s Codec.encEsc
/-- R106: ENC_LIT. -/
def execEncLit (b : Byte) (s : State) : Host.Outcome State Fault Refusal := symbolStep s (Codec.encLit b)
/-- R112: DEC_N_END. -/
def execDecNEnd (s : State) : Host.Outcome State Fault Refusal := symbolStep s Codec.decNEnd
/-- R113: DEC_N_ESC. -/
def execDecNEsc (s : State) : Host.Outcome State Fault Refusal := symbolStep s Codec.decNEsc
/-- R114: DEC_N_LIT. -/
def execDecNLit (b : Byte) (s : State) : Host.Outcome State Fault Refusal := symbolStep s (Codec.decNLit b)
/-- R115: DEC_E_ESC_END. -/
def execDecEEscEnd (s : State) : Host.Outcome State Fault Refusal := symbolStep s Codec.decEEscEnd
/-- R115: DEC_E_ESC_ESC. -/
def execDecEEscEsc (s : State) : Host.Outcome State Fault Refusal := symbolStep s Codec.decEEscEsc
/-- R116: DEC_E_LIT. -/
def execDecELit (b : Byte) (s : State) : Host.Outcome State Fault Refusal := symbolStep s (Codec.decELit b)
/-- R118: DEC_EOI_ESCAPED. -/
def execDecEoiEscaped (s : State) : Host.Outcome State Fault Refusal := symbolStep s Codec.decEoiEscaped

end Sys2Proof.Machine
end

