-- ==== Sys2Proof/Machine/Transmit.lean ====
section
/-! DEFINITION. The Transmit Path: SEND (R180 to R189), with what the transport still holds of earlier submissions
(R45, R252). -/

namespace Sys2Proof.Machine

/-- A submission of `bytes`: the transport has no other value to send yet. -/
def newTransfer (bytes : List Byte) : Transfer := { cand := bytes.map fun b => [b] }

/-- The candidates of a transfer after SCRATCH[0..len(bytes)) was overwritten: at each such index the later value
may be the one that is read (R252). -/
def overwriteCand : List (List Byte) → List Byte → List (List Byte)
  | c :: cs, b :: bs => (c ++ [b]) :: overwriteCand cs bs
  | cs, [] => cs
  | [], _ => []

/-- R252: a pending transfer when a later SEND overwrites SCRATCH. -/
def overwriteTransfer (bytes : List Byte) (t : Transfer) : Transfer := { cand := overwriteCand t.cand bytes }

/-- R10, R45, R252: the transport's pending transfers after a submission of `bytes`. -/
def inflightAfter (c : Config) (bytes : List Byte) (ts : List Transfer) : List Transfer :=
  (if c.txCopyAtSubmit then ts else ts.map (overwriteTransfer bytes)) ++ [newTransfer bytes]

/-- R184: submission of SCRATCH[0..L). -/
def submit (out : List Byte) (len : Nat) (s : State) : State :=
  record (.submitWrite out)
    { s with
      td := { s.td with len := len, pending := s.td.pending + 1, src := .scratch }
      inflight := inflightAfter s.cfg out s.inflight }

/-- R181, R183, R184: encode PKT(h)[0..n) into SCRATCH and submit it. -/
def encodeAndSubmit (h : Handle) (n : Nat) (s : State) : Run Unit :=
  (readSpan (.pkt h) 0 n s).andThen fun p s =>
    (encodeOp p (2 * n + 2) s).andThen fun r s =>
      (writeSpan .scratch 0 r.1 s).andThen fun _ s => .done () (submit r.1 r.2 s)

/-- R186, R188: give the buffer back as REL says, and report. -/
def finishSend (h : Handle) (rel : Bool) (e : EventCode) (s : State) : Run Unit :=
  if rel then (releaseBuffer h s).andThen fun _ s => report e .none s
  else report e .none (setLife h .untracked s)

/-- R187: the block itself holds `h`. -/
def blockHolds (s : State) (h : Handle) : Bool :=
  lifeOf s h == .ownedByBlock || lifeOf s h == .borrowed

/-- R180: SEND. -/
def sendBody (h : Handle) (n : Nat) (rel : Bool) (s : State) : Run Unit :=
  if s.cfg.maxTxPayload < n then raise .bufferTooSmall (.sizes (2 * n + 2) s.cfg.scratchCap) s
  else if blockHolds s h then raise .lifecycleViolation (.handle h) s
  else
    let s := setLife h (if rel then .ownedByBlock else .borrowed) s
    let s := record (.queryLinkUp s.draws.linkUp) s
    if s.draws.linkUp then
      (encodeAndSubmit h n s).andThen fun _ s => finishSend h rel .sent s
    else finishSend h rel .linkDown s

/-- R180: the command SEND. -/
def execSend (rel : Bool) (s : State) : Host.Outcome State Fault Refusal :=
  transact s fun s => sendBody (handleOperand s) (lengthOperand s) rel s

end Sys2Proof.Machine
end

