-- ==== Sys2Proof/Machine/Dispatch.lean ====
section
/-! DEFINITION. One arm per instruction, each one direct call of its meaning. -/

namespace Sys2Proof.Machine

def exec (i : Instr) (s : State) : Host.Outcome State Fault Refusal :=
  match i with
  | .encode => Sys2Proof.Machine.execEncode s
  | .decode => Sys2Proof.Machine.execDecode s
  | .feed b => Sys2Proof.Machine.execFeed b s
  | .send rel => Sys2Proof.Machine.execSend rel s
  | .readStatus => Sys2Proof.Machine.execReadStatus s
  | .illegal w => Sys2Proof.Machine.execIllegal w s
  | .rxByte b => Sys2Proof.Machine.execRxByte b s
  | .encEnd => Sys2Proof.Machine.execEncEnd s
  | .encEsc => Sys2Proof.Machine.execEncEsc s
  | .encLit b => Sys2Proof.Machine.execEncLit b s
  | .decNEnd => Sys2Proof.Machine.execDecNEnd s
  | .decNEsc => Sys2Proof.Machine.execDecNEsc s
  | .decNLit b => Sys2Proof.Machine.execDecNLit b s
  | .decEEscEnd => Sys2Proof.Machine.execDecEEscEnd s
  | .decEEscEsc => Sys2Proof.Machine.execDecEEscEsc s
  | .decELit b => Sys2Proof.Machine.execDecELit b s
  | .decEoiEscaped => Sys2Proof.Machine.execDecEoiEscaped s

end Sys2Proof.Machine
end

