-- ==== Sys2Proof/Machine/Agents.lean ====
section
/-! DEFINITION. The steps of the agents outside the block: the transport's completion event (R45, R189), an
interrupted read (R41), reset (R240 to R242), and what the owner of a buffer outside the block does with it (R42,
R46). -/

namespace Sys2Proof.Machine

/-- R252: the wire byte of each index: the pick says which of the values the transport read; a pick that is missing
or too large takes the oldest. -/
def pickBytes : List (List Byte) → List Nat → List Byte
  | [], _ => []
  | c :: cs, [] => c.headD 0 :: pickBytes cs []
  | c :: cs, k :: ks => c.getD k (c.headD 0) :: pickBytes cs ks

/-- R45, R189, R242: a completion event: it writes TD_STATUS, decrements TD_PENDING down to 0 at least, and puts the
completed transfer's bytes on the wire. -/
def completion (which v : Nat) (picks : List Nat) (s : State) : State :=
  { s with
    td := { s.td with status := v % 2 ^ s.cfg.wStatus, pending := s.td.pending - 1 }
    inflight := s.inflight.eraseIdx which
    wire := match s.inflight[which]? with
      | some t => s.wire ++ [pickBytes t.cand picks]
      | none => s.wire }

/-- R41: `readByte()` answers INTERRUPTED: nothing changes, and the pump calls it again. -/
def interruptedRead (s : State) : State := record .readByte s

/-- R241: a buffer a faulted block held is forgotten, not released; it is the host's to recover (log entry 30). -/
def forgetHeld (t : List (Handle × Owner)) : List (Handle × Owner) :=
  t.map fun p => (p.1, if p.2 = .block then .outside else p.2)

/-- R240 to R242: reset puts every state element of the block at its reset value and leaves what belongs to others:
the buffers' bytes, capacities and owners, TD_STATUS, the transfers in flight, the wire, and the pending inputs. No
buffer is released. With TX_COPY_AT_SUBMIT = false, a transfer still in flight goes on sending the bytes SCRATCH held for
it before the reset, though SCRATCH holds no value then: the spec leaves open what it reads (DESIGN CHOICE, log entry
34; what else is kept: log entry 30). -/
def resetBlock (s : State) : State :=
  { State.resetWith s.cfg with
    td := { (State.resetWith s.cfg).td with status := s.td.status }
    owner := forgetHeld s.owner
    pkt := s.pkt
    caps := s.caps
    history := s.history ++ [.readByte]
    inflight := s.inflight
    wire := s.wire
    inbox := s.inbox }

/-- Bytes put from index `i` on, by their owner. -/
def putBytes (i : Nat) : List Byte → Memory → Memory
  | [], m => m
  | b :: bs, m => putBytes (i + 1) bs (Table.insert i b m)

/-- R42, R11: the pool gives `h` to an agent outside the block, with a capacity that stays until `h` is released; a
handle that someone owns is not the pool's to give (R245, item 1). -/
def poolGivesOutside (h : Handle) (cap : Nat) (s : State) : Host.Outcome State Fault Refusal :=
  if allocated s h then .refused (.handleOwned h)
  else .next (setOwner h .outside (setCap h cap s))

/-- R46: an agent outside the block may use `h`: it owns it, or nothing has named `h` yet (log entry 32). -/
def outsideMayUse (s : State) (h : Handle) : Bool := ownerOf s h == some .outside || ownerOf s h == none

/-- R46: the owner of `h`, outside the block, writes its first bytes; bytes beyond `cap(h)` do not exist. -/
def ownerWrites (h : Handle) (bytes : List Byte) (s : State) : Host.Outcome State Fault Refusal :=
  if outsideMayUse s h then
    .next (setOwner h .outside
      (setSpaceMem (.pkt h) (putBytes 0 (bytes.take (capOf s h)) (spaceMem s (.pkt h))) s))
  else .refused (.notTheOwner h)

/-- R46: the owner of `h`, outside the block, gives it back to the pool. -/
def ownerReleases (h : Handle) (s : State) : Host.Outcome State Fault Refusal :=
  if outsideMayUse s h then .next (setOwner h .pool s) else .refused (.notTheOwner h)

/-- Nothing is pending: the pump waits in `readByte()` (R227) and no agent moves; a stopped block takes no step
(R211). -/
def idle (s : State) : Host.Outcome State Fault Refusal := whenRunning s (.next s)

end Sys2Proof.Machine
end

