-- ==== Sys2Proof/Machine/Duties.lean ====
section
/-! DEFINITION. The duties of the host and of the collaborators (R245) that a request can break. Where a rule gives the
run an effect all the same (R162, R52, R250, R252) it runs; otherwise `step` refuses the request before running it
(93 I21; log entry 15). -/

namespace Sys2Proof.Machine

/-- R132: the byte completes a span, so RX_BYTE calls `acquire` (R154). -/
def completesSpan (b : Byte) (s : State) : Bool := b == END && decide (0 < s.fill) && decide (s.fill < s.cfg.accCap)

/-- The duties an RX_BYTE breaks: of the host, whose direct FEED commands began the span (item 5), and of the pool, if
it is called (item 1). -/
def rxDuties (b : Byte) (s : State) : List Duty :=
  (if 0 < s.fill ∧ s.receiving = false then [.feedAlone] else []) ++
  match s.draws.acquire with
  | none => []
  | some (h, c) =>
    if completesSpan b s then
      (if allocated s h then [.poolGivesFree] else []) ++ (if c < s.fill + 1 then [.poolGivesEnough] else [])
    else []

/-- The duties the caller of a SEND breaks: items 3 and 6. -/
def sendDuties (s : State) : List Duty :=
  (if outsideMayUse s s.fields.h then [] else [.senderOwns]) ++
  (if capOf s s.fields.h < s.fields.n then [.payloadFits] else []) ++
  (if s.cfg.txCopyAtSubmit = false ∧ 0 < s.td.pending then [.scratchFree] else [])

/-- R245: the duties that running the instruction in this state breaks. -/
def brokenDuties (i : Instr) (s : State) : List Duty :=
  match i with
  | .encode => []
  | .decode => []
  | .feed _ => if s.receiving then [.feedAlone] else []
  | .send _ => sendDuties s
  | .readStatus => []
  | .illegal _ => []
  | .rxByte b => rxDuties b s
  | .encEnd => []
  | .encEsc => []
  | .encLit _ => []
  | .decNEnd => []
  | .decNEsc => []
  | .decNLit _ => []
  | .decEEscEnd => []
  | .decEEscEsc => []
  | .decELit _ => []
  | .decEoiEscaped => []

/-- The refusal of a request that breaks a duty and to which no rule gives an effect: the pool hands out an owned
handle, or SEND is called with a buffer that is not the caller's. A SEND of a buffer the block holds has the effect of
R187. -/
def dutyRefusal (i : Instr) (s : State) : Option Refusal :=
  match i with
  | .rxByte b =>
    match s.draws.acquire with
    | none => none
    | some (h, _) => if completesSpan b s && allocated s h then some (.handleOwned h) else none
  | .send _ =>
    if outsideMayUse s s.fields.h || blockHolds s s.fields.h then none else some (.notTheOwner s.fields.h)
  | .encode => none
  | .decode => none
  | .feed _ => none
  | .readStatus => none
  | .illegal _ => none
  | .encEnd => none
  | .encEsc => none
  | .encLit _ => none
  | .decNEnd => none
  | .decNEsc => none
  | .decNLit _ => none
  | .decEEscEnd => none
  | .decEEscEsc => none
  | .decELit _ => none
  | .decEoiEscaped => none

end Sys2Proof.Machine
end

