-- ==== Sys2Proof/Machine/Step.lean ====
section
/-! DEFINITION. One step of the machine: the next pending step of an agent, in the order of the inbox (R221). -/

namespace Sys2Proof.Machine

/-- An instruction runs unless its request breaks a duty and no rule gives that an effect (R245, 93 I21). A stopped
block takes no step either way (R211). -/
def runInstr (i : Instr) (s : State) : Host.Outcome State Fault Refusal :=
  match dutyRefusal i s with
  | some r => whenRunning s (.refused r)
  | none => exec i s

/-- A presented word runs as the instruction the decoder reads from it, with the request's operands and answers. -/
def runRequest (f : Format) (w : Nat) (fields : Fields) (draws : Draws) (rest : List Input) (s : State) :
    Host.Outcome State Fault Refusal :=
  match decode f w with
  | .ok i => runInstr i (acceptRequest fields draws rest s)
  | .error e => .refused (.notAnInstruction e)

/-- The next pending step of an agent. A configuration that is not well formed is refused (R6). -/
def step (s : State) : Host.Outcome State Fault Refusal :=
  if s.cfg.wf = false then .refused .illFormedConfig
  else
    match s.inbox with
    | [] => idle s
    | .request f w fields draws :: rest => runRequest f w fields draws rest s
    | .interrupted :: rest => whenRunning s (.next (interruptedRead { s with inbox := rest }))
    | .complete which v picks :: rest => .next (completion which v picks { s with inbox := rest })
    | .reset :: rest => .next (resetBlock { s with inbox := rest })
    | .poolGives h cap :: rest => poolGivesOutside h cap { s with inbox := rest }
    | .ownerWrite h bytes :: rest => ownerWrites h bytes { s with inbox := rest }
    | .ownerRelease h :: rest => ownerReleases h { s with inbox := rest }

/-- `s` with the instruction whose bits are `w` presented as the next request, with the operand fields and the answers
`s` holds already (log entry 6). -/
def State.withFetchWord (s : State) (nbits w : Nat) : State :=
  match tableFormat nbits w with
  | some f => { s with inbox := .request f w s.fields s.draws :: s.inbox }
  | none => s

end Sys2Proof.Machine
end

