-- ==== Sys2Proof/Safety.lean ====
section
/-! DEFINITION. What counts as a safe state and a safe run, in the terms the statements use: the wire format as a
grammar and as plain recursive functions (R71, R73, R74), what a byte space holds, the invariants of 10_state.md and
42_receive_pump.md, and what a transaction leaves alone. -/

namespace Sys2Proof.Safety

open Sys2Proof.Machine

/-! ## The wire format, without the machine -/

/-- R73: the wire bytes of one payload byte. -/
def escape (b : Byte) : List Byte :=
  if b = END then [ESC, ESC_END] else if b = ESC then [ESC, ESC_ESC] else [b]

/-- R100, R103: the wire frame of a payload. -/
def frameOf (p : List Byte) : List Byte := END :: (p.flatMap escape ++ [END])

/-- R115, R116: what the byte after an ESC stands for. -/
def escaped (b : Byte) : Byte := if b = ESC_END then END else if b = ESC_ESC then ESC else b

/-- R112 to R118: the payload of a raw frame, read symbol by symbol. -/
def unescape : List Byte → List Byte
  | [] => []
  | [b] => if b = END ∨ b = ESC then [] else [b]
  | b :: c :: r =>
    if b = END then unescape (c :: r)
    else if b = ESC then escaped c :: unescape r
    else b :: unescape (c :: r)

/-- R71: the inside of a frame, `(ESC,ESC_END | ESC,ESC_ESC | byte)*`, `byte` being neither END nor ESC. -/
inductive WireBody : List Byte → Prop where
  | nil : WireBody []
  | escEnd (r : List Byte) : WireBody r → WireBody (ESC :: ESC_END :: r)
  | escEsc (r : List Byte) : WireBody r → WireBody (ESC :: ESC_ESC :: r)
  | lit (b : Byte) (r : List Byte) : b ≠ END → b ≠ ESC → WireBody r → WireBody (b :: r)

/-- R71: `END, (ESC,ESC_END | ESC,ESC_ESC | byte)*, END`. -/
def WireFrame (w : List Byte) : Prop := ∃ body, WireBody body ∧ w = END :: (body ++ [END])

/-- R101: the number of END and ESC bytes of a payload. -/
def escapes (p : List Byte) : Nat := (p.filter fun b => b = END ∨ b = ESC).length

/-- R83 by the fields of R81: OP is reserved, a reserved bit is 1, REL outside SEND, or IMM8 outside FEED. -/
def IllegalByFields (w : Word) : Prop :=
  let op := w.extractLsb' 0 4
  op = 0#4 ∨ 6 ≤ op.toNat ∨ w.extractLsb' 5 3 ≠ 0#3 ∨ w.extractLsb' 16 16 ≠ 0#16 ∨
    (w.getLsbD 4 = true ∧ op ≠ 4#4) ∨ (w.extractLsb' 8 8 ≠ 0#8 ∧ op ≠ 3#4)

/-! ## What a space holds -/

/-- The bytes of `m` from index `i` on are `bs`, all of them written. -/
def Holds (m : Memory) (i : Nat) (bs : List Byte) : Prop :=
  ∀ j b, bs[j]? = some b → Table.lookup (i + j) m = some b

/-- The first bytes of packet buffer `h` read as `bs`. -/
def PacketReads (s : State) (h : Handle) (bs : List Byte) : Prop :=
  ∀ j b, bs[j]? = some b → readByteOf s (.pkt h) j = some b

/-! ## Runs over several inputs -/

/-- Direct FEED commands, one byte after another (R91, FEEDSEQ), while each gives a next state. -/
def feedAll : List Byte → State → Host.Outcome State Fault Refusal
  | [], s => .next s
  | b :: bs, s =>
    match exec (.feed b) s with
    | .next t => feedAll bs t
    | o => o

/-- The rows of the decoder symbol table for each byte of `r` in turn, run one by one on the machine (R74). -/
def runDecSymbols : List Byte → State → Host.Outcome State Fault Refusal
  | [], s => .next s
  | b :: r, s =>
    match exec (decodeDecSym (s.codec.mode == some .escaped) b) s with
    | .next t => runDecSymbols r t
    | o => o

/-- The rows of the encoder symbol table for each byte of `p` in turn, run one by one on the machine (R73). -/
def runEncSymbols : List Byte → State → Host.Outcome State Fault Refusal
  | [], s => .next s
  | b :: p, s =>
    match exec (decodeEncSym b) s with
    | .next t => runEncSymbols p t
    | o => o

/-! ## Invariants -/

/-- The byte spaces and the tables are in their canonical form, FILL is within ACC, every byte below FILL has been
written (R20, R22, R25, R50), and an empty span is not marked as the pump's (log entry 33). -/
structure MemoryInv (s : State) : Prop where
  fill_le : s.fill ≤ s.cfg.accCap
  acc_wf : Memory.wf s.cfg.accCap s.acc
  acc_written : ∀ i < s.fill, ∃ b, Table.lookup i s.acc = some b
  scratch_wf : Memory.wf s.cfg.scratchCap s.scratch
  pkt_rising : Table.Rising s.pkt
  pkt_wf : ∀ p ∈ s.pkt, p.2 ≠ [] ∧ Memory.wf (capOf s p.1) p.2
  caps_rising : Table.Rising s.caps
  life_rising : Table.Rising s.life
  life_listed : ∀ p ∈ s.life, p.2 ≠ .untracked
  owner_rising : Table.Rising s.owner
  receiving_fill : s.receiving = true → 0 < s.fill

/-- Between the transactions of a block that has not faulted the pump is in WAIT_BYTE, holds nothing, and no buffer
is owned or borrowed by the block (R27, R28, R29, R160); faulted or not, the buffers the ledger of owners gives to the
block are those it owns or borrows (R11, R29; log entry 32). -/
structure PumpInv (s : State) : Prop where
  phase : s.fault = .none → s.pumpPhase = .waitByte
  held : s.fault = .none → s.held = none
  unheld : s.fault = .none → ∀ h, blockHolds s h = false
  owned : ∀ h, ownerOf s h = some .block ↔ blockHolds s h = true

/-- The Transfer Descriptor is in range, and each transfer the transport still holds fits SCRATCH and has a value to
send for each of its bytes (R30, R31, R45). -/
structure TransmitInv (s : State) : Prop where
  len_le : s.td.len ≤ s.cfg.scratchCap
  src : s.td.src = .scratch
  status_lt : s.td.status < 2 ^ s.cfg.wStatus
  pending_le : s.td.pending ≤ s.inflight.length
  cand : ∀ t ∈ s.inflight, t.cand.length ≤ s.cfg.scratchCap ∧ ∀ c ∈ t.cand, c ≠ []

/-! ## What a transaction is about -/

/-- The instructions that are transactions of R85: the five commands, the illegal word and RX_BYTE. -/
def isTransaction : Instr → Bool
  | .encode => true
  | .decode => true
  | .feed _ => true
  | .send _ => true
  | .readStatus => true
  | .illegal _ => true
  | .rxByte _ => true
  | .encEnd => false
  | .encEsc => false
  | .encLit _ => false
  | .decNEnd => false
  | .decNEsc => false
  | .decNLit _ => false
  | .decEEscEnd => false
  | .decEEscEsc => false
  | .decELit _ => false
  | .decEoiEscaped => false

/-- R85, third column: the instruction may end with the event code. -/
def mayReport : Instr → EventCode → Bool
  | .encode, e => e == .ok
  | .decode, e => e == .ok
  | .readStatus, e => e == .ok
  | .feed _, e => e == .incomplete || e == .frameReady || e == .overflow
  | .send _, e => e == .sent || e == .linkDown
  | .rxByte _, e =>
    e == .incomplete || e == .overflow || e == .poolExhausted || e == .delivered || e == .ingestionRejected ||
      e == .filteredOut || e == .checksumInvalid
  | .illegal _, _ => false
  | .encEnd, _ => false
  | .encEsc, _ => false
  | .encLit _, _ => false
  | .decNEnd, _ => false
  | .decNEsc, _ => false
  | .decNLit _, _ => false
  | .decEEscEnd, _ => false
  | .decEEscEsc, _ => false
  | .decELit _, _ => false
  | .decEoiEscaped, _ => false

/-- R85, fourth column, R23: the event codes of RX_BYTE that LOST_RX counts. -/
def isLost : EventCode → Bool
  | .overflow => true
  | .poolExhausted => true
  | .ingestionRejected => true
  | .ok => false
  | .incomplete => false
  | .frameReady => false
  | .delivered => false
  | .filteredOut => false
  | .checksumInvalid => false
  | .sent => false
  | .linkDown => false

/-- An `acquire` that the pool answered with a handle. -/
def isAcquired : Call → Bool
  | .acquire _ (some _) => true
  | _ => false

/-- A frame completes in RX_BYTE(END): `bs` is what FEED has stored, and END makes a span of it (R132). -/
structure SpanReady (s : State) (bs : List Byte) : Prop where
  running : s.fault = .none
  held : s.held = none
  stored : Holds s.acc 0 bs
  length : bs.length = s.fill
  some_byte : 0 < s.fill
  room : s.fill < s.cfg.accCap

/-- A frame completes and the pool answers with a buffer that is large enough (R42, R154). -/
structure FrameArrives (s : State) (bs : List Byte) (h : Handle) (c : Nat) : Prop where
  span : SpanReady s bs
  acquired : s.draws.acquire = some (h, c)
  large : s.fill + 1 ≤ c

/-- What RX_BYTE leaves alone when it works on buffer `h`: the configuration, the fault register, SCRATCH, the
Transfer Descriptor and the transport's transfers, the inputs, and everything about every other buffer. -/
structure RxFrame (s t : State) (h : Handle) : Prop where
  cfg : t.cfg = s.cfg
  fault : t.fault = s.fault
  faultInfo : t.faultInfo = s.faultInfo
  scratch : t.scratch = s.scratch
  td : t.td = s.td
  inflight : t.inflight = s.inflight
  wire : t.wire = s.wire
  fields : t.fields = s.fields
  draws : t.draws = s.draws
  inbox : t.inbox = s.inbox
  life : ∀ h', h' ≠ h → lifeOf t h' = lifeOf s h'
  owner : ∀ h', h' ≠ h → ownerOf t h' = ownerOf s h'
  cap : ∀ h', h' ≠ h → capOf t h' = capOf s h'
  pkt : ∀ h', h' ≠ h → ∀ i, readByteOf t (.pkt h') i = readByteOf s (.pkt h') i

/-- What every frame taken into buffer `h` with capacity `c` leaves, whatever its fate (R155, R160, R161): ACC with
the END stored, FILL at 0, the decoded bytes in the buffer and the bytes after them as they were, the codec at rest,
nothing held, the pump waiting. -/
structure FrameTaken (s t : State) (bs : List Byte) (h : Handle) (c : Nat) : Prop where
  acc : t.acc = Table.insert s.fill END s.acc
  fill : t.fill = 0
  codec : t.codec = Codec.rest
  cap : capOf t h = c
  decoded : Holds (spaceMem t (.pkt h)) 0 (unescape (bs ++ [END]))
  beyond : ∀ i, (unescape (bs ++ [END])).length ≤ i → i < c →
    readByteOf t (.pkt h) i = readByteOf s (.pkt h) i
  held : t.held = none
  phase : t.pumpPhase = .waitByte
  result : t.result = .none
  frame : RxFrame s t h

/-- What SEND on buffer `h` leaves alone, whatever its status: all but SCRATCH, TD, the transport's transfers, LIFE(h)
and the owner of `h`, the codec's work area, the history, the status and the results. -/
structure SendFrame (s t : State) (h : Handle) : Prop where
  cfg : t.cfg = s.cfg
  acc : t.acc = s.acc
  fill : t.fill = s.fill
  receiving : t.receiving = s.receiving
  lostRx : t.lostRx = s.lostRx
  fault : t.fault = s.fault
  faultInfo : t.faultInfo = s.faultInfo
  mode : t.codec.mode = s.codec.mode
  pumpPhase : t.pumpPhase = s.pumpPhase
  held : t.held = s.held
  pkt : t.pkt = s.pkt
  caps : t.caps = s.caps
  wire : t.wire = s.wire
  fields : t.fields = s.fields
  draws : t.draws = s.draws
  inbox : t.inbox = s.inbox
  life : ∀ h', h' ≠ h → lifeOf t h' = lifeOf s h'
  owner : ∀ h', h' ≠ h → ownerOf t h' = ownerOf s h'

/-- The state with another word in TD_STATUS (R31). -/
def withStatus (v : Nat) (s : State) : State := { s with td := { s.td with status := v } }

/-- The outcome with its next state changed by `f`. -/
def mapNext (f : State → State) (o : Host.Outcome State Fault Refusal) : Host.Outcome State Fault Refusal :=
  match o with
  | .next s => .next (f s)
  | .fault r => .fault r
  | .refused r => .refused r

end Sys2Proof.Safety
end

