-- ==== Sys2Proof/Certificates/Slice0/Obligations.lean ====
section
/-! DEFINITION. The statements for the provers. Each docstring names the rule of spec/ it formalises. -/

open Sys2Proof
open Sys2Proof.Machine
open Sys2Proof.Safety

/-! ## Decoding -/

/-- 30_encoding.md R73, R74, R81 to R84: decoding an encoded well-formed instruction gives it back, so no bit of an
encoding is dropped. -/
def Obligations.DecodeOfEncodeIsTheInstruction : Prop :=
  ∀ i : Instr, i.wf = true → decode (encode i).1 (encode i).2 = .ok i

/-- R73, R74, R81 to R84: each word has one meaning: what the decoder reads is well formed and encodes to that word. -/
def Obligations.EncodeOfDecodeIsTheWord : Prop :=
  ∀ (f : Format) (w : Nat) (i : Instr), decode f w = .ok i → i.wf = true ∧ encode i = (f, w)

/-- R83, R84, R73, R74: the decoder rejects only a number wider than its format and the end of input in NORMAL mode,
which has no row. -/
def Obligations.DecoderRejectsOnlyWhatHasNoRow : Prop :=
  ∀ (f : Format) (w : Nat),
    (∃ e, decode f w = .error e) ↔ (2 ^ formatWidth f ≤ w ∨ (f = .decEoi ∧ w = 0))

/-- R83: a command word is illegal exactly by the four conditions on its fields; it raises F_ILLEGAL_COMMAND with the
word as info and changes no other state. -/
def Obligations.IllegalWordRaisesIllegalCommand : Prop :=
  (∀ w : Word, decodeCmd w = .illegal w ↔ IllegalByFields w) ∧
  (∀ w : Word, (∀ v, decodeCmd w ≠ .illegal v) ∨ decodeCmd w = .illegal w) ∧
  ∀ (w : Word) (s : State), s.fault = .none →
    exec (.illegal w) s =
      .next { s with fault := .illegalCommand, faultInfo := .word w, status := none, result := .none }

/-- 95_test_vectors.md section 2.6 and 30_encoding.md R73, R74: a few words written out from the encodings. R84: every
byte is legal on the receive port and starts RX_BYTE. -/
def Obligations.SampleWordsDecodeAsTheSpecSays : Prop :=
  decode .cmd 0x00000001 = .ok .encode ∧ decode .cmd 0x00000002 = .ok .decode ∧
  decode .cmd 0x0000C003 = .ok (.feed 0xC0) ∧ decode .cmd 0x00000014 = .ok (.send true) ∧
  decode .cmd 0x00000004 = .ok (.send false) ∧ decode .cmd 0x00000005 = .ok .readStatus ∧
  decode .cmd 0x00000015 = .ok (.illegal 0x15) ∧ decode .cmd 0x00004101 = .ok (.illegal 0x4101) ∧
  decode .encSym 0xDB = .ok .encEsc ∧ decode .encSym 0xDC = .ok (.encLit 0xDC) ∧
  decode .decSym 0x0DB = .ok .decNEsc ∧ decode .decSym 0x1DB = .ok (.decELit 0xDB) ∧
  decode .decSym 0x1DC = .ok .decEEscEnd ∧ decode .decEoi 1 = .ok .decEoiEscaped ∧
  ∀ b : Byte, decode .rxPort b.toNat = .ok (.rxByte b)

/-- R85, R86: the numbers of the event and fault codes. -/
def Obligations.EventAndFaultCodesHaveTheirNumbers : Prop :=
  ([EventCode.ok, .incomplete, .frameReady, .overflow, .poolExhausted, .delivered, .ingestionRejected, .filteredOut,
      .checksumInvalid, .sent, .linkDown].map EventCode.number = [0, 1, 2, 3, 4, 5, 6, 7, 8, 9, 10]) ∧
  ([FaultCode.none, .bufferTooSmall, .decodeDstTooSmall, .lifecycleViolation, .illegalCommand].map FaultCode.number =
      [0x00, 0x10, 0x11, 0x12, 0x13])

/-! ## Reset -/

/-- 70_reset_and_hazards.md R240, 10_state.md section 3: the reset values the spec gives, under every configuration;
State.reset is one of these states, in a well-formed configuration. -/
def Obligations.ResetLeavesTheValuesOfTheSpec : Prop :=
  (∀ c : Config,
    (State.resetWith c).fill = 0 ∧ (State.resetWith c).lostRx = 0 ∧ (State.resetWith c).fault = .none ∧
    (State.resetWith c).codec.mode = none ∧ (State.resetWith c).pumpPhase = .waitByte ∧
    (State.resetWith c).held = none ∧ (∀ h, lifeOf (State.resetWith c) h = .untracked) ∧
    (State.resetWith c).td.pending = 0 ∧ (State.resetWith c).td.len = 0 ∧ (State.resetWith c).td.src = .scratch ∧
    (∀ i, readByteOf (State.resetWith c) .acc i = none) ∧ (∀ i, readByteOf (State.resetWith c) .scratch i = none)) ∧
  ∃ c : Config, c.wf = true ∧ c.txCopyAtSubmit = true ∧ State.reset = State.resetWith c

/-- R22, R25, R27 to R31: the three invariants hold at reset. -/
def Obligations.ResetMeetsTheInvariants : Prop :=
  MemoryInv State.reset ∧ PumpInv State.reset ∧ TransmitInv State.reset

/-- R240 to R242: the reset step puts the block's state at the reset values from any state, faulted or not, releases
no buffer, and touches neither TD_STATUS nor the transfers in flight. The spec gives the other fields no reset value:
what they hold then is the model's choice. No status, no result and no fault info: log entry 23. An empty codec output:
log entry 8. The operand fields and answers: log entry 7. No span of the pump's: log entry 33. That the packet buffers
keep their bytes, capacities and owners (a buffer the block held is then an agent's outside: R241 leaves it to the host
to recover), and that the wire and the pending inputs stay: log entry 30. That R242's untouched transfer, where the
transport has no copy, keeps the bytes SCRATCH held for it: log entry 34. -/
def Obligations.ResetStepClearsTheBlockAndReleasesNothing : Prop :=
  ∀ (s : State) (rest : List Input), s.cfg.wf = true → s.inbox = .reset :: rest →
    ∃ t, step s = .next t ∧
      t.acc = [] ∧ t.fill = 0 ∧ t.lostRx = 0 ∧ t.fault = .none ∧ t.faultInfo = .none ∧ t.scratch = [] ∧
      t.codec = Codec.rest ∧ t.pumpPhase = .waitByte ∧ t.held = none ∧ (∀ h, lifeOf t h = .untracked) ∧
      t.td = { pending := 0, len := 0, src := .scratch, status := s.td.status } ∧
      t.status = none ∧ t.result = .none ∧ t.history = s.history ++ [.readByte] ∧
      t.fields = Fields.empty ∧ t.draws = Draws.empty ∧ t.receiving = false ∧
      (∀ h, ownerOf t h = if ownerOf s h = some .block then some .outside else ownerOf s h) ∧
      t.cfg = s.cfg ∧ t.pkt = s.pkt ∧ t.caps = s.caps ∧ t.inflight = s.inflight ∧ t.wire = s.wire ∧ t.inbox = rest

/-! ## Invariants -/

/-- 10_state.md R20, R22, R25, R50: every step keeps the byte spaces and tables in their canonical form, FILL within
ACC, every byte below FILL written, and the model's mark of a span of the pump's off an empty span (log entry 33). -/
def Obligations.StepKeepsMemoryInv : Prop :=
  ∀ s t : State, MemoryInv s → step s = .next t → MemoryInv t

/-- 10_state.md R27, R28, 42_receive_pump.md R160 (which the spec infers from R153 to R159): every step of a block that
has not faulted ends with the pump in WAIT_BYTE, nothing held, and no buffer owned or borrowed by the block; faulted or
not, the model's ledger of owners (log entry 32) gives the block what LIFE says it owns or borrows. -/
def Obligations.StepKeepsPumpInv : Prop :=
  ∀ s t : State, PumpInv s → step s = .next t → PumpInv t

/-- 10_state.md R30, R31, R45: every step keeps TD_LEN within SCRATCH_CAP, TD_SRC at SCRATCH, TD_STATUS within
W_STATUS bits, and TD_PENDING within the transfers the transport still holds. -/
def Obligations.StepKeepsTransmitInv : Prop :=
  ∀ s t : State, TransmitInv s → step s = .next t → TransmitInv t

/-- R33: no step changes the configuration; no instruction changes its operand fields, its answers or the pending
inputs. 00_scope.md R11, which R243 counts to the configuration: no step changes the capacity of an allocated buffer. A
buffer is known to be allocated by the model's ledger of owners (log entry 32). -/
def Obligations.ConfigurationAndInputsAreNeverWritten : Prop :=
  (∀ s t : State, step s = .next t → t.cfg = s.cfg) ∧
  (∀ (s t : State) (h : Handle), step s = .next t → allocated s h = true → capOf t h = capOf s h) ∧
  ∀ (i : Instr) (s t : State), exec i s = .next t →
    t.cfg = s.cfg ∧ t.fields = s.fields ∧ t.draws = s.draws ∧ t.inbox = s.inbox

/-! ## One step -/

/-- R80, R81, R90: a presented word runs as the instruction the decoder reads from it, with the operand fields and
the answers of its request; the step only takes the request from the inbox. Where the request breaks a duty and no rule
gives that an effect, a running block's step is that refusal (R245, 93 I21; log entry 15). A word placed by the host's
own function is what the next step runs (log entry 6). -/
def Obligations.StepRunsTheDecodedInstruction : Prop :=
  (∀ (s : State) (f : Format) (w : Nat) (fields : Fields) (draws : Draws) (rest : List Input) (i : Instr),
    s.cfg.wf = true → s.inbox = .request f w fields draws :: rest → decode f w = .ok i →
    (dutyRefusal i { s with fields := fields, draws := draws, inbox := rest } = none →
      step s = exec i { s with fields := fields, draws := draws, inbox := rest }) ∧
    ∀ r, dutyRefusal i { s with fields := fields, draws := draws, inbox := rest } = some r → s.fault = .none →
      step s = .refused r) ∧
  ∀ (s : State) (nbits w : Nat) (i : Instr), s.cfg.wf = true → decodeTableWord nbits w = some i →
    dutyRefusal i s = none → step (s.withFetchWord nbits w) = exec i s

/-- 60_exceptions.md R211, R213, 10_state.md R24: a block whose FAULT is set takes no step (exec then answers the
model's fault `stopped`, log entry 10); and FAULT, once set, changes in no step but reset. -/
def Obligations.FaultedBlockTakesNoStep : Prop :=
  (∀ (i : Instr) (s : State), s.fault ≠ .none → exec i s = .fault (.stopped s.fault)) ∧
  ∀ s t : State, s.fault ≠ .none → step s = .next t → (∀ rest, s.inbox ≠ .reset :: rest) →
    t.fault = s.fault ∧ t.faultInfo = s.faultInfo

/-- 00_scope.md R6: a configuration with ACC_CAP below 2 is refused. -/
def Obligations.SmallAccumulationBufferIsRefused : Prop :=
  ∀ s : State, s.cfg.accCap < 2 → step s = .refused .illFormedConfig

/-- 10_state.md R41, 60_exceptions.md R227: an interrupted read changes no state, and the pump calls `readByte()` again;
with nothing pending the pump waits and all block state survives. -/
def Obligations.InterruptedReadAndWaitChangeNothing : Prop :=
  (∀ (s : State) (rest : List Input), s.cfg.wf = true → s.fault = .none → s.inbox = .interrupted :: rest →
    step s = .next { s with history := s.history ++ [.readByte], inbox := rest }) ∧
  ∀ s : State, s.cfg.wf = true → s.fault = .none → s.inbox = [] → step s = .next s

/-! ## The symbol rows -/

/-- 40_codec.md R104, R105, R106: what each row of the encoder symbol table appends, to which byte; and the example
payload of each rule through ENCODE. That a row runs on its own, on the codec's work area, is the model's choice (log
entry 8). -/
def Obligations.EncoderRowsAppendTheirBytes : Prop :=
  (∀ s : State, s.fault = .none →
    exec .encEnd s = .next { s with codec := { s.codec with out := s.codec.out ++ [0xDB, 0xDC] } } ∧
    exec .encEsc s = .next { s with codec := { s.codec with out := s.codec.out ++ [0xDB, 0xDD] } } ∧
    ∀ b : Byte, exec (.encLit b) s = .next { s with codec := { s.codec with out := s.codec.out ++ [b] } }) ∧
  (∀ b : Byte, b ≠ 0xC0 → b ≠ 0xDB → decodeEncSym b = .encLit b) ∧
  decodeEncSym 0xC0 = .encEnd ∧ decodeEncSym 0xDB = .encEsc ∧
  ∀ s : State, s.fault = .none → 4 ≤ s.fields.dstCap →
    (s.fields.payload = [0xC0] →
      ∃ t, exec .encode s = .next t ∧ t.result = .encoded [0xC0, 0xDB, 0xDC, 0xC0] 4) ∧
    (s.fields.payload = [0xDB] →
      ∃ t, exec .encode s = .next t ∧ t.result = .encoded [0xC0, 0xDB, 0xDD, 0xC0] 4) ∧
    (s.fields.payload = [0x41] → ∃ t, exec .encode s = .next t ∧ t.result = .encoded [0xC0, 0x41, 0xC0] 3)

/-- 40_codec.md R112 to R116: what each row of the decoder symbol table emits and the mode after it, and which key it
takes; in ESCAPED mode END and ESC are emitted as themselves. That a row runs on its own is the model's choice (log
entry 8). -/
def Obligations.DecoderRowsEmitTheirBytes : Prop :=
  (∀ s : State, s.fault = .none →
    exec .decNEnd s = .next { s with codec := { mode := some .normal, out := s.codec.out } } ∧
    exec .decNEsc s = .next { s with codec := { mode := some .escaped, out := s.codec.out } } ∧
    (∀ b : Byte,
      exec (.decNLit b) s = .next { s with codec := { mode := some .normal, out := s.codec.out ++ [b] } }) ∧
    exec .decEEscEnd s = .next { s with codec := { mode := some .normal, out := s.codec.out ++ [0xC0] } } ∧
    exec .decEEscEsc s = .next { s with codec := { mode := some .normal, out := s.codec.out ++ [0xDB] } } ∧
    ∀ b : Byte,
      exec (.decELit b) s = .next { s with codec := { mode := some .normal, out := s.codec.out ++ [b] } }) ∧
  (decodeDecSym false 0xC0 = .decNEnd ∧ decodeDecSym false 0xDB = .decNEsc ∧
    ∀ b : Byte, b ≠ 0xC0 → b ≠ 0xDB → decodeDecSym false b = .decNLit b) ∧
  decodeDecSym true 0xDC = .decEEscEnd ∧ decodeDecSym true 0xDD = .decEEscEsc ∧
    ∀ b : Byte, b ≠ 0xDC → b ≠ 0xDD → decodeDecSym true b = .decELit b

/-- 40_codec.md R118: the end of input in ESCAPED mode emits nothing and, as 10_state.md R26 has it and log entry 9
models it, ends the mode; a DECODE whose input ends in an unpaired ESC gives what it gives without that ESC. -/
def Obligations.TrailingEscapeEmitsNothing : Prop :=
  (∀ s : State, s.fault = .none →
    exec .decEoiEscaped s = .next { s with codec := { mode := none, out := s.codec.out } }) ∧
  ∀ (s : State) (r : List Byte), s.fault = .none → s.fields.raw = r ++ [0xDB] →
    s.fields.raw.length ≤ s.fields.dstCap →
    (Codec.decLoop r { mode := some .normal, out := [] }).mode = some .normal →
    exec .decode s =
      .next { s with
        codec := Codec.rest, status := some .ok, result := .decoded (unescape r) (unescape r).length }

/-- R73, R74, R100, R110: the symbol rows run one by one on the machine build the same bytes ENCODE and DECODE build;
for ENCODE between its delimiters. That rows run one by one is the model's choice (log entry 8). -/
def Obligations.RowByRowRunEqualsTheCodec : Prop :=
  (∀ (p : List Byte) (s : State), s.fault = .none →
    runEncSymbols p s = .next { s with codec := { s.codec with out := s.codec.out ++ p.flatMap escape } }) ∧
  ∀ (r : List Byte) (s : State), s.fault = .none → s.codec.mode = some .normal →
    ∃ m, runDecSymbols r s = .next { s with codec := { mode := some m, out := s.codec.out ++ unescape r } }

/-! ## ENCODE and DECODE -/

/-- 40_codec.md R100: ENCODE with a large enough destination returns the frame and its length and writes nothing else;
the codec's work area, the model's own (log entry 8), is empty afterwards. -/
def Obligations.EncodeReturnsTheFrame : Prop :=
  ∀ s : State, s.fault = .none →
    s.fields.payload.length + 2 + escapes s.fields.payload ≤ s.fields.dstCap →
    exec .encode s =
      .next { s with
        codec := { s.codec with out := [] }
        status := some .ok
        result := .encoded (frameOf s.fields.payload)
          (s.fields.payload.length + 2 + escapes s.fields.payload) }

/-- 40_codec.md R102: with a smaller destination ENCODE raises F_BUFFER_TOO_SMALL with L and the capacity and writes
nothing. -/
def Obligations.EncodeIntoTooSmallABufferFaults : Prop :=
  ∀ s : State, s.fault = .none →
    s.fields.dstCap < s.fields.payload.length + 2 + escapes s.fields.payload →
    exec .encode s =
      .next { s with
        fault := .bufferTooSmall
        faultInfo := .sizes (s.fields.payload.length + 2 + escapes s.fields.payload) s.fields.dstCap
        status := none, result := .none }

/-- 40_codec.md R101: the output length law, of every ENCODE that returns. -/
def Obligations.EncodedLengthLaw : Prop :=
  ∀ (s t : State) (out : List Byte) (l : Nat), exec .encode s = .next t → t.result = .encoded out l →
    out.length = l ∧ l = s.fields.payload.length + 2 + escapes s.fields.payload ∧
    s.fields.payload.length + 2 ≤ l ∧ l ≤ 2 * s.fields.payload.length + 2

/-- 40_codec.md section 1, 30_encoding.md section 1: what ENCODE returns begins and ends with END, holds no other END,
and matches the grammar of the wire. The last two clauses are inferences the spec marks as its own ("derived" in R103
and R71). -/
def Obligations.EncodedFrameIsDelimited : Prop :=
  ∀ (s t : State) (out : List Byte) (l : Nat), exec .encode s = .next t → t.result = .encoded out l →
    WireFrame out ∧ out[0]? = some END ∧ out[l - 1]? = some END ∧
    ∀ i, 0 < i → i < l - 1 → out[i]? ≠ some END

/-- 40_codec.md R110, R111: DECODE with a destination of at least the input's length returns the payload and its
length and writes nothing else; no mode survives it. -/
def Obligations.DecodeReturnsThePayload : Prop :=
  ∀ s : State, s.fault = .none → s.fields.raw.length ≤ s.fields.dstCap →
    exec .decode s =
      .next { s with
        codec := Codec.rest
        status := some .ok
        result := .decoded (unescape s.fields.raw) (unescape s.fields.raw).length }

/-- 40_codec.md R117: with a smaller destination DECODE raises F_DECODE_DST_TOO_SMALL with n and the capacity, whatever
the output would have been, and writes nothing. -/
def Obligations.DecodeIntoTooSmallABufferFaults : Prop :=
  ∀ s : State, s.fault = .none → s.fields.dstCap < s.fields.raw.length →
    exec .decode s =
      .next { s with
        fault := .decodeDstTooSmall
        faultInfo := .sizes s.fields.raw.length s.fields.dstCap
        status := none, result := .none }

/-- 40_codec.md section 2: DECODE returns the number of bytes it wrote, never more than it read. The bound is an
inference the spec marks as its own ("derived" in R119). -/
def Obligations.DecodedLengthIsBounded : Prop :=
  ∀ (s t : State) (out : List Byte) (k : Nat), exec .decode s = .next t → t.result = .decoded out k →
    k = out.length ∧ k ≤ s.fields.raw.length

/-- 40_codec.md sections 1 and 2: what ENCODE returns, given to DECODE with a capacity of its length, gives the payload
back, for every payload and on any two running states. The spec marks this law as its own inference ("derived" in
R120). -/
def Obligations.EncodeThenDecodeRecoversThePayload : Prop :=
  ∀ (s t u : State) (out : List Byte) (l : Nat),
    exec .encode s = .next t → t.result = .encoded out l →
    u.fault = .none → u.fields.raw = out → u.fields.dstCap = l →
    ∃ v, exec .decode u = .next v ∧ v.result = .decoded s.fields.payload s.fields.payload.length

/-! ## FEED -/

/-- 41_reassembler.md R131: with ACC full FEED empties it, reports Overflow and does not store the byte, END or not.
Nothing is said of `receiving`, a mark of the model's own (log entry 33). -/
def Obligations.FeedIntoAFullBufferOverflows : Prop :=
  ∀ (s : State) (b : Byte), s.fault = .none → s.cfg.accCap < s.fill + 1 →
    ∃ r, exec (.feed b) s = .next { s with fill := 0, status := some .overflow, result := .none, receiving := r }

/-- 41_reassembler.md R133: a byte that is not END, or an END with nothing before it, is stored and reported
Incomplete. -/
def Obligations.FeedStoresAByteOfAFrame : Prop :=
  ∀ (s : State) (b : Byte), s.fault = .none → s.fill < s.cfg.accCap → (b ≠ END ∨ s.fill = 0) →
    exec (.feed b) s =
      .next { s with
        acc := Table.insert s.fill b s.acc, fill := s.fill + 1, status := some .incomplete, result := .none }

/-- 41_reassembler.md R132: an END after at least one byte makes a frame of the whole span; the length is at least 2
and at most ACC_CAP, and FILL is 0 afterwards. That start is always 0 is an inference the spec marks as its own
("derived" in R132). Nothing is said of `receiving`, a mark of the model's own (log entry 33). -/
def Obligations.FeedOfEndCompletesTheFrame : Prop :=
  ∀ (s : State) (bs : List Byte), s.fault = .none → s.fill < s.cfg.accCap → 0 < s.fill →
    Holds s.acc 0 bs → bs.length = s.fill →
    (∃ r, exec (.feed END) s =
      .next { s with
        acc := Table.insert s.fill END s.acc, fill := 0, status := some .frameReady
        result := .frame 0 (s.fill + 1) (bs ++ [END]), receiving := r }) ∧
    2 ≤ s.fill + 1 ∧ s.fill + 1 ≤ s.cfg.accCap

/-- 10_state.md R22: after a FEED that stores, the bytes below FILL are those stored before and the new one. -/
def Obligations.StoredBytesAreTheFedBytes : Prop :=
  ∀ (s t : State) (b : Byte) (bs : List Byte), Holds s.acc 0 bs → bs.length = s.fill →
    exec (.feed b) s = .next t →
    (t.fill = 0 ∨ t.fill = s.fill + 1) ∧
    (s.fill < s.cfg.accCap → Holds t.acc 0 (bs ++ [b])) ∧ (t.fill ≠ 0 → s.fill < s.cfg.accCap)

/-- 41_reassembler.md: an encoded frame fed from FILL = 0 is reported FrameReady, intact, exactly when it fits ACC. The
spec marks this as its own inference ("derived" in R138). -/
def Obligations.EncodedFrameIsReassembledExactlyWhenItFits : Prop :=
  ∀ (s : State) (p : List Byte), s.fault = .none → s.fill = 0 →
    ((∃ t, feedAll (frameOf p) s = .next t ∧ t.status = some .frameReady ∧
        t.result = .frame 0 (frameOf p).length (frameOf p)) ↔
      p.length + 2 + escapes p ≤ s.cfg.accCap)

/-- 70_reset_and_hazards.md R255: after an Overflow the bytes up to the next END make a frame of their own, without the
dropped byte. The spec marks the rule as its own inference ("derived" in 41_reassembler.md R135). -/
def Obligations.TailAfterOverflowIsAFrame : Prop :=
  ∀ (s : State) (b : Byte) (bs : List Byte), s.fault = .none → s.fill = s.cfg.accCap →
    bs ≠ [] → END ∉ bs → bs.length < s.cfg.accCap →
    ∃ t, feedAll (b :: (bs ++ [END])) s = .next t ∧ t.status = some .frameReady ∧
      t.result = .frame 0 (bs.length + 1) (bs ++ [END]) ∧ t.fill = 0 ∧ t.lostRx = s.lostRx

/-- 41_reassembler.md R136: a direct FEED and FEED inside RX_BYTE do the same to ACC and FILL. -/
def Obligations.FeedInsideRxByteIsTheSameFeed : Prop :=
  ∀ (s t u : State) (b : Byte), exec (.feed b) s = .next t → exec (.rxByte b) s = .next u →
    u.acc = t.acc ∧ u.fill = t.fill ∧ t.lostRx = s.lostRx ∧ t.history = s.history

/-! ## RX_BYTE -/

/-- 42_receive_pump.md R152: Incomplete: nothing but FEED's own writes, and the pump reads the next byte. Nothing is
said of `receiving`, a mark of the model's own (log entry 33). -/
def Obligations.RxByteInsideAFrameOnlyStores : Prop :=
  ∀ (s : State) (b : Byte), s.fault = .none → s.held = none → s.fill < s.cfg.accCap → (b ≠ END ∨ s.fill = 0) →
    ∃ r, exec (.rxByte b) s =
      .next { s with
        acc := Table.insert s.fill b s.acc, fill := s.fill + 1
        pumpPhase := .waitByte, status := some .incomplete, result := .none
        history := s.history ++ [.readByte], receiving := r }

/-- 42_receive_pump.md R153: Overflow: LOST_RX goes up by one, modulo 2^32, and no buffer is acquired or released.
Nothing is said of `receiving`, a mark of the model's own (log entry 33). -/
def Obligations.RxByteOverflowIsCounted : Prop :=
  ∀ (s : State) (b : Byte), s.fault = .none → s.held = none → s.cfg.accCap < s.fill + 1 →
    ∃ r, exec (.rxByte b) s =
      .next { s with
        fill := 0, lostRx := s.lostRx + 1
        pumpPhase := .waitByte, status := some .overflow, result := .none
        history := s.history ++ [.readByte], receiving := r }

/-- 42_receive_pump.md R154: on FrameReady the pump asks for a buffer of the raw frame's length; when there is none,
LOST_RX goes up by one, nothing is released and the frame is dropped. Nothing is said of `receiving`, a mark of the
model's own (log entry 33). -/
def Obligations.RxByteWithoutABufferIsCounted : Prop :=
  ∀ s : State, s.fault = .none → s.held = none → 0 < s.fill → s.fill < s.cfg.accCap → s.draws.acquire = none →
    ∃ r, exec (.rxByte END) s =
      .next { s with
        acc := Table.insert s.fill END s.acc, fill := 0, lostRx := s.lostRx + 1
        pumpPhase := .waitByte, status := some .poolExhausted, result := .none
        history := s.history ++ [.acquire (s.fill + 1) none, .readByte], receiving := r }

/-- 42_receive_pump.md R157: the filter is asked first and the checksum only if it accepts; if either rejects, the
buffer is released, LOST_RX stays, and nothing is held. -/
def Obligations.RxByteRejectedFrameIsReleasedUncounted : Prop :=
  ∀ (s : State) (bs : List Byte) (h : Handle) (c : Nat), FrameArrives s bs h c →
    (s.draws.filter = .reject →
      ∃ t, exec (.rxByte END) s = .next t ∧ FrameTaken s t bs h c ∧ t.status = some .filteredOut ∧
        t.lostRx = s.lostRx ∧ lifeOf t h = .released ∧
        t.history = s.history ++ [.acquire (s.fill + 1) (some (h, c)),
          .filter h (unescape (bs ++ [END])).length .reject, .release h, .readByte]) ∧
    (s.draws.filter = .accept → s.draws.checksum = .invalid →
      ∃ t, exec (.rxByte END) s = .next t ∧ FrameTaken s t bs h c ∧ t.status = some .checksumInvalid ∧
        t.lostRx = s.lostRx ∧ lifeOf t h = .released ∧
        t.history = s.history ++ [.acquire (s.fill + 1) (some (h, c)),
          .filter h (unescape (bs ++ [END])).length .accept,
          .checksum h (unescape (bs ++ [END])).length .invalid, .release h, .readByte])

/-- 42_receive_pump.md R155, R156, R158: a frame that passes both checks and that the consumer takes is decoded into
the buffer, offered with its decoded length (an empty one too, as the spec infers in R156), and handed off: never
released, nothing held, LOST_RX as it was. -/
def Obligations.RxByteDeliversAFrame : Prop :=
  ∀ (s : State) (bs : List Byte) (h : Handle) (c : Nat), FrameArrives s bs h c →
    s.draws.filter = .accept → s.draws.checksum = .valid → s.draws.ingest = .ok →
      ∃ t, exec (.rxByte END) s = .next t ∧ FrameTaken s t bs h c ∧ t.status = some .delivered ∧
        t.lostRx = s.lostRx ∧ lifeOf t h = .handedOff ∧
        t.history = s.history ++ [.acquire (s.fill + 1) (some (h, c)),
          .filter h (unescape (bs ++ [END])).length .accept,
          .checksum h (unescape (bs ++ [END])).length .valid,
          .ingest h (unescape (bs ++ [END])).length .ok, .readByte]

/-- 42_receive_pump.md R159: a frame the consumer refuses is released and counted. -/
def Obligations.RxByteRefusedFrameIsReleasedAndCounted : Prop :=
  ∀ (s : State) (bs : List Byte) (h : Handle) (c : Nat), FrameArrives s bs h c →
    s.draws.filter = .accept → s.draws.checksum = .valid → s.draws.ingest = .fail →
      ∃ t, exec (.rxByte END) s = .next t ∧ FrameTaken s t bs h c ∧ t.status = some .ingestionRejected ∧
        t.lostRx = s.lostRx + 1 ∧ lifeOf t h = .released ∧
        t.history = s.history ++ [.acquire (s.fill + 1) (some (h, c)),
          .filter h (unescape (bs ++ [END])).length .accept,
          .checksum h (unescape (bs ++ [END])).length .valid,
          .ingest h (unescape (bs ++ [END])).length .fail, .release h, .readByte]

/-- 42_receive_pump.md R162: a pool that gives too small a buffer: F_DECODE_DST_TOO_SMALL before any write, the block
stopped holding the buffer, no release and no further `readByte()`. -/
def Obligations.RxByteTooSmallABufferFaultsHoldingIt : Prop :=
  ∀ (s : State) (bs : List Byte) (h : Handle) (c : Nat), SpanReady s bs → s.draws.acquire = some (h, c) →
    c < s.fill + 1 →
      ∃ t, exec (.rxByte END) s = .next t ∧ t.fault = .decodeDstTooSmall ∧ t.faultInfo = .sizes (s.fill + 1) c ∧
        t.status = none ∧ t.held = some h ∧ lifeOf t h = .ownedByBlock ∧ t.fill = 0 ∧ t.lostRx = s.lostRx ∧
        (∀ i, i < c → readByteOf t (.pkt h) i = readByteOf s (.pkt h) i) ∧
        t.history = s.history ++ [.acquire (s.fill + 1) (some (h, c))] ∧
        t.acc = Table.insert s.fill END s.acc ∧ t.scratch = s.scratch ∧ t.codec = s.codec ∧ t.td = s.td ∧
        t.inflight = s.inflight ∧ t.wire = s.wire ∧
        ∀ h', h' ≠ h → lifeOf t h' = lifeOf s h' ∧ ownerOf t h' = ownerOf s h' ∧
          ∀ i, readByteOf t (.pkt h') i = readByteOf s (.pkt h') i

/-- 42_receive_pump.md R160: in every RX_BYTE that does not fault at most one `acquire` succeeds, each buffer acquired
is released or handed off exactly once, and nothing is held at the end. The spec infers the rule from R154 to R159. -/
def Obligations.RxByteReleasesOrHandsOffExactlyOnce : Prop :=
  ∀ (s t : State) (b : Byte), exec (.rxByte b) s = .next t → t.fault = .none →
    t.held = none ∧
    ∃ calls, t.history = s.history ++ calls ∧ calls.countP isAcquired ≤ 1 ∧
      ∀ h : Handle,
        calls.countP (fun c => match c with | .acquire _ (some (h', _)) => h' == h | _ => false) =
          calls.countP (fun c => c == .release h) +
          calls.countP (fun c => match c with | .ingest h' _ .ok => h' == h | _ => false)

/-- 42_receive_pump.md R164, R150: the calls of one RX_BYTE that does not fault, in their order: one of the six
branches, `readByte` last. -/
def Obligations.RxByteCallsStandInOrder : Prop :=
  ∀ (s t : State) (b : Byte), exec (.rxByte b) s = .next t → t.fault = .none →
    ∃ calls, t.history = s.history ++ calls ∧
      (calls = [.readByte] ∨
      (∃ n, calls = [.acquire n none, .readByte]) ∨
      ∃ n h c k,
        calls = [.acquire n (some (h, c)), .filter h k .reject, .release h, .readByte] ∨
        calls = [.acquire n (some (h, c)), .filter h k .accept, .checksum h k .invalid, .release h, .readByte] ∨
        calls = [.acquire n (some (h, c)), .filter h k .accept, .checksum h k .valid, .ingest h k .ok, .readByte] ∨
        calls = [.acquire n (some (h, c)), .filter h k .accept, .checksum h k .valid, .ingest h k .fail, .release h,
          .readByte])

/-! ## SEND, the transport and READ_STATUS -/

/-- 43_transmit.md R183, R184, R186: SEND with the link up encodes the payload into SCRATCH, submits it, and gives the
buffer back as REL says; the packet buffer itself is not written. -/
def Obligations.SendWithTheLinkUpSubmitsTheFrame : Prop :=
  ∀ (s : State) (rel : Bool) (p : List Byte), s.fault = .none → s.fields.n ≤ s.cfg.maxTxPayload →
    blockHolds s s.fields.h = false → s.draws.linkUp = true → p.length = s.fields.n →
    s.fields.n ≤ capOf s s.fields.h → PacketReads s s.fields.h p →
    ∃ t, exec (.send rel) s = .next t ∧ SendFrame s t s.fields.h ∧ t.status = some .sent ∧ t.result = .none ∧
      t.codec.out = [] ∧
      Holds t.scratch 0 (frameOf p) ∧
      (∀ i, (frameOf p).length ≤ i → Table.lookup i t.scratch = Table.lookup i s.scratch) ∧
      t.td = { s.td with len := (frameOf p).length, pending := s.td.pending + 1, src := .scratch } ∧
      t.inflight = (if s.cfg.txCopyAtSubmit then s.inflight else s.inflight.map (overwriteTransfer (frameOf p))) ++
        [{ cand := (frameOf p).map fun b => [b] }] ∧
      lifeOf t s.fields.h = (if rel then .released else .untracked) ∧
      t.history = s.history ++ [.queryLinkUp true, .submitWrite (frameOf p)] ++
        (if rel then [.release s.fields.h] else [])

/-- 43_transmit.md R185: with the link down SEND asks once, writes no byte, changes no TD field, submits nothing, and
gives the buffer back as REL says. -/
def Obligations.SendWithTheLinkDownWritesNothing : Prop :=
  ∀ (s : State) (rel : Bool), s.fault = .none → s.fields.n ≤ s.cfg.maxTxPayload →
    blockHolds s s.fields.h = false → s.draws.linkUp = false →
    ∃ t, exec (.send rel) s = .next t ∧ SendFrame s t s.fields.h ∧ t.status = some .linkDown ∧ t.result = .none ∧
      t.codec = s.codec ∧ t.scratch = s.scratch ∧ t.td = s.td ∧ t.inflight = s.inflight ∧
      lifeOf t s.fields.h = (if rel then .released else .untracked) ∧
      t.history = s.history ++ [.queryLinkUp false] ++ (if rel then [.release s.fields.h] else [])

/-- 43_transmit.md R182: a payload over MAX_TX_PAYLOAD raises F_BUFFER_TOO_SMALL with 2n+2 and SCRATCH_CAP before any
state changes. -/
def Obligations.SendOfTooLongAPayloadFaults : Prop :=
  ∀ (s : State) (rel : Bool), s.fault = .none → s.cfg.maxTxPayload < s.fields.n →
    exec (.send rel) s =
      .next { s with
        fault := .bufferTooSmall
        faultInfo := .sizes (2 * s.fields.n + 2) (2 * s.cfg.maxTxPayload + 2)
        status := none, result := .none }

/-- 43_transmit.md R187, 20_memory.md R52: a SEND of a buffer the block itself holds is a lifecycle violation and does
nothing else; a caller that breaks its duty n <= cap(h) makes SEND read outside the buffer: F_LIFECYCLE_VIOLATION at
the first such index, nothing encoded and nothing submitted (the model's reading, log entry 16). -/
def Obligations.SendOfTheWrongBufferFaults : Prop :=
  (∀ (s : State) (rel : Bool), s.fault = .none → s.fields.n ≤ s.cfg.maxTxPayload →
    (lifeOf s s.fields.h = .ownedByBlock ∨ lifeOf s s.fields.h = .borrowed) →
    exec (.send rel) s =
      .next { s with
        fault := .lifecycleViolation, faultInfo := .handle s.fields.h, status := none, result := .none }) ∧
  ∀ (s : State) (rel : Bool), s.fault = .none → s.fields.n ≤ s.cfg.maxTxPayload →
    blockHolds s s.fields.h = false → s.draws.linkUp = true → capOf s s.fields.h < s.fields.n →
    ∃ t, exec (.send rel) s = .next t ∧ t.fault = .lifecycleViolation ∧
      t.faultInfo = .access (.pkt s.fields.h) (capOf s s.fields.h) ∧ t.status = none ∧ t.result = .none ∧
      t.scratch = s.scratch ∧ t.td = s.td ∧ t.inflight = s.inflight ∧ t.pkt = s.pkt ∧ t.caps = s.caps ∧
      t.acc = s.acc ∧ t.fill = s.fill ∧ t.lostRx = s.lostRx ∧ t.codec = s.codec ∧ t.held = s.held ∧
      (∀ h', h' ≠ s.fields.h → lifeOf t h' = lifeOf s h' ∧ ownerOf t h' = ownerOf s h') ∧
      t.history = s.history ++ [.queryLinkUp true]

/-- 43_transmit.md R188: every SEND that does not fault returns success: EV_SENT with the link up, EV_LINK_DOWN with
the link down. -/
def Obligations.SendThatDoesNotFaultSucceeds : Prop :=
  ∀ (s t : State) (rel : Bool), exec (.send rel) s = .next t → t.fault = .none →
    t.status = some (if s.draws.linkUp then .sent else .linkDown)

/-- 10_state.md R45, 43_transmit.md R189, 70_reset_and_hazards.md R242: a completion event writes TD_STATUS, takes one
from TD_PENDING down to 0 at least, also in a stopped block (log entry 19), and touches nothing else of the block. The
list of transfers and the wire are the model's own (log entry 18). That a status word wider than W_STATUS bits is cut to
them is the model's choice (log entry 31): the spec does not describe one. -/
def Obligations.CompletionWritesOnlyStatusAndPending : Prop :=
  ∀ (s : State) (which v : Nat) (picks : List Nat) (rest : List Input), s.cfg.wf = true →
    s.inbox = .complete which v picks :: rest →
    ∃ t, step s = .next t ∧
      t = { s with td := t.td, inflight := t.inflight, wire := t.wire, inbox := rest } ∧
      t.td = { s.td with status := v % 2 ^ s.cfg.wStatus, pending := max (s.td.pending - 1) 0 } ∧
      t.inflight = s.inflight.eraseIdx which

/-- 70_reset_and_hazards.md R252: each wire byte of a completed transfer is one of the values the transport may have
read there, in the model's lists of transfers (log entry 18; for a transfer submitted before a reset, log entry 34). -/
def Obligations.WireBytesAreAmongTheirCandidates : Prop :=
  ∀ (s t : State) (which v : Nat) (picks : List Nat) (rest : List Input) (x : Transfer), s.cfg.wf = true →
    s.inbox = .complete which v picks :: rest → s.inflight[which]? = some x → (∀ c ∈ x.cand, c ≠ []) →
    step s = .next t →
    ∃ bytes : List Byte, t.wire = s.wire ++ [bytes] ∧ bytes.length = x.cand.length ∧
      ∀ (j : Nat) (b : Byte), bytes[j]? = some b → ∃ c : List Byte, x.cand[j]? = some c ∧ b ∈ c

/-- 70_reset_and_hazards.md R252: a SEND while an earlier transfer is pending leaves it alone where the transport has
its copy; where it has not, each byte that SCRATCH's new frame covers may be the earlier value or the new one, and
the others stay. The lists of values are the model's own (log entry 18; after a reset, log entry 34). -/
def Obligations.ScratchReuseRacesByteByByte : Prop :=
  ∀ (s : State) (rel : Bool) (p : List Byte) (k : Nat) (x : Transfer), s.fault = .none →
    s.fields.n ≤ s.cfg.maxTxPayload → blockHolds s s.fields.h = false → s.draws.linkUp = true →
    p.length = s.fields.n → s.fields.n ≤ capOf s s.fields.h → PacketReads s s.fields.h p →
    s.inflight[k]? = some x →
    ∃ (t : State) (y : Transfer), exec (.send rel) s = .next t ∧ t.inflight[k]? = some y ∧
      (s.cfg.txCopyAtSubmit = true → y = x) ∧
      (s.cfg.txCopyAtSubmit = false → y.cand.length = x.cand.length ∧
        ∀ (j : Nat) (c : List Byte), x.cand[j]? = some c →
          (∀ b, (frameOf p)[j]? = some b → y.cand[j]? = some (c ++ [b])) ∧
          ((frameOf p)[j]? = none → y.cand[j]? = some c))

/-- 60_exceptions.md R230: READ_STATUS returns FILL, LOST_RX, FAULT and TD_PENDING and writes nothing else; right after
reset they are (0, 0, F_NONE, 0); after a fatal fault it cannot run (log entry 10). -/
def Obligations.ReadStatusReturnsTheBlockStatus : Prop :=
  (∀ s : State, s.fault = .none →
    exec .readStatus s =
      .next { s with status := some .ok, result := .block s.fill s.lostRx s.fault s.td.pending }) ∧
  (∀ c : Config, ∃ t, exec .readStatus (State.resetWith c) = .next t ∧ t.result = .block 0 0 .none 0) ∧
  ∀ s : State, s.fault ≠ .none → exec .readStatus s = .fault (.stopped s.fault)

/-! ## Rules of the whole machine -/

/-- 30_encoding.md R85, 60_exceptions.md R200, R211: every transaction that does not fault ends with exactly one event
code, one its row of R85 names; one that faults ends with none. -/
def Obligations.TransactionEndsInOneEventOrOneFault : Prop :=
  ∀ (i : Instr) (s t : State), isTransaction i = true → exec i s = .next t →
    (t.fault = .none ∧ ∃ e, t.status = some e ∧ mayReport i e = true) ∨
    (t.fault ≠ .none ∧ t.faultInfo ≠ .none ∧ t.status = none ∧ t.result = .none)

/-- 10_state.md R23: LOST_RX goes up by one, modulo 2^32, in an RX_BYTE that ends in Overflow, PoolExhausted or
IngestionRejected, and in no other instruction. The premise is the pump's invariant, stated above. -/
def Obligations.LostRxCountsThreeConditionsOfRxByte : Prop :=
  ∀ (i : Instr) (s t : State), s.held = none → exec i s = .next t →
    t.lostRx = s.lostRx +
      (if (∃ b, i = .rxByte b) ∧ (∃ e, t.status = some e ∧ isLost e = true) then 1 else 0)

/-- 20_memory.md R51, R53, 10_state.md R20, R25: ACC is written by FEED and RX_BYTE only, SCRATCH by SEND only, and a
packet buffer by RX_BYTE only, and then the one just acquired. -/
def Obligations.EachSpaceIsWrittenByItsOwnOperationOnly : Prop :=
  ∀ (i : Instr) (s t : State), exec i s = .next t →
    (t.acc = s.acc ∨ ∃ b, i = .feed b ∨ i = .rxByte b) ∧
    (t.scratch = s.scratch ∨ ∃ rel, i = .send rel) ∧
    ∀ h, (∀ j, readByteOf t (.pkt h) j = readByteOf s (.pkt h) j) ∨
      ∃ b c, i = .rxByte b ∧ s.draws.acquire = some (h, c)

/-- 42_receive_pump.md R158, 70_reset_and_hazards.md R254: a buffer that was handed off is neither written nor called
about nor changed in the ledger, until the pool gives it again or a caller sends it. -/
def Obligations.HandedOffBufferIsLeftAlone : Prop :=
  ∀ (i : Instr) (s t : State) (h : Handle), exec i s = .next t → lifeOf s h = .handedOff →
    (∀ b c, i = .rxByte b → s.draws.acquire ≠ some (h, c)) → (∀ rel, i = .send rel → s.fields.h ≠ h) →
    lifeOf t h = .handedOff ∧ (∀ j, readByteOf t (.pkt h) j = readByteOf s (.pkt h) j) ∧
    ∃ calls, t.history = s.history ++ calls ∧
      ∀ c ∈ calls, c ≠ .release h ∧ ∀ k, (∀ a, c ≠ .filter h k a) ∧ (∀ a, c ≠ .checksum h k a) ∧
        ∀ a, c ≠ .ingest h k a

/-- 10_state.md R31, 20_memory.md R63: no instruction reads or writes TD_STATUS: run with another word in the cell, it
does the same and leaves that word there. -/
def Obligations.NoInstructionReadsOrWritesTdStatus : Prop :=
  ∀ (i : Instr) (s : State) (v : Nat), exec i (withStatus v s) = mapNext (withStatus v) (exec i s)

/-! ## The duties of the host and the collaborators -/

/-- 70_reset_and_hazards.md R245, 93_implementation_defined.md I21: the model gives no meaning to a run in which the pool
hands out a buffer that someone owns, or in which an agent sends, writes or releases a buffer that is not its own (owners
by the model's ledger, log entries 20 and 32); which breaches are refused is log entry 15. A claim assumes the duties:
in a state that meets the invariants, an instruction that breaks none of them completes and raises no
F_LIFECYCLE_VIOLATION, and an RX_BYTE that breaks none raises no fault at all (60_exceptions.md R202, R203). -/
def Obligations.BrokenDutiesAreRefusedAndDutifulRunsComplete : Prop :=
  (∀ (s : State) (fields : Fields) (draws : Draws) (rest : List Input) (h : Handle) (c : Nat), s.cfg.wf = true →
    s.fault = .none → s.inbox = .request .rxPort END.toNat fields draws :: rest → 0 < s.fill →
    s.fill < s.cfg.accCap → draws.acquire = some (h, c) → allocated s h = true →
    step s = .refused (.handleOwned h)) ∧
  (∀ (s : State) (rel : Bool) (fields : Fields) (draws : Draws) (rest : List Input), s.cfg.wf = true →
    s.fault = .none → s.inbox = .request .cmd (encode (.send rel)).2 fields draws :: rest →
    ownerOf s fields.h = some .pool → blockHolds s fields.h = false → step s = .refused (.notTheOwner fields.h)) ∧
  (∀ (s : State) (h : Handle) (cap : Nat) (rest : List Input), s.cfg.wf = true → s.inbox = .poolGives h cap :: rest →
    allocated s h = true → step s = .refused (.handleOwned h)) ∧
  (∀ (s : State) (h : Handle) (bytes : List Byte) (rest : List Input), s.cfg.wf = true →
    s.inbox = .ownerWrite h bytes :: rest ∨ s.inbox = .ownerRelease h :: rest →
    ownerOf s h = some .block ∨ ownerOf s h = some .pool → step s = .refused (.notTheOwner h)) ∧
  ∀ (i : Instr) (s : State), MemoryInv s → PumpInv s → s.fault = .none → brokenDuties i s = [] →
    dutyRefusal i s = none ∧
    ∃ t, exec i s = .next t ∧ t.fault ≠ .lifecycleViolation ∧ ((∃ b, i = .rxByte b) → t.fault = .none)
end

