-- ==== Sys2Proof/Laws/Mem.lean ====
section
/-! SUPPORT. The laws of the canonical tables: what a lookup finds after an insertion, an erasure or a cut, and that
each of them keeps the canonical form, in which equal contents are equal data. -/

namespace Sys2Proof.Machine

variable {α : Type}

@[simp] theorem lookup_nil (k : Nat) : Table.lookup k ([] : List (Nat × α)) = none := rfl

theorem lookup_cons (k j : Nat) (a : α) (t : List (Nat × α)) :
    Table.lookup k ((j, a) :: t) = if j = k then some a else Table.lookup k t := rfl

/-- A lookup after an insertion. -/
theorem lookup_insert (j k : Nat) (a : α) (t : List (Nat × α)) :
    Table.lookup j (Table.insert k a t) = if k = j then some a else Table.lookup j t := by
  induction t with
  | nil => rfl
  | cons p t ih =>
    obtain ⟨i, b⟩ := p
    unfold Table.insert
    split
    · simp [lookup_cons]
    · split
      · next _ hk =>
        subst hk
        simp only [lookup_cons]
        split <;> rfl
      · next _ hne =>
        simp only [lookup_cons, ih]
        split
        · next hi => rw [if_neg (by omega)]
        · rfl

@[simp] theorem lookup_insert_self (k : Nat) (a : α) (t : List (Nat × α)) :
    Table.lookup k (Table.insert k a t) = some a := by simp [lookup_insert]

theorem lookup_insert_ne {j k : Nat} (h : j ≠ k) (a : α) (t : List (Nat × α)) :
    Table.lookup j (Table.insert k a t) = Table.lookup j t := by simp [lookup_insert, Ne.symm h]

/-- A lookup after keeping the numbers that satisfy `q`. -/
theorem lookup_filter (q : Nat → Bool) (j : Nat) (t : List (Nat × α)) :
    Table.lookup j (t.filter fun p => q p.1) = if q j then Table.lookup j t else none := by
  induction t with
  | nil => simp
  | cons p t ih =>
    obtain ⟨i, b⟩ := p
    rw [List.filter_cons]
    by_cases hi : i = j
    · subst hi; by_cases hq : q i <;> simp [hq, lookup_cons, ih]
    · by_cases hq : q i <;> simp [hq, lookup_cons, ih, hi]

/-- A lookup after an erasure. -/
theorem lookup_erase (j k : Nat) (t : List (Nat × α)) :
    Table.lookup j (Table.erase k t) = if k = j then none else Table.lookup j t := by
  rw [Table.erase, lookup_filter (fun i => i != k)]
  by_cases h : j = k
  · simp [h]
  · simp [h, Ne.symm h]

/-- A lookup after a cut. -/
theorem lookup_below (j n : Nat) (t : List (Nat × α)) :
    Table.lookup j (Table.below n t) = if j < n then Table.lookup j t else none := by
  rw [Table.below, lookup_filter (fun i => decide (i < n))]
  simp

/-- What an insertion leaves in the table. -/
theorem mem_insert {p : Nat × α} {k : Nat} {a : α} {t : List (Nat × α)} (h : p ∈ Table.insert k a t) :
    p = (k, a) ∨ p ∈ t := by
  induction t with
  | nil => exact .inl (by simpa [Table.insert] using h)
  | cons q t ih =>
    obtain ⟨i, b⟩ := q
    unfold Table.insert at h
    split at h
    · simpa using h
    · split at h
      · simp only [List.mem_cons] at h ⊢; tauto
      · simp only [List.mem_cons] at h ⊢
        rcases h with h | h
        · exact .inr (.inl h)
        · rcases ih h with h | h <;> tauto

/-- A found entry stands in the table. -/
theorem mem_of_lookup {k : Nat} {a : α} {t : List (Nat × α)} (h : Table.lookup k t = some a) : (k, a) ∈ t := by
  induction t with
  | nil => simp at h
  | cons q t ih =>
    obtain ⟨i, b⟩ := q
    rw [lookup_cons] at h
    split at h
    · next hi => obtain rfl : b = a := by simpa using h
                 simp [hi]
    · exact List.mem_cons_of_mem _ (ih h)

theorem rising_cons {k : Nat} {a : α} {t : List (Nat × α)} :
    Table.Rising ((k, a) :: t) ↔ (∀ p ∈ t, k < p.1) ∧ Table.Rising t := by
  simp [Table.Rising]

/-- In a rising table an entry that stands there is found. -/
theorem lookup_of_mem {k : Nat} {a : α} {t : List (Nat × α)} (hr : Table.Rising t) (h : (k, a) ∈ t) :
    Table.lookup k t = some a := by
  induction t with
  | nil => simp at h
  | cons q t ih =>
    obtain ⟨i, b⟩ := q
    rw [rising_cons] at hr
    rw [lookup_cons]
    rcases List.mem_cons.mp h with h | h
    · simp_all
    · have := hr.1 _ h
      rw [if_neg (by simp at this; omega), ih hr.2 h]

/-- An insertion keeps the canonical form. -/
theorem rising_insert (k : Nat) (a : α) {t : List (Nat × α)} (hr : Table.Rising t) :
    Table.Rising (Table.insert k a t) := by
  induction t with
  | nil => simp [Table.insert, Table.Rising]
  | cons q t ih =>
    obtain ⟨i, b⟩ := q
    have hr' := hr
    rw [rising_cons] at hr
    unfold Table.insert
    split
    · next hk =>
      rw [rising_cons]
      refine ⟨fun p hp => ?_, hr'⟩
      rcases List.mem_cons.mp hp with rfl | hp
      · exact hk
      · exact hk.trans (hr.1 p hp)
    · split
      · next _ hk => subst hk; rw [rising_cons]; exact hr
      · next h1 h2 =>
        rw [rising_cons]
        refine ⟨fun p hp => ?_, ih hr.2⟩
        rcases mem_insert hp with rfl | hp
        · show i < k; omega
        · exact hr.1 p hp

theorem rising_filter (q : Nat × α → Bool) {t : List (Nat × α)} (hr : Table.Rising t) :
    Table.Rising (t.filter q) := by
  unfold Table.Rising at *
  exact hr.sublist (List.filter_sublist.map _)

/-- An erasure keeps the canonical form. -/
theorem rising_erase (k : Nat) {t : List (Nat × α)} (hr : Table.Rising t) : Table.Rising (Table.erase k t) :=
  rising_filter _ hr

/-- A cut keeps the canonical form. -/
theorem rising_below (n : Nat) {t : List (Nat × α)} (hr : Table.Rising t) : Table.Rising (Table.below n t) :=
  rising_filter _ hr

/-- In the canonical form equal contents are equal data. -/
theorem rising_ext {t u : List (Nat × α)} (ht : Table.Rising t) (hu : Table.Rising u)
    (h : ∀ k, Table.lookup k t = Table.lookup k u) : t = u := by
  induction t generalizing u with
  | nil =>
    cases u with
    | nil => rfl
    | cons q u => obtain ⟨j, b⟩ := q; have := h j; simp [lookup_cons] at this
  | cons p t ih =>
    obtain ⟨i, a⟩ := p
    cases u with
    | nil => have := h i; simp [lookup_cons] at this
    | cons q u =>
      obtain ⟨j, b⟩ := q
      have ht' := rising_cons.mp ht
      have hu' := rising_cons.mp hu
      have hij : i = j := by
        by_contra hne
        have h1 := h i
        have h2 := h j
        rw [lookup_cons, lookup_cons, if_pos rfl, if_neg (Ne.symm hne)] at h1
        rw [lookup_cons, lookup_cons, if_pos rfl, if_neg hne] at h2
        have m1 := hu'.1 _ (mem_of_lookup h1.symm)
        have m2 := ht'.1 _ (mem_of_lookup h2)
        simp at m1 m2; omega
      subst hij
      have hab : a = b := by have := h i; simpa [lookup_cons] using this
      subst hab
      congr 1
      refine ih ht'.2 hu'.2 fun k => ?_
      have := h k
      rw [lookup_cons, lookup_cons] at this
      split at this
      · next hk =>
        subst hk
        have n1 : Table.lookup i t = none := by
          cases hl : Table.lookup i t with
          | none => rfl
          | some x => exact absurd (ht'.1 _ (mem_of_lookup hl)) (by simp)
        have n2 : Table.lookup i u = none := by
          cases hl : Table.lookup i u with
          | none => rfl
          | some x => exact absurd (hu'.1 _ (mem_of_lookup hl)) (by simp)
        rw [n1, n2]
      · exact this

/-- A write inside the space keeps its canonical form. -/
theorem wf_insert {size i : Nat} {m : Memory} (b : Byte) (hi : i < size) (hm : Memory.wf size m) :
    Memory.wf size (Table.insert i b m) := by
  refine ⟨rising_insert _ _ hm.1, fun p hp => ?_⟩
  rcases mem_insert hp with rfl | hp
  · exact hi
  · exact hm.2 p hp

/-- A cut to the size of the space gives the canonical form of that size. -/
theorem wf_below {m : Memory} (n : Nat) (hm : Table.Rising m) : Memory.wf n (Table.below n m) :=
  ⟨rising_below n hm, fun p hp => by simpa using (List.mem_filter.mp hp).2⟩

theorem insert_ne_nil (k : Nat) (a : α) (t : List (Nat × α)) : Table.insert k a t ≠ [] := by
  cases t with
  | nil => simp [Table.insert]
  | cons q t =>
    obtain ⟨i, b⟩ := q
    unfold Table.insert
    split
    · simp
    · split <;> simp

end Sys2Proof.Machine
end

