-- ==== Sys2Proof/Laws/State.lean ====
section
/-! SUPPORT. One lemma per field and named update of the state: what the update writes, and that it writes nothing
else. -/

namespace Sys2Proof.Machine


/-! ### countLost -/

@[simp] theorem countLost_cfg (s : State) :
    (countLost s).cfg = s.cfg := rfl
@[simp] theorem countLost_acc (s : State) :
    (countLost s).acc = s.acc := rfl
@[simp] theorem countLost_fill (s : State) :
    (countLost s).fill = s.fill := rfl
@[simp] theorem countLost_receiving (s : State) :
    (countLost s).receiving = s.receiving := rfl
@[simp] theorem countLost_lostRx (s : State) :
    (countLost s).lostRx = s.lostRx + 1 := rfl
@[simp] theorem countLost_fault (s : State) :
    (countLost s).fault = s.fault := rfl
@[simp] theorem countLost_faultInfo (s : State) :
    (countLost s).faultInfo = s.faultInfo := rfl
@[simp] theorem countLost_scratch (s : State) :
    (countLost s).scratch = s.scratch := rfl
@[simp] theorem countLost_codec (s : State) :
    (countLost s).codec = s.codec := rfl
@[simp] theorem countLost_pumpPhase (s : State) :
    (countLost s).pumpPhase = s.pumpPhase := rfl
@[simp] theorem countLost_held (s : State) :
    (countLost s).held = s.held := rfl
@[simp] theorem countLost_life (s : State) :
    (countLost s).life = s.life := rfl
@[simp] theorem countLost_owner (s : State) :
    (countLost s).owner = s.owner := rfl
@[simp] theorem countLost_td (s : State) :
    (countLost s).td = s.td := rfl
@[simp] theorem countLost_pkt (s : State) :
    (countLost s).pkt = s.pkt := rfl
@[simp] theorem countLost_caps (s : State) :
    (countLost s).caps = s.caps := rfl
@[simp] theorem countLost_status (s : State) :
    (countLost s).status = s.status := rfl
@[simp] theorem countLost_result (s : State) :
    (countLost s).result = s.result := rfl
@[simp] theorem countLost_history (s : State) :
    (countLost s).history = s.history := rfl
@[simp] theorem countLost_inflight (s : State) :
    (countLost s).inflight = s.inflight := rfl
@[simp] theorem countLost_wire (s : State) :
    (countLost s).wire = s.wire := rfl
@[simp] theorem countLost_fields (s : State) :
    (countLost s).fields = s.fields := rfl
@[simp] theorem countLost_draws (s : State) :
    (countLost s).draws = s.draws := rfl
@[simp] theorem countLost_inbox (s : State) :
    (countLost s).inbox = s.inbox := rfl

/-! ### startTransaction -/

@[simp] theorem startTransaction_cfg (s : State) :
    (startTransaction s).cfg = s.cfg := rfl
@[simp] theorem startTransaction_acc (s : State) :
    (startTransaction s).acc = s.acc := rfl
@[simp] theorem startTransaction_fill (s : State) :
    (startTransaction s).fill = s.fill := rfl
@[simp] theorem startTransaction_receiving (s : State) :
    (startTransaction s).receiving = s.receiving := rfl
@[simp] theorem startTransaction_lostRx (s : State) :
    (startTransaction s).lostRx = s.lostRx := rfl
@[simp] theorem startTransaction_fault (s : State) :
    (startTransaction s).fault = s.fault := rfl
@[simp] theorem startTransaction_faultInfo (s : State) :
    (startTransaction s).faultInfo = s.faultInfo := rfl
@[simp] theorem startTransaction_scratch (s : State) :
    (startTransaction s).scratch = s.scratch := rfl
@[simp] theorem startTransaction_codec (s : State) :
    (startTransaction s).codec = s.codec := rfl
@[simp] theorem startTransaction_pumpPhase (s : State) :
    (startTransaction s).pumpPhase = s.pumpPhase := rfl
@[simp] theorem startTransaction_held (s : State) :
    (startTransaction s).held = s.held := rfl
@[simp] theorem startTransaction_life (s : State) :
    (startTransaction s).life = s.life := rfl
@[simp] theorem startTransaction_owner (s : State) :
    (startTransaction s).owner = s.owner := rfl
@[simp] theorem startTransaction_td (s : State) :
    (startTransaction s).td = s.td := rfl
@[simp] theorem startTransaction_pkt (s : State) :
    (startTransaction s).pkt = s.pkt := rfl
@[simp] theorem startTransaction_caps (s : State) :
    (startTransaction s).caps = s.caps := rfl
@[simp] theorem startTransaction_status (s : State) :
    (startTransaction s).status = none := rfl
@[simp] theorem startTransaction_result (s : State) :
    (startTransaction s).result = .none := rfl
@[simp] theorem startTransaction_history (s : State) :
    (startTransaction s).history = s.history := rfl
@[simp] theorem startTransaction_inflight (s : State) :
    (startTransaction s).inflight = s.inflight := rfl
@[simp] theorem startTransaction_wire (s : State) :
    (startTransaction s).wire = s.wire := rfl
@[simp] theorem startTransaction_fields (s : State) :
    (startTransaction s).fields = s.fields := rfl
@[simp] theorem startTransaction_draws (s : State) :
    (startTransaction s).draws = s.draws := rfl
@[simp] theorem startTransaction_inbox (s : State) :
    (startTransaction s).inbox = s.inbox := rfl

/-! ### recordFault -/

@[simp] theorem recordFault_cfg (f : FaultCode) (info : FaultInfo) (s : State) :
    (recordFault f info s).cfg = s.cfg := by
  unfold recordFault; split <;> rfl
@[simp] theorem recordFault_acc (f : FaultCode) (info : FaultInfo) (s : State) :
    (recordFault f info s).acc = s.acc := by
  unfold recordFault; split <;> rfl
@[simp] theorem recordFault_fill (f : FaultCode) (info : FaultInfo) (s : State) :
    (recordFault f info s).fill = s.fill := by
  unfold recordFault; split <;> rfl
@[simp] theorem recordFault_receiving (f : FaultCode) (info : FaultInfo) (s : State) :
    (recordFault f info s).receiving = s.receiving := by
  unfold recordFault; split <;> rfl
@[simp] theorem recordFault_lostRx (f : FaultCode) (info : FaultInfo) (s : State) :
    (recordFault f info s).lostRx = s.lostRx := by
  unfold recordFault; split <;> rfl
@[simp] theorem recordFault_scratch (f : FaultCode) (info : FaultInfo) (s : State) :
    (recordFault f info s).scratch = s.scratch := by
  unfold recordFault; split <;> rfl
@[simp] theorem recordFault_codec (f : FaultCode) (info : FaultInfo) (s : State) :
    (recordFault f info s).codec = s.codec := by
  unfold recordFault; split <;> rfl
@[simp] theorem recordFault_pumpPhase (f : FaultCode) (info : FaultInfo) (s : State) :
    (recordFault f info s).pumpPhase = s.pumpPhase := by
  unfold recordFault; split <;> rfl
@[simp] theorem recordFault_held (f : FaultCode) (info : FaultInfo) (s : State) :
    (recordFault f info s).held = s.held := by
  unfold recordFault; split <;> rfl
@[simp] theorem recordFault_life (f : FaultCode) (info : FaultInfo) (s : State) :
    (recordFault f info s).life = s.life := by
  unfold recordFault; split <;> rfl
@[simp] theorem recordFault_owner (f : FaultCode) (info : FaultInfo) (s : State) :
    (recordFault f info s).owner = s.owner := by
  unfold recordFault; split <;> rfl
@[simp] theorem recordFault_td (f : FaultCode) (info : FaultInfo) (s : State) :
    (recordFault f info s).td = s.td := by
  unfold recordFault; split <;> rfl
@[simp] theorem recordFault_pkt (f : FaultCode) (info : FaultInfo) (s : State) :
    (recordFault f info s).pkt = s.pkt := by
  unfold recordFault; split <;> rfl
@[simp] theorem recordFault_caps (f : FaultCode) (info : FaultInfo) (s : State) :
    (recordFault f info s).caps = s.caps := by
  unfold recordFault; split <;> rfl
@[simp] theorem recordFault_status (f : FaultCode) (info : FaultInfo) (s : State) :
    (recordFault f info s).status = s.status := by
  unfold recordFault; split <;> rfl
@[simp] theorem recordFault_result (f : FaultCode) (info : FaultInfo) (s : State) :
    (recordFault f info s).result = s.result := by
  unfold recordFault; split <;> rfl
@[simp] theorem recordFault_history (f : FaultCode) (info : FaultInfo) (s : State) :
    (recordFault f info s).history = s.history := by
  unfold recordFault; split <;> rfl
@[simp] theorem recordFault_inflight (f : FaultCode) (info : FaultInfo) (s : State) :
    (recordFault f info s).inflight = s.inflight := by
  unfold recordFault; split <;> rfl
@[simp] theorem recordFault_wire (f : FaultCode) (info : FaultInfo) (s : State) :
    (recordFault f info s).wire = s.wire := by
  unfold recordFault; split <;> rfl
@[simp] theorem recordFault_fields (f : FaultCode) (info : FaultInfo) (s : State) :
    (recordFault f info s).fields = s.fields := by
  unfold recordFault; split <;> rfl
@[simp] theorem recordFault_draws (f : FaultCode) (info : FaultInfo) (s : State) :
    (recordFault f info s).draws = s.draws := by
  unfold recordFault; split <;> rfl
@[simp] theorem recordFault_inbox (f : FaultCode) (info : FaultInfo) (s : State) :
    (recordFault f info s).inbox = s.inbox := by
  unfold recordFault; split <;> rfl

/-! ### setLife -/

@[simp] theorem setLife_cfg (h : Handle) (v : Life) (s : State) :
    (setLife h v s).cfg = s.cfg := rfl
@[simp] theorem setLife_acc (h : Handle) (v : Life) (s : State) :
    (setLife h v s).acc = s.acc := rfl
@[simp] theorem setLife_fill (h : Handle) (v : Life) (s : State) :
    (setLife h v s).fill = s.fill := rfl
@[simp] theorem setLife_receiving (h : Handle) (v : Life) (s : State) :
    (setLife h v s).receiving = s.receiving := rfl
@[simp] theorem setLife_lostRx (h : Handle) (v : Life) (s : State) :
    (setLife h v s).lostRx = s.lostRx := rfl
@[simp] theorem setLife_fault (h : Handle) (v : Life) (s : State) :
    (setLife h v s).fault = s.fault := rfl
@[simp] theorem setLife_faultInfo (h : Handle) (v : Life) (s : State) :
    (setLife h v s).faultInfo = s.faultInfo := rfl
@[simp] theorem setLife_scratch (h : Handle) (v : Life) (s : State) :
    (setLife h v s).scratch = s.scratch := rfl
@[simp] theorem setLife_codec (h : Handle) (v : Life) (s : State) :
    (setLife h v s).codec = s.codec := rfl
@[simp] theorem setLife_pumpPhase (h : Handle) (v : Life) (s : State) :
    (setLife h v s).pumpPhase = s.pumpPhase := rfl
@[simp] theorem setLife_held (h : Handle) (v : Life) (s : State) :
    (setLife h v s).held = s.held := rfl
@[simp] theorem setLife_life (h : Handle) (v : Life) (s : State) :
    (setLife h v s).life = if v = .untracked then Table.erase h s.life else Table.insert h v s.life := rfl
@[simp] theorem setLife_owner (h : Handle) (v : Life) (s : State) :
    (setLife h v s).owner = Table.insert h (ownerAfter v) s.owner := rfl
@[simp] theorem setLife_td (h : Handle) (v : Life) (s : State) :
    (setLife h v s).td = s.td := rfl
@[simp] theorem setLife_pkt (h : Handle) (v : Life) (s : State) :
    (setLife h v s).pkt = s.pkt := rfl
@[simp] theorem setLife_caps (h : Handle) (v : Life) (s : State) :
    (setLife h v s).caps = s.caps := rfl
@[simp] theorem setLife_status (h : Handle) (v : Life) (s : State) :
    (setLife h v s).status = s.status := rfl
@[simp] theorem setLife_result (h : Handle) (v : Life) (s : State) :
    (setLife h v s).result = s.result := rfl
@[simp] theorem setLife_history (h : Handle) (v : Life) (s : State) :
    (setLife h v s).history = s.history := rfl
@[simp] theorem setLife_inflight (h : Handle) (v : Life) (s : State) :
    (setLife h v s).inflight = s.inflight := rfl
@[simp] theorem setLife_wire (h : Handle) (v : Life) (s : State) :
    (setLife h v s).wire = s.wire := rfl
@[simp] theorem setLife_fields (h : Handle) (v : Life) (s : State) :
    (setLife h v s).fields = s.fields := rfl
@[simp] theorem setLife_draws (h : Handle) (v : Life) (s : State) :
    (setLife h v s).draws = s.draws := rfl
@[simp] theorem setLife_inbox (h : Handle) (v : Life) (s : State) :
    (setLife h v s).inbox = s.inbox := rfl

/-! ### setSpaceMem -/

@[simp] theorem setSpaceMem_cfg (sp : Space) (m : Memory) (s : State) :
    (setSpaceMem sp m s).cfg = s.cfg := by
  cases sp <;> rfl
@[simp] theorem setSpaceMem_fill (sp : Space) (m : Memory) (s : State) :
    (setSpaceMem sp m s).fill = s.fill := by
  cases sp <;> rfl
@[simp] theorem setSpaceMem_receiving (sp : Space) (m : Memory) (s : State) :
    (setSpaceMem sp m s).receiving = s.receiving := by
  cases sp <;> rfl
@[simp] theorem setSpaceMem_lostRx (sp : Space) (m : Memory) (s : State) :
    (setSpaceMem sp m s).lostRx = s.lostRx := by
  cases sp <;> rfl
@[simp] theorem setSpaceMem_fault (sp : Space) (m : Memory) (s : State) :
    (setSpaceMem sp m s).fault = s.fault := by
  cases sp <;> rfl
@[simp] theorem setSpaceMem_faultInfo (sp : Space) (m : Memory) (s : State) :
    (setSpaceMem sp m s).faultInfo = s.faultInfo := by
  cases sp <;> rfl
@[simp] theorem setSpaceMem_codec (sp : Space) (m : Memory) (s : State) :
    (setSpaceMem sp m s).codec = s.codec := by
  cases sp <;> rfl
@[simp] theorem setSpaceMem_pumpPhase (sp : Space) (m : Memory) (s : State) :
    (setSpaceMem sp m s).pumpPhase = s.pumpPhase := by
  cases sp <;> rfl
@[simp] theorem setSpaceMem_held (sp : Space) (m : Memory) (s : State) :
    (setSpaceMem sp m s).held = s.held := by
  cases sp <;> rfl
@[simp] theorem setSpaceMem_life (sp : Space) (m : Memory) (s : State) :
    (setSpaceMem sp m s).life = s.life := by
  cases sp <;> rfl
@[simp] theorem setSpaceMem_owner (sp : Space) (m : Memory) (s : State) :
    (setSpaceMem sp m s).owner = s.owner := by
  cases sp <;> rfl
@[simp] theorem setSpaceMem_td (sp : Space) (m : Memory) (s : State) :
    (setSpaceMem sp m s).td = s.td := by
  cases sp <;> rfl
@[simp] theorem setSpaceMem_caps (sp : Space) (m : Memory) (s : State) :
    (setSpaceMem sp m s).caps = s.caps := by
  cases sp <;> rfl
@[simp] theorem setSpaceMem_status (sp : Space) (m : Memory) (s : State) :
    (setSpaceMem sp m s).status = s.status := by
  cases sp <;> rfl
@[simp] theorem setSpaceMem_result (sp : Space) (m : Memory) (s : State) :
    (setSpaceMem sp m s).result = s.result := by
  cases sp <;> rfl
@[simp] theorem setSpaceMem_history (sp : Space) (m : Memory) (s : State) :
    (setSpaceMem sp m s).history = s.history := by
  cases sp <;> rfl
@[simp] theorem setSpaceMem_inflight (sp : Space) (m : Memory) (s : State) :
    (setSpaceMem sp m s).inflight = s.inflight := by
  cases sp <;> rfl
@[simp] theorem setSpaceMem_wire (sp : Space) (m : Memory) (s : State) :
    (setSpaceMem sp m s).wire = s.wire := by
  cases sp <;> rfl
@[simp] theorem setSpaceMem_fields (sp : Space) (m : Memory) (s : State) :
    (setSpaceMem sp m s).fields = s.fields := by
  cases sp <;> rfl
@[simp] theorem setSpaceMem_draws (sp : Space) (m : Memory) (s : State) :
    (setSpaceMem sp m s).draws = s.draws := by
  cases sp <;> rfl
@[simp] theorem setSpaceMem_inbox (sp : Space) (m : Memory) (s : State) :
    (setSpaceMem sp m s).inbox = s.inbox := by
  cases sp <;> rfl

/-! ### setCap -/

@[simp] theorem setCap_cfg (h : Handle) (c : Nat) (s : State) :
    (setCap h c s).cfg = s.cfg := rfl
@[simp] theorem setCap_acc (h : Handle) (c : Nat) (s : State) :
    (setCap h c s).acc = s.acc := rfl
@[simp] theorem setCap_fill (h : Handle) (c : Nat) (s : State) :
    (setCap h c s).fill = s.fill := rfl
@[simp] theorem setCap_receiving (h : Handle) (c : Nat) (s : State) :
    (setCap h c s).receiving = s.receiving := rfl
@[simp] theorem setCap_lostRx (h : Handle) (c : Nat) (s : State) :
    (setCap h c s).lostRx = s.lostRx := rfl
@[simp] theorem setCap_fault (h : Handle) (c : Nat) (s : State) :
    (setCap h c s).fault = s.fault := rfl
@[simp] theorem setCap_faultInfo (h : Handle) (c : Nat) (s : State) :
    (setCap h c s).faultInfo = s.faultInfo := rfl
@[simp] theorem setCap_scratch (h : Handle) (c : Nat) (s : State) :
    (setCap h c s).scratch = s.scratch := rfl
@[simp] theorem setCap_codec (h : Handle) (c : Nat) (s : State) :
    (setCap h c s).codec = s.codec := rfl
@[simp] theorem setCap_pumpPhase (h : Handle) (c : Nat) (s : State) :
    (setCap h c s).pumpPhase = s.pumpPhase := rfl
@[simp] theorem setCap_held (h : Handle) (c : Nat) (s : State) :
    (setCap h c s).held = s.held := rfl
@[simp] theorem setCap_life (h : Handle) (c : Nat) (s : State) :
    (setCap h c s).life = s.life := rfl
@[simp] theorem setCap_owner (h : Handle) (c : Nat) (s : State) :
    (setCap h c s).owner = s.owner := rfl
@[simp] theorem setCap_td (h : Handle) (c : Nat) (s : State) :
    (setCap h c s).td = s.td := rfl
@[simp] theorem setCap_caps (h : Handle) (c : Nat) (s : State) :
    (setCap h c s).caps = Table.insert h c s.caps := rfl
@[simp] theorem setCap_status (h : Handle) (c : Nat) (s : State) :
    (setCap h c s).status = s.status := rfl
@[simp] theorem setCap_result (h : Handle) (c : Nat) (s : State) :
    (setCap h c s).result = s.result := rfl
@[simp] theorem setCap_history (h : Handle) (c : Nat) (s : State) :
    (setCap h c s).history = s.history := rfl
@[simp] theorem setCap_inflight (h : Handle) (c : Nat) (s : State) :
    (setCap h c s).inflight = s.inflight := rfl
@[simp] theorem setCap_wire (h : Handle) (c : Nat) (s : State) :
    (setCap h c s).wire = s.wire := rfl
@[simp] theorem setCap_fields (h : Handle) (c : Nat) (s : State) :
    (setCap h c s).fields = s.fields := rfl
@[simp] theorem setCap_draws (h : Handle) (c : Nat) (s : State) :
    (setCap h c s).draws = s.draws := rfl
@[simp] theorem setCap_inbox (h : Handle) (c : Nat) (s : State) :
    (setCap h c s).inbox = s.inbox := rfl

/-! ### record -/

@[simp] theorem record_cfg (c : Call) (s : State) :
    (record c s).cfg = s.cfg := rfl
@[simp] theorem record_acc (c : Call) (s : State) :
    (record c s).acc = s.acc := rfl
@[simp] theorem record_fill (c : Call) (s : State) :
    (record c s).fill = s.fill := rfl
@[simp] theorem record_receiving (c : Call) (s : State) :
    (record c s).receiving = s.receiving := rfl
@[simp] theorem record_lostRx (c : Call) (s : State) :
    (record c s).lostRx = s.lostRx := rfl
@[simp] theorem record_fault (c : Call) (s : State) :
    (record c s).fault = s.fault := rfl
@[simp] theorem record_faultInfo (c : Call) (s : State) :
    (record c s).faultInfo = s.faultInfo := rfl
@[simp] theorem record_scratch (c : Call) (s : State) :
    (record c s).scratch = s.scratch := rfl
@[simp] theorem record_codec (c : Call) (s : State) :
    (record c s).codec = s.codec := rfl
@[simp] theorem record_pumpPhase (c : Call) (s : State) :
    (record c s).pumpPhase = s.pumpPhase := rfl
@[simp] theorem record_held (c : Call) (s : State) :
    (record c s).held = s.held := rfl
@[simp] theorem record_life (c : Call) (s : State) :
    (record c s).life = s.life := rfl
@[simp] theorem record_owner (c : Call) (s : State) :
    (record c s).owner = s.owner := rfl
@[simp] theorem record_td (c : Call) (s : State) :
    (record c s).td = s.td := rfl
@[simp] theorem record_pkt (c : Call) (s : State) :
    (record c s).pkt = s.pkt := rfl
@[simp] theorem record_caps (c : Call) (s : State) :
    (record c s).caps = s.caps := rfl
@[simp] theorem record_status (c : Call) (s : State) :
    (record c s).status = s.status := rfl
@[simp] theorem record_result (c : Call) (s : State) :
    (record c s).result = s.result := rfl
@[simp] theorem record_history (c : Call) (s : State) :
    (record c s).history = s.history ++ [c] := rfl
@[simp] theorem record_inflight (c : Call) (s : State) :
    (record c s).inflight = s.inflight := rfl
@[simp] theorem record_wire (c : Call) (s : State) :
    (record c s).wire = s.wire := rfl
@[simp] theorem record_fields (c : Call) (s : State) :
    (record c s).fields = s.fields := rfl
@[simp] theorem record_draws (c : Call) (s : State) :
    (record c s).draws = s.draws := rfl
@[simp] theorem record_inbox (c : Call) (s : State) :
    (record c s).inbox = s.inbox := rfl

/-! ### setPhase -/

@[simp] theorem setPhase_cfg (p : PumpPhase) (s : State) :
    (setPhase p s).cfg = s.cfg := rfl
@[simp] theorem setPhase_acc (p : PumpPhase) (s : State) :
    (setPhase p s).acc = s.acc := rfl
@[simp] theorem setPhase_fill (p : PumpPhase) (s : State) :
    (setPhase p s).fill = s.fill := rfl
@[simp] theorem setPhase_receiving (p : PumpPhase) (s : State) :
    (setPhase p s).receiving = s.receiving := rfl
@[simp] theorem setPhase_lostRx (p : PumpPhase) (s : State) :
    (setPhase p s).lostRx = s.lostRx := rfl
@[simp] theorem setPhase_fault (p : PumpPhase) (s : State) :
    (setPhase p s).fault = s.fault := rfl
@[simp] theorem setPhase_faultInfo (p : PumpPhase) (s : State) :
    (setPhase p s).faultInfo = s.faultInfo := rfl
@[simp] theorem setPhase_scratch (p : PumpPhase) (s : State) :
    (setPhase p s).scratch = s.scratch := rfl
@[simp] theorem setPhase_codec (p : PumpPhase) (s : State) :
    (setPhase p s).codec = s.codec := rfl
@[simp] theorem setPhase_pumpPhase (p : PumpPhase) (s : State) :
    (setPhase p s).pumpPhase = p := rfl
@[simp] theorem setPhase_held (p : PumpPhase) (s : State) :
    (setPhase p s).held = s.held := rfl
@[simp] theorem setPhase_life (p : PumpPhase) (s : State) :
    (setPhase p s).life = s.life := rfl
@[simp] theorem setPhase_owner (p : PumpPhase) (s : State) :
    (setPhase p s).owner = s.owner := rfl
@[simp] theorem setPhase_td (p : PumpPhase) (s : State) :
    (setPhase p s).td = s.td := rfl
@[simp] theorem setPhase_pkt (p : PumpPhase) (s : State) :
    (setPhase p s).pkt = s.pkt := rfl
@[simp] theorem setPhase_caps (p : PumpPhase) (s : State) :
    (setPhase p s).caps = s.caps := rfl
@[simp] theorem setPhase_status (p : PumpPhase) (s : State) :
    (setPhase p s).status = s.status := rfl
@[simp] theorem setPhase_result (p : PumpPhase) (s : State) :
    (setPhase p s).result = s.result := rfl
@[simp] theorem setPhase_history (p : PumpPhase) (s : State) :
    (setPhase p s).history = s.history := rfl
@[simp] theorem setPhase_inflight (p : PumpPhase) (s : State) :
    (setPhase p s).inflight = s.inflight := rfl
@[simp] theorem setPhase_wire (p : PumpPhase) (s : State) :
    (setPhase p s).wire = s.wire := rfl
@[simp] theorem setPhase_fields (p : PumpPhase) (s : State) :
    (setPhase p s).fields = s.fields := rfl
@[simp] theorem setPhase_draws (p : PumpPhase) (s : State) :
    (setPhase p s).draws = s.draws := rfl
@[simp] theorem setPhase_inbox (p : PumpPhase) (s : State) :
    (setPhase p s).inbox = s.inbox := rfl

/-! ### acceptRequest -/

@[simp] theorem acceptRequest_cfg (fs : Fields) (ds : Draws) (rest : List Input) (s : State) :
    (acceptRequest fs ds rest s).cfg = s.cfg := rfl
@[simp] theorem acceptRequest_acc (fs : Fields) (ds : Draws) (rest : List Input) (s : State) :
    (acceptRequest fs ds rest s).acc = s.acc := rfl
@[simp] theorem acceptRequest_fill (fs : Fields) (ds : Draws) (rest : List Input) (s : State) :
    (acceptRequest fs ds rest s).fill = s.fill := rfl
@[simp] theorem acceptRequest_receiving (fs : Fields) (ds : Draws) (rest : List Input) (s : State) :
    (acceptRequest fs ds rest s).receiving = s.receiving := rfl
@[simp] theorem acceptRequest_lostRx (fs : Fields) (ds : Draws) (rest : List Input) (s : State) :
    (acceptRequest fs ds rest s).lostRx = s.lostRx := rfl
@[simp] theorem acceptRequest_fault (fs : Fields) (ds : Draws) (rest : List Input) (s : State) :
    (acceptRequest fs ds rest s).fault = s.fault := rfl
@[simp] theorem acceptRequest_faultInfo (fs : Fields) (ds : Draws) (rest : List Input) (s : State) :
    (acceptRequest fs ds rest s).faultInfo = s.faultInfo := rfl
@[simp] theorem acceptRequest_scratch (fs : Fields) (ds : Draws) (rest : List Input) (s : State) :
    (acceptRequest fs ds rest s).scratch = s.scratch := rfl
@[simp] theorem acceptRequest_codec (fs : Fields) (ds : Draws) (rest : List Input) (s : State) :
    (acceptRequest fs ds rest s).codec = s.codec := rfl
@[simp] theorem acceptRequest_pumpPhase (fs : Fields) (ds : Draws) (rest : List Input) (s : State) :
    (acceptRequest fs ds rest s).pumpPhase = s.pumpPhase := rfl
@[simp] theorem acceptRequest_held (fs : Fields) (ds : Draws) (rest : List Input) (s : State) :
    (acceptRequest fs ds rest s).held = s.held := rfl
@[simp] theorem acceptRequest_life (fs : Fields) (ds : Draws) (rest : List Input) (s : State) :
    (acceptRequest fs ds rest s).life = s.life := rfl
@[simp] theorem acceptRequest_owner (fs : Fields) (ds : Draws) (rest : List Input) (s : State) :
    (acceptRequest fs ds rest s).owner = s.owner := rfl
@[simp] theorem acceptRequest_td (fs : Fields) (ds : Draws) (rest : List Input) (s : State) :
    (acceptRequest fs ds rest s).td = s.td := rfl
@[simp] theorem acceptRequest_pkt (fs : Fields) (ds : Draws) (rest : List Input) (s : State) :
    (acceptRequest fs ds rest s).pkt = s.pkt := rfl
@[simp] theorem acceptRequest_caps (fs : Fields) (ds : Draws) (rest : List Input) (s : State) :
    (acceptRequest fs ds rest s).caps = s.caps := rfl
@[simp] theorem acceptRequest_status (fs : Fields) (ds : Draws) (rest : List Input) (s : State) :
    (acceptRequest fs ds rest s).status = s.status := rfl
@[simp] theorem acceptRequest_result (fs : Fields) (ds : Draws) (rest : List Input) (s : State) :
    (acceptRequest fs ds rest s).result = s.result := rfl
@[simp] theorem acceptRequest_history (fs : Fields) (ds : Draws) (rest : List Input) (s : State) :
    (acceptRequest fs ds rest s).history = s.history := rfl
@[simp] theorem acceptRequest_inflight (fs : Fields) (ds : Draws) (rest : List Input) (s : State) :
    (acceptRequest fs ds rest s).inflight = s.inflight := rfl
@[simp] theorem acceptRequest_wire (fs : Fields) (ds : Draws) (rest : List Input) (s : State) :
    (acceptRequest fs ds rest s).wire = s.wire := rfl
@[simp] theorem acceptRequest_fields (fs : Fields) (ds : Draws) (rest : List Input) (s : State) :
    (acceptRequest fs ds rest s).fields = fs := rfl
@[simp] theorem acceptRequest_draws (fs : Fields) (ds : Draws) (rest : List Input) (s : State) :
    (acceptRequest fs ds rest s).draws = ds := rfl
@[simp] theorem acceptRequest_inbox (fs : Fields) (ds : Draws) (rest : List Input) (s : State) :
    (acceptRequest fs ds rest s).inbox = rest := rfl

/-! ### takeBuffer -/

@[simp] theorem takeBuffer_cfg (h : Handle) (c : Nat) (s : State) :
    (takeBuffer h c s).cfg = s.cfg := rfl
@[simp] theorem takeBuffer_acc (h : Handle) (c : Nat) (s : State) :
    (takeBuffer h c s).acc = s.acc := rfl
@[simp] theorem takeBuffer_fill (h : Handle) (c : Nat) (s : State) :
    (takeBuffer h c s).fill = s.fill := rfl
@[simp] theorem takeBuffer_receiving (h : Handle) (c : Nat) (s : State) :
    (takeBuffer h c s).receiving = s.receiving := rfl
@[simp] theorem takeBuffer_lostRx (h : Handle) (c : Nat) (s : State) :
    (takeBuffer h c s).lostRx = s.lostRx := rfl
@[simp] theorem takeBuffer_fault (h : Handle) (c : Nat) (s : State) :
    (takeBuffer h c s).fault = s.fault := rfl
@[simp] theorem takeBuffer_faultInfo (h : Handle) (c : Nat) (s : State) :
    (takeBuffer h c s).faultInfo = s.faultInfo := rfl
@[simp] theorem takeBuffer_scratch (h : Handle) (c : Nat) (s : State) :
    (takeBuffer h c s).scratch = s.scratch := rfl
@[simp] theorem takeBuffer_codec (h : Handle) (c : Nat) (s : State) :
    (takeBuffer h c s).codec = s.codec := rfl
@[simp] theorem takeBuffer_pumpPhase (h : Handle) (c : Nat) (s : State) :
    (takeBuffer h c s).pumpPhase = s.pumpPhase := rfl
@[simp] theorem takeBuffer_held (h : Handle) (c : Nat) (s : State) :
    (takeBuffer h c s).held = some h := rfl
@[simp] theorem takeBuffer_life (h : Handle) (c : Nat) (s : State) :
    (takeBuffer h c s).life = Table.insert h .ownedByBlock s.life := rfl
@[simp] theorem takeBuffer_owner (h : Handle) (c : Nat) (s : State) :
    (takeBuffer h c s).owner = Table.insert h .block s.owner := rfl
@[simp] theorem takeBuffer_td (h : Handle) (c : Nat) (s : State) :
    (takeBuffer h c s).td = s.td := rfl
@[simp] theorem takeBuffer_caps (h : Handle) (c : Nat) (s : State) :
    (takeBuffer h c s).caps = Table.insert h c s.caps := rfl
@[simp] theorem takeBuffer_status (h : Handle) (c : Nat) (s : State) :
    (takeBuffer h c s).status = s.status := rfl
@[simp] theorem takeBuffer_result (h : Handle) (c : Nat) (s : State) :
    (takeBuffer h c s).result = s.result := rfl
@[simp] theorem takeBuffer_history (h : Handle) (c : Nat) (s : State) :
    (takeBuffer h c s).history = s.history := rfl
@[simp] theorem takeBuffer_inflight (h : Handle) (c : Nat) (s : State) :
    (takeBuffer h c s).inflight = s.inflight := rfl
@[simp] theorem takeBuffer_wire (h : Handle) (c : Nat) (s : State) :
    (takeBuffer h c s).wire = s.wire := rfl
@[simp] theorem takeBuffer_fields (h : Handle) (c : Nat) (s : State) :
    (takeBuffer h c s).fields = s.fields := rfl
@[simp] theorem takeBuffer_draws (h : Handle) (c : Nat) (s : State) :
    (takeBuffer h c s).draws = s.draws := rfl
@[simp] theorem takeBuffer_inbox (h : Handle) (c : Nat) (s : State) :
    (takeBuffer h c s).inbox = s.inbox := rfl

/-! ### setOwner -/

@[simp] theorem setOwner_cfg (h : Handle) (o : Owner) (s : State) :
    (setOwner h o s).cfg = s.cfg := rfl
@[simp] theorem setOwner_acc (h : Handle) (o : Owner) (s : State) :
    (setOwner h o s).acc = s.acc := rfl
@[simp] theorem setOwner_fill (h : Handle) (o : Owner) (s : State) :
    (setOwner h o s).fill = s.fill := rfl
@[simp] theorem setOwner_receiving (h : Handle) (o : Owner) (s : State) :
    (setOwner h o s).receiving = s.receiving := rfl
@[simp] theorem setOwner_lostRx (h : Handle) (o : Owner) (s : State) :
    (setOwner h o s).lostRx = s.lostRx := rfl
@[simp] theorem setOwner_fault (h : Handle) (o : Owner) (s : State) :
    (setOwner h o s).fault = s.fault := rfl
@[simp] theorem setOwner_faultInfo (h : Handle) (o : Owner) (s : State) :
    (setOwner h o s).faultInfo = s.faultInfo := rfl
@[simp] theorem setOwner_scratch (h : Handle) (o : Owner) (s : State) :
    (setOwner h o s).scratch = s.scratch := rfl
@[simp] theorem setOwner_codec (h : Handle) (o : Owner) (s : State) :
    (setOwner h o s).codec = s.codec := rfl
@[simp] theorem setOwner_pumpPhase (h : Handle) (o : Owner) (s : State) :
    (setOwner h o s).pumpPhase = s.pumpPhase := rfl
@[simp] theorem setOwner_held (h : Handle) (o : Owner) (s : State) :
    (setOwner h o s).held = s.held := rfl
@[simp] theorem setOwner_life (h : Handle) (o : Owner) (s : State) :
    (setOwner h o s).life = s.life := rfl
@[simp] theorem setOwner_owner (h : Handle) (o : Owner) (s : State) :
    (setOwner h o s).owner = Table.insert h o s.owner := rfl
@[simp] theorem setOwner_td (h : Handle) (o : Owner) (s : State) :
    (setOwner h o s).td = s.td := rfl
@[simp] theorem setOwner_pkt (h : Handle) (o : Owner) (s : State) :
    (setOwner h o s).pkt = s.pkt := rfl
@[simp] theorem setOwner_caps (h : Handle) (o : Owner) (s : State) :
    (setOwner h o s).caps = s.caps := rfl
@[simp] theorem setOwner_status (h : Handle) (o : Owner) (s : State) :
    (setOwner h o s).status = s.status := rfl
@[simp] theorem setOwner_result (h : Handle) (o : Owner) (s : State) :
    (setOwner h o s).result = s.result := rfl
@[simp] theorem setOwner_history (h : Handle) (o : Owner) (s : State) :
    (setOwner h o s).history = s.history := rfl
@[simp] theorem setOwner_inflight (h : Handle) (o : Owner) (s : State) :
    (setOwner h o s).inflight = s.inflight := rfl
@[simp] theorem setOwner_wire (h : Handle) (o : Owner) (s : State) :
    (setOwner h o s).wire = s.wire := rfl
@[simp] theorem setOwner_fields (h : Handle) (o : Owner) (s : State) :
    (setOwner h o s).fields = s.fields := rfl
@[simp] theorem setOwner_draws (h : Handle) (o : Owner) (s : State) :
    (setOwner h o s).draws = s.draws := rfl
@[simp] theorem setOwner_inbox (h : Handle) (o : Owner) (s : State) :
    (setOwner h o s).inbox = s.inbox := rfl

/-! ### markReceiving -/

@[simp] theorem markReceiving_cfg (s : State) :
    (markReceiving s).cfg = s.cfg := rfl
@[simp] theorem markReceiving_acc (s : State) :
    (markReceiving s).acc = s.acc := rfl
@[simp] theorem markReceiving_fill (s : State) :
    (markReceiving s).fill = s.fill := rfl
@[simp] theorem markReceiving_receiving (s : State) :
    (markReceiving s).receiving = true := rfl
@[simp] theorem markReceiving_lostRx (s : State) :
    (markReceiving s).lostRx = s.lostRx := rfl
@[simp] theorem markReceiving_fault (s : State) :
    (markReceiving s).fault = s.fault := rfl
@[simp] theorem markReceiving_faultInfo (s : State) :
    (markReceiving s).faultInfo = s.faultInfo := rfl
@[simp] theorem markReceiving_scratch (s : State) :
    (markReceiving s).scratch = s.scratch := rfl
@[simp] theorem markReceiving_codec (s : State) :
    (markReceiving s).codec = s.codec := rfl
@[simp] theorem markReceiving_pumpPhase (s : State) :
    (markReceiving s).pumpPhase = s.pumpPhase := rfl
@[simp] theorem markReceiving_held (s : State) :
    (markReceiving s).held = s.held := rfl
@[simp] theorem markReceiving_life (s : State) :
    (markReceiving s).life = s.life := rfl
@[simp] theorem markReceiving_owner (s : State) :
    (markReceiving s).owner = s.owner := rfl
@[simp] theorem markReceiving_td (s : State) :
    (markReceiving s).td = s.td := rfl
@[simp] theorem markReceiving_pkt (s : State) :
    (markReceiving s).pkt = s.pkt := rfl
@[simp] theorem markReceiving_caps (s : State) :
    (markReceiving s).caps = s.caps := rfl
@[simp] theorem markReceiving_status (s : State) :
    (markReceiving s).status = s.status := rfl
@[simp] theorem markReceiving_result (s : State) :
    (markReceiving s).result = s.result := rfl
@[simp] theorem markReceiving_history (s : State) :
    (markReceiving s).history = s.history := rfl
@[simp] theorem markReceiving_inflight (s : State) :
    (markReceiving s).inflight = s.inflight := rfl
@[simp] theorem markReceiving_wire (s : State) :
    (markReceiving s).wire = s.wire := rfl
@[simp] theorem markReceiving_fields (s : State) :
    (markReceiving s).fields = s.fields := rfl
@[simp] theorem markReceiving_draws (s : State) :
    (markReceiving s).draws = s.draws := rfl
@[simp] theorem markReceiving_inbox (s : State) :
    (markReceiving s).inbox = s.inbox := rfl

/-! ### submit -/

@[simp] theorem submit_cfg (out : List Byte) (len : Nat) (s : State) :
    (submit out len s).cfg = s.cfg := rfl
@[simp] theorem submit_acc (out : List Byte) (len : Nat) (s : State) :
    (submit out len s).acc = s.acc := rfl
@[simp] theorem submit_fill (out : List Byte) (len : Nat) (s : State) :
    (submit out len s).fill = s.fill := rfl
@[simp] theorem submit_receiving (out : List Byte) (len : Nat) (s : State) :
    (submit out len s).receiving = s.receiving := rfl
@[simp] theorem submit_lostRx (out : List Byte) (len : Nat) (s : State) :
    (submit out len s).lostRx = s.lostRx := rfl
@[simp] theorem submit_fault (out : List Byte) (len : Nat) (s : State) :
    (submit out len s).fault = s.fault := rfl
@[simp] theorem submit_faultInfo (out : List Byte) (len : Nat) (s : State) :
    (submit out len s).faultInfo = s.faultInfo := rfl
@[simp] theorem submit_scratch (out : List Byte) (len : Nat) (s : State) :
    (submit out len s).scratch = s.scratch := rfl
@[simp] theorem submit_codec (out : List Byte) (len : Nat) (s : State) :
    (submit out len s).codec = s.codec := rfl
@[simp] theorem submit_pumpPhase (out : List Byte) (len : Nat) (s : State) :
    (submit out len s).pumpPhase = s.pumpPhase := rfl
@[simp] theorem submit_held (out : List Byte) (len : Nat) (s : State) :
    (submit out len s).held = s.held := rfl
@[simp] theorem submit_life (out : List Byte) (len : Nat) (s : State) :
    (submit out len s).life = s.life := rfl
@[simp] theorem submit_owner (out : List Byte) (len : Nat) (s : State) :
    (submit out len s).owner = s.owner := rfl
@[simp] theorem submit_td (out : List Byte) (len : Nat) (s : State) :
    (submit out len s).td = { s.td with len := len, pending := s.td.pending + 1, src := .scratch } := rfl
@[simp] theorem submit_pkt (out : List Byte) (len : Nat) (s : State) :
    (submit out len s).pkt = s.pkt := rfl
@[simp] theorem submit_caps (out : List Byte) (len : Nat) (s : State) :
    (submit out len s).caps = s.caps := rfl
@[simp] theorem submit_status (out : List Byte) (len : Nat) (s : State) :
    (submit out len s).status = s.status := rfl
@[simp] theorem submit_result (out : List Byte) (len : Nat) (s : State) :
    (submit out len s).result = s.result := rfl
@[simp] theorem submit_history (out : List Byte) (len : Nat) (s : State) :
    (submit out len s).history = s.history ++ [.submitWrite out] := rfl
@[simp] theorem submit_inflight (out : List Byte) (len : Nat) (s : State) :
    (submit out len s).inflight = inflightAfter s.cfg out s.inflight := rfl
@[simp] theorem submit_wire (out : List Byte) (len : Nat) (s : State) :
    (submit out len s).wire = s.wire := rfl
@[simp] theorem submit_fields (out : List Byte) (len : Nat) (s : State) :
    (submit out len s).fields = s.fields := rfl
@[simp] theorem submit_draws (out : List Byte) (len : Nat) (s : State) :
    (submit out len s).draws = s.draws := rfl
@[simp] theorem submit_inbox (out : List Byte) (len : Nat) (s : State) :
    (submit out len s).inbox = s.inbox := rfl

/-! ### The written space, and the others -/

@[simp] theorem setSpaceMem_acc (m : Memory) (s : State) : (setSpaceMem .acc m s).acc = m := rfl
@[simp] theorem setSpaceMem_scratch_acc (m : Memory) (s : State) : (setSpaceMem .scratch m s).acc = s.acc := rfl
@[simp] theorem setSpaceMem_pkt_acc (h : Handle) (m : Memory) (s : State) :
    (setSpaceMem (.pkt h) m s).acc = s.acc := rfl
@[simp] theorem setSpaceMem_scratch (m : Memory) (s : State) : (setSpaceMem .scratch m s).scratch = m := rfl
@[simp] theorem setSpaceMem_acc_scratch (m : Memory) (s : State) : (setSpaceMem .acc m s).scratch = s.scratch := rfl
@[simp] theorem setSpaceMem_pkt_scratch (h : Handle) (m : Memory) (s : State) :
    (setSpaceMem (.pkt h) m s).scratch = s.scratch := rfl
@[simp] theorem setSpaceMem_acc_pkt (m : Memory) (s : State) : (setSpaceMem .acc m s).pkt = s.pkt := rfl
@[simp] theorem setSpaceMem_scratch_pkt (m : Memory) (s : State) : (setSpaceMem .scratch m s).pkt = s.pkt := rfl

/-- R211: the first fault is the one recorded. -/
@[simp] theorem recordFault_fault (f : FaultCode) (info : FaultInfo) (s : State) :
    (recordFault f info s).fault = if s.fault = .none then f else s.fault := by
  unfold recordFault; split <;> rfl
@[simp] theorem recordFault_faultInfo (f : FaultCode) (info : FaultInfo) (s : State) :
    (recordFault f info s).faultInfo = if s.fault = .none then info else s.faultInfo := by
  unfold recordFault; split <;> rfl

/-! ### Views that read only some fields -/

@[simp] theorem record_capOf (c : Call) (s : State) (h : Handle) : capOf (record c s) h = capOf s h := rfl
@[simp] theorem record_lifeOf (c : Call) (s : State) (h : Handle) : lifeOf (record c s) h = lifeOf s h := rfl
@[simp] theorem setPhase_capOf (p : PumpPhase) (s : State) (h : Handle) : capOf (setPhase p s) h = capOf s h := rfl
@[simp] theorem setPhase_lifeOf (p : PumpPhase) (s : State) (h : Handle) : lifeOf (setPhase p s) h = lifeOf s h := rfl
@[simp] theorem record_ownerOf (c : Call) (s : State) (h : Handle) : ownerOf (record c s) h = ownerOf s h := rfl
@[simp] theorem setPhase_ownerOf (p : PumpPhase) (s : State) (h : Handle) :
    ownerOf (setPhase p s) h = ownerOf s h := rfl
@[simp] theorem setCap_ownerOf (h : Handle) (c : Nat) (s : State) (h' : Handle) :
    ownerOf (setCap h c s) h' = ownerOf s h' := rfl
@[simp] theorem setOwner_capOf (h : Handle) (o : Owner) (s : State) (h' : Handle) :
    capOf (setOwner h o s) h' = capOf s h' := rfl
@[simp] theorem setOwner_lifeOf (h : Handle) (o : Owner) (s : State) (h' : Handle) :
    lifeOf (setOwner h o s) h' = lifeOf s h' := rfl
@[simp] theorem setLife_capOf (h : Handle) (v : Life) (s : State) (h' : Handle) :
    capOf (setLife h v s) h' = capOf s h' := rfl

end Sys2Proof.Machine
end

