-- ==== Sys2Proof/Laws/Ops.lean ====
section
/-! SUPPORT. What each shared operation can do, said once: the pieces of a transaction, the byte accesses and spans,
the ledger, the calls. Later proofs cite these instead of unfolding the operations. -/

namespace Sys2Proof.Machine

/-! ## The pieces of a transaction -/

@[simp] theorem andThen_done {α β : Type} (a : α) (s : State) (k : α → State → Run β) :
    (Run.done a s).andThen k = k a s := rfl
@[simp] theorem andThen_raised {α β : Type} (s : State) (k : α → State → Run β) :
    (Run.raised s : Run α).andThen k = .raised s := rfl
@[simp] theorem andThen_stopped {α β : Type} (f : Fault) (k : α → State → Run β) :
    (Run.stopped f : Run α).andThen k = .stopped f := rfl
@[simp] theorem close_done (u : Unit) (s : State) : (Run.done u s).close = .next s := rfl
@[simp] theorem close_raised (s : State) : (Run.raised s : Run Unit).close = .next s := rfl
@[simp] theorem close_stopped (f : Fault) : (Run.stopped f : Run Unit).close = .fault f := rfl

theorem whenRunning_running {s : State} (h : s.fault = .none) (o : Host.Outcome State Fault Refusal) :
    whenRunning s o = o := by simp [whenRunning, h]

theorem whenRunning_stopped {s : State} (h : s.fault ≠ .none) (o : Host.Outcome State Fault Refusal) :
    whenRunning s o = .fault (.stopped s.fault) := by simp [whenRunning, h]

theorem recordFault_running {s : State} (hf : s.fault = .none) (f : FaultCode) (info : FaultInfo) :
    recordFault f info s = { s with fault := f, faultInfo := info } := by unfold recordFault; rw [if_pos hf]

/-- What a piece of a transaction can end in: `D` where it is done, `R` where it has raised a fault. -/
def Run.Ends {α : Type} (r : Run α) (D : α → State → Prop) (R : State → Prop) : Prop :=
  match r with
  | .done a s => D a s
  | .raised s => R s
  | .stopped _ => True

theorem ends_done {α : Type} {a : α} {s : State} {D : α → State → Prop} {R : State → Prop} (h : D a s) :
    (Run.done a s).Ends D R := h

theorem ends_raised {α : Type} {s : State} {D : α → State → Prop} {R : State → Prop} (h : R s) :
    (Run.raised s : Run α).Ends D R := h

theorem ends_andThen {α β : Type} {r : Run α} {k : α → State → Run β} {D : α → State → Prop}
    {E : β → State → Prop} {R : State → Prop} (h : r.Ends D R) (hk : ∀ a s, D a s → (k a s).Ends E R) :
    (r.andThen k).Ends E R := by
  cases r with
  | done a s => exact hk a s h
  | raised s => exact h
  | stopped f => trivial

theorem ends_mono {α : Type} {r : Run α} {D E : α → State → Prop} {R Q : State → Prop} (h : r.Ends D R)
    (hd : ∀ a s, D a s → E a s) (hr : ∀ s, R s → Q s) : r.Ends E Q := by
  cases r with
  | done a s => exact hd a s h
  | raised s => exact hr s h
  | stopped f => trivial

/-- What holds wherever the body ends holds of the transaction's next state; the block was running. -/
theorem transact_next {s t : State} {body : State → Run Unit} (h : transact s body = .next t)
    {P : State → Prop} (hb : s.fault = .none → (body (startTransaction s)).Ends (fun _ u => P u) P) :
    s.fault = .none ∧ P t := by
  unfold transact at h
  by_cases hf : s.fault = .none
  · refine ⟨hf, ?_⟩
    have hb := hb hf
    rw [whenRunning_running hf] at h
    revert h hb
    cases body (startTransaction s) with
    | done a u => intro h hb; cases h; exact hb
    | raised u => intro h hb; cases h; exact hb
    | stopped f => intro h; cases h
  · rw [whenRunning_stopped hf] at h; cases h

theorem symbolStep_next {s t : State} {f : Codec → Codec} (h : symbolStep s f = .next t) :
    s.fault = .none ∧ t = { s with codec := f s.codec } := by
  unfold symbolStep whenRunning at h
  split at h
  · next hf => cases h; exact ⟨hf, rfl⟩
  · cases h

/-! ## The ledger, the capacities, the written bytes -/

theorem lifeOf_setLife (h : Handle) (v : Life) (s : State) (h' : Handle) :
    lifeOf (setLife h v s) h' = if h = h' then v else lifeOf s h' := by
  unfold lifeOf
  rw [setLife_life]
  split
  · next hv =>
    rw [lookup_erase]
    split <;> simp [hv]
  · rw [lookup_insert]
    split <;> simp

@[simp] theorem lifeOf_setLife_self (h : Handle) (v : Life) (s : State) : lifeOf (setLife h v s) h = v := by
  simp [lifeOf_setLife]

theorem lifeOf_setLife_ne {h h' : Handle} (hne : h' ≠ h) (v : Life) (s : State) :
    lifeOf (setLife h v s) h' = lifeOf s h' := by simp [lifeOf_setLife, Ne.symm hne]

theorem ownerOf_setLife (h : Handle) (v : Life) (s : State) (h' : Handle) :
    ownerOf (setLife h v s) h' = if h = h' then some (ownerAfter v) else ownerOf s h' := by
  unfold ownerOf
  rw [setLife_owner, lookup_insert]

theorem ownerOf_setOwner (h : Handle) (o : Owner) (s : State) (h' : Handle) :
    ownerOf (setOwner h o s) h' = if h = h' then some o else ownerOf s h' := by
  unfold ownerOf
  rw [setOwner_owner, lookup_insert]

theorem ownerOf_setLife_ne {h h' : Handle} (hne : h' ≠ h) (v : Life) (s : State) :
    ownerOf (setLife h v s) h' = ownerOf s h' := by simp [ownerOf_setLife, Ne.symm hne]

theorem lookup_forgetHeld (h : Handle) (t : List (Handle × Owner)) :
    Table.lookup h (forgetHeld t) =
      (Table.lookup h t).map fun o => if o = .block then .outside else o := by
  unfold forgetHeld
  induction t with
  | nil => rfl
  | cons p t ih =>
    obtain ⟨j, o⟩ := p
    rw [List.map_cons, lookup_cons, lookup_cons, ih]
    split <;> rfl

/-- R11: what is allocated, by its owner. -/
theorem allocated_iff (s : State) (h : Handle) :
    allocated s h = true ↔ ownerOf s h = some .block ∨ ownerOf s h = some .outside := by simp [allocated]

/-- R46: an agent outside may use what the pool and the block do not have. -/
theorem outsideMayUse_iff (s : State) (h : Handle) :
    outsideMayUse s h = true ↔ ownerOf s h ≠ some .block ∧ ownerOf s h ≠ some .pool := by
  unfold outsideMayUse
  rcases ownerOf s h with _ | _ | _ | _ <;> decide

/-- The written bytes after a replacement of the space's own. -/
@[simp] theorem spaceMem_setSpaceMem_self (sp : Space) (m : Memory) (s : State) :
    spaceMem (setSpaceMem sp m s) sp = m := by
  cases sp with
  | acc => rfl
  | scratch => rfl
  | pkt h =>
    show (Table.lookup h (if m = [] then Table.erase h s.pkt else Table.insert h m s.pkt)).getD [] = m
    split
    · next hm => simp [lookup_erase, hm]
    · simp

/-- The written bytes of the other spaces stay. -/
theorem spaceMem_setSpaceMem_ne {sp sq : Space} (hne : sq ≠ sp) (m : Memory) (s : State) :
    spaceMem (setSpaceMem sp m s) sq = spaceMem s sq := by
  cases sp with
  | acc => cases sq <;> first | rfl | exact absurd rfl hne
  | scratch => cases sq <;> first | rfl | exact absurd rfl hne
  | pkt h =>
    cases sq with
    | acc => rfl
    | scratch => rfl
    | pkt h' =>
      have hh : h ≠ h' := fun e => hne (by rw [e])
      show (Table.lookup h' (if m = [] then Table.erase h s.pkt else Table.insert h m s.pkt)).getD [] = _
      split
      · rw [lookup_erase, if_neg hh]; rfl
      · rw [lookup_insert, if_neg hh]; rfl

theorem capOf_setCap (h : Handle) (c : Nat) (s : State) (h' : Handle) :
    capOf (setCap h c s) h' = if h = h' then c else capOf s h' := by
  unfold capOf
  rw [setCap_caps, lookup_insert]
  split <;> simp

@[simp] theorem capOf_setSpaceMem (sp : Space) (m : Memory) (s : State) (h : Handle) :
    capOf (setSpaceMem sp m s) h = capOf s h := by unfold capOf; rw [setSpaceMem_caps]

@[simp] theorem ownerOf_setSpaceMem (sp : Space) (m : Memory) (s : State) (h : Handle) :
    ownerOf (setSpaceMem sp m s) h = ownerOf s h := by unfold ownerOf; rw [setSpaceMem_owner]

@[simp] theorem lifeOf_setSpaceMem (sp : Space) (m : Memory) (s : State) (h : Handle) :
    lifeOf (setSpaceMem sp m s) h = lifeOf s h := by unfold lifeOf; rw [setSpaceMem_life]

@[simp] theorem spaceSize_setSpaceMem (sp : Space) (m : Memory) (s : State) (sq : Space) :
    spaceSize (setSpaceMem sp m s) sq = spaceSize s sq := by
  cases sq <;> simp [spaceSize]

@[simp] theorem mayWrite_setSpaceMem (sp : Space) (m : Memory) (s : State) (sq : Space) :
    mayWrite (setSpaceMem sp m s) sq = mayWrite s sq := by
  cases sq <;> simp [mayWrite]

@[simp] theorem mayRead_setSpaceMem (sp : Space) (m : Memory) (s : State) (sq : Space) :
    mayRead (setSpaceMem sp m s) sq = mayRead s sq := by
  cases sq <;> simp [mayRead]

/-- After the pool's answer the buffer's bytes are those below its new capacity, every other space's are its own. -/
theorem spaceMem_setCap_self (h : Handle) (c : Nat) (s : State) :
    spaceMem (setCap h c s) (.pkt h) = Table.below c (spaceMem s (.pkt h)) := by
  rw [setCap, spaceMem_setSpaceMem_self]

theorem spaceMem_setCap_ne {sq : Space} {h : Handle} (hne : sq ≠ .pkt h) (c : Nat) (s : State) :
    spaceMem (setCap h c s) sq = spaceMem s sq := by
  rw [setCap, spaceMem_setSpaceMem_ne hne]
  cases sq <;> rfl

/-- A byte read depends on the written bytes of its space only. -/
theorem readByteOf_congr {s t : State} {sp : Space} (h : spaceMem t sp = spaceMem s sp) (i : Nat) :
    readByteOf t sp i = readByteOf s sp i := by unfold readByteOf; rw [h]

/-- A written byte is what is read. -/
theorem readByteOf_of_lookup {s : State} {sp : Space} {i : Nat} {b : Byte}
    (h : Table.lookup i (spaceMem s sp) = some b) : readByteOf s sp i = some b := by
  unfold readByteOf; rw [h]

/-- Every byte of a packet buffer reads as something. -/
theorem readByteOf_pkt (s : State) (h : Handle) (i : Nat) : ∃ b, readByteOf s (.pkt h) i = some b := by
  unfold readByteOf
  cases Table.lookup i (spaceMem s (.pkt h)) with
  | some b => exact ⟨b, rfl⟩
  | none => exact ⟨_, rfl⟩

/-! ## Byte accesses -/

theorem memRead_done {sp : Space} {i : Nat} {s : State} {b : Byte} (hi : i < spaceSize s sp)
    (hm : mayRead s sp = true) (hb : readByteOf s sp i = some b) : memRead sp i s = .done b s := by
  unfold memRead
  rw [if_neg (by simp [hm]; omega), hb]

/-- An illegal read (R52). -/
theorem memRead_raised {sp : Space} {i : Nat} {s : State}
    (h : spaceSize s sp ≤ i ∨ mayRead s sp = false) :
    memRead sp i s = .raised (recordFault .lifecycleViolation (.access sp i) s) := by
  unfold memRead; rw [if_pos h]; rfl

/-- A read changes nothing where it is done; where it raises, only the fault register. -/
theorem memRead_ends (sp : Space) (i : Nat) (s : State) :
    (memRead sp i s).Ends (fun b t => t = s ∧ readByteOf s sp i = some b ∧ i < spaceSize s sp)
      (fun t => t = recordFault .lifecycleViolation (.access sp i) s) := by
  unfold memRead
  split
  · rfl
  · next h =>
    cases hb : readByteOf s sp i with
    | some b => exact ⟨rfl, rfl, by rw [not_or] at h; omega⟩
    | none => trivial

theorem memWrite_done {sp : Space} {i : Nat} {v : Byte} {s : State} (hi : i < spaceSize s sp)
    (hm : mayWrite s sp = true) :
    memWrite sp i v s = .done () (setSpaceMem sp (Table.insert i v (spaceMem s sp)) s) := by
  unfold memWrite
  rw [if_neg (by simp [hm]; omega)]

/-- A write changes one byte of its space where it is done; where it raises, only the fault register. -/
theorem memWrite_ends (sp : Space) (i : Nat) (v : Byte) (s : State) :
    (memWrite sp i v s).Ends
      (fun _ t => t = setSpaceMem sp (Table.insert i v (spaceMem s sp)) s ∧ i < spaceSize s sp ∧
        mayWrite s sp = true)
      (fun t => t = recordFault .lifecycleViolation (.access sp i) s) := by
  unfold memWrite
  split
  · rfl
  · next h =>
    rw [not_or] at h
    exact ⟨rfl, by omega, by simpa using h.2⟩

/-! ## Spans -/

/-- A span all of whose bytes can be read. -/
theorem readSpan_done {sp : Space} {s : State} (hm : mayRead s sp = true) :
    ∀ (bs : List Byte) (i : Nat), i + bs.length ≤ spaceSize s sp →
      (∀ j b, bs[j]? = some b → readByteOf s sp (i + j) = some b) →
      readSpan sp i bs.length s = .done bs s := by
  intro bs
  induction bs with
  | nil => intro i _ _; rfl
  | cons b bs ih =>
    intro i hi hb
    simp only [List.length_cons] at hi ⊢
    have h0 : readByteOf s sp i = some b := by simpa using hb 0 b (by simp)
    rw [readSpan, memRead_done (by omega) hm h0, andThen_done,
      ih (i + 1) (by omega) (fun j c hc => by
        have := hb (j + 1) c (by simpa using hc)
        rwa [show i + (j + 1) = i + 1 + j by omega] at this)]
    rfl

/-- A span read changes nothing where it is done; where it raises, only the fault register. -/
theorem readSpan_ends (sp : Space) :
    ∀ (n i : Nat) (s : State), (readSpan sp i n s).Ends (fun bs t => t = s ∧ bs.length = n)
      (fun t => ∃ j, t = recordFault .lifecycleViolation (.access sp j) s) := by
  intro n
  induction n with
  | zero => intro i s; exact ⟨rfl, rfl⟩
  | succ n ih =>
    intro i s
    refine ends_andThen (ends_mono (memRead_ends sp i s) (fun _ _ h => h) fun t h => ⟨i, h⟩) ?_
    rintro b t ⟨rfl, -, -⟩
    refine ends_andThen (ih (i + 1) t) ?_
    rintro bs u ⟨rfl, rfl⟩
    exact ⟨rfl, rfl⟩

/-- A span read inside a space that may be read raises nothing. -/
theorem readSpan_inside {sp : Space} {s : State} (hm : mayRead s sp = true) :
    ∀ (n i : Nat), i + n ≤ spaceSize s sp →
      (readSpan sp i n s).Ends
        (fun bs t => t = s ∧ bs.length = n ∧ ∀ j b, bs[j]? = some b → readByteOf s sp (i + j) = some b)
        (fun _ => False) := by
  intro n
  induction n with
  | zero => intro i _; exact ⟨rfl, rfl, by simp⟩
  | succ n ih =>
    intro i hi
    have hread : (memRead sp i s).Ends (fun b t => t = s ∧ readByteOf s sp i = some b) (fun _ => False) := by
      unfold memRead
      rw [if_neg (by simp [hm]; omega)]
      cases hb : readByteOf s sp i with
      | some b => exact ⟨rfl, rfl⟩
      | none => trivial
    refine ends_andThen hread ?_
    rintro b t ⟨rfl, hb⟩
    refine ends_andThen (ih (i + 1) (by omega)) ?_
    rintro bs u ⟨rfl, rfl, hbs⟩
    refine ⟨rfl, rfl, fun j c hc => ?_⟩
    cases j with
    | zero => simpa [hb] using hc
    | succ j =>
      have := hbs j c (by simpa using hc)
      rwa [show i + 1 + j = i + (j + 1) by omega] at this

/-- The state after bytes were written from index `i` on. -/
def writtenSpan (sp : Space) (i : Nat) : List Byte → State → State
  | [], s => s
  | b :: bs, s => writtenSpan sp (i + 1) bs (setSpaceMem sp (Table.insert i b (spaceMem s sp)) s)

theorem writeSpan_done {sp : Space} :
    ∀ (bs : List Byte) (i : Nat) (s : State), mayWrite s sp = true → i + bs.length ≤ spaceSize s sp →
      writeSpan sp i bs s = .done () (writtenSpan sp i bs s) := by
  intro bs
  induction bs with
  | nil => intro i s _ _; rfl
  | cons b bs ih =>
    intro i s hm hi
    simp only [List.length_cons] at hi
    rw [writeSpan, memWrite_done (by omega) hm, andThen_done,
      ih (i + 1) _ (by simpa using hm) (by rw [spaceSize_setSpaceMem]; omega)]
    rfl

/-- A property of states that writes into the space and the fault entry keep holds wherever a span write ends. -/
theorem writeSpan_ends {sp : Space} {P : State → Prop}
    (hw : ∀ i v s, P s → i < spaceSize s sp → mayWrite s sp = true →
      P (setSpaceMem sp (Table.insert i v (spaceMem s sp)) s))
    (hr : ∀ i s, P s → P (recordFault .lifecycleViolation (.access sp i) s)) :
    ∀ (bs : List Byte) (i : Nat) (s : State), P s → (writeSpan sp i bs s).Ends (fun _ => P) P := by
  intro bs
  induction bs with
  | nil => intro i s h; exact h
  | cons b bs ih =>
    intro i s h
    refine ends_andThen (D := fun _ => P) (ends_mono (memWrite_ends sp i b s) ?_ ?_) fun _ t ht => ih (i + 1) t ht
    · rintro _ t ⟨rfl, h1, h2⟩; exact hw i b s h h1 h2
    · rintro t rfl; exact hr i s h

/-- A field that no write into the space touches is as it was. -/
theorem writtenSpan_keeps {β : Type} (f : State → β) {sp : Space}
    (hf : ∀ m s, f (setSpaceMem sp m s) = f s) :
    ∀ (bs : List Byte) (i : Nat) (s : State), f (writtenSpan sp i bs s) = f s := by
  intro bs
  induction bs with
  | nil => intro i s; rfl
  | cons b bs ih => intro i s; rw [writtenSpan, ih, hf]

@[simp] theorem writtenSpan_cfg (sp : Space) (i : Nat) (bs : List Byte) (s : State) :
    (writtenSpan sp i bs s).cfg = s.cfg := writtenSpan_keeps State.cfg (setSpaceMem_cfg sp) bs i s
@[simp] theorem writtenSpan_fill (sp : Space) (i : Nat) (bs : List Byte) (s : State) :
    (writtenSpan sp i bs s).fill = s.fill := writtenSpan_keeps State.fill (setSpaceMem_fill sp) bs i s
@[simp] theorem writtenSpan_receiving (sp : Space) (i : Nat) (bs : List Byte) (s : State) :
    (writtenSpan sp i bs s).receiving = s.receiving := writtenSpan_keeps State.receiving (setSpaceMem_receiving sp) bs i s
@[simp] theorem writtenSpan_lostRx (sp : Space) (i : Nat) (bs : List Byte) (s : State) :
    (writtenSpan sp i bs s).lostRx = s.lostRx := writtenSpan_keeps State.lostRx (setSpaceMem_lostRx sp) bs i s
@[simp] theorem writtenSpan_fault (sp : Space) (i : Nat) (bs : List Byte) (s : State) :
    (writtenSpan sp i bs s).fault = s.fault := writtenSpan_keeps State.fault (setSpaceMem_fault sp) bs i s
@[simp] theorem writtenSpan_faultInfo (sp : Space) (i : Nat) (bs : List Byte) (s : State) :
    (writtenSpan sp i bs s).faultInfo = s.faultInfo := writtenSpan_keeps State.faultInfo (setSpaceMem_faultInfo sp) bs i s
@[simp] theorem writtenSpan_codec (sp : Space) (i : Nat) (bs : List Byte) (s : State) :
    (writtenSpan sp i bs s).codec = s.codec := writtenSpan_keeps State.codec (setSpaceMem_codec sp) bs i s
@[simp] theorem writtenSpan_pumpPhase (sp : Space) (i : Nat) (bs : List Byte) (s : State) :
    (writtenSpan sp i bs s).pumpPhase = s.pumpPhase := writtenSpan_keeps State.pumpPhase (setSpaceMem_pumpPhase sp) bs i s
@[simp] theorem writtenSpan_held (sp : Space) (i : Nat) (bs : List Byte) (s : State) :
    (writtenSpan sp i bs s).held = s.held := writtenSpan_keeps State.held (setSpaceMem_held sp) bs i s
@[simp] theorem writtenSpan_life (sp : Space) (i : Nat) (bs : List Byte) (s : State) :
    (writtenSpan sp i bs s).life = s.life := writtenSpan_keeps State.life (setSpaceMem_life sp) bs i s
@[simp] theorem writtenSpan_owner (sp : Space) (i : Nat) (bs : List Byte) (s : State) :
    (writtenSpan sp i bs s).owner = s.owner := writtenSpan_keeps State.owner (setSpaceMem_owner sp) bs i s
@[simp] theorem writtenSpan_td (sp : Space) (i : Nat) (bs : List Byte) (s : State) :
    (writtenSpan sp i bs s).td = s.td := writtenSpan_keeps State.td (setSpaceMem_td sp) bs i s
@[simp] theorem writtenSpan_caps (sp : Space) (i : Nat) (bs : List Byte) (s : State) :
    (writtenSpan sp i bs s).caps = s.caps := writtenSpan_keeps State.caps (setSpaceMem_caps sp) bs i s
@[simp] theorem writtenSpan_status (sp : Space) (i : Nat) (bs : List Byte) (s : State) :
    (writtenSpan sp i bs s).status = s.status := writtenSpan_keeps State.status (setSpaceMem_status sp) bs i s
@[simp] theorem writtenSpan_result (sp : Space) (i : Nat) (bs : List Byte) (s : State) :
    (writtenSpan sp i bs s).result = s.result := writtenSpan_keeps State.result (setSpaceMem_result sp) bs i s
@[simp] theorem writtenSpan_history (sp : Space) (i : Nat) (bs : List Byte) (s : State) :
    (writtenSpan sp i bs s).history = s.history := writtenSpan_keeps State.history (setSpaceMem_history sp) bs i s
@[simp] theorem writtenSpan_inflight (sp : Space) (i : Nat) (bs : List Byte) (s : State) :
    (writtenSpan sp i bs s).inflight = s.inflight := writtenSpan_keeps State.inflight (setSpaceMem_inflight sp) bs i s
@[simp] theorem writtenSpan_wire (sp : Space) (i : Nat) (bs : List Byte) (s : State) :
    (writtenSpan sp i bs s).wire = s.wire := writtenSpan_keeps State.wire (setSpaceMem_wire sp) bs i s
@[simp] theorem writtenSpan_fields (sp : Space) (i : Nat) (bs : List Byte) (s : State) :
    (writtenSpan sp i bs s).fields = s.fields := writtenSpan_keeps State.fields (setSpaceMem_fields sp) bs i s
@[simp] theorem writtenSpan_draws (sp : Space) (i : Nat) (bs : List Byte) (s : State) :
    (writtenSpan sp i bs s).draws = s.draws := writtenSpan_keeps State.draws (setSpaceMem_draws sp) bs i s
@[simp] theorem writtenSpan_inbox (sp : Space) (i : Nat) (bs : List Byte) (s : State) :
    (writtenSpan sp i bs s).inbox = s.inbox := writtenSpan_keeps State.inbox (setSpaceMem_inbox sp) bs i s
@[simp] theorem writtenSpan_pkt_acc (h : Handle) (i : Nat) (bs : List Byte) (s : State) :
    (writtenSpan (.pkt h) i bs s).acc = s.acc := writtenSpan_keeps State.acc (setSpaceMem_pkt_acc h) bs i s
@[simp] theorem writtenSpan_pkt_scratch (h : Handle) (i : Nat) (bs : List Byte) (s : State) :
    (writtenSpan (.pkt h) i bs s).scratch = s.scratch := writtenSpan_keeps State.scratch (setSpaceMem_pkt_scratch h) bs i s
@[simp] theorem writtenSpan_scratch_acc (i : Nat) (bs : List Byte) (s : State) :
    (writtenSpan .scratch i bs s).acc = s.acc := writtenSpan_keeps State.acc setSpaceMem_scratch_acc bs i s
@[simp] theorem writtenSpan_scratch_pkt (i : Nat) (bs : List Byte) (s : State) :
    (writtenSpan .scratch i bs s).pkt = s.pkt := writtenSpan_keeps State.pkt setSpaceMem_scratch_pkt bs i s

/-- The other spaces' bytes stay through a span write. -/
theorem spaceMem_writtenSpan_ne {sp sq : Space} (hne : sq ≠ sp) (i : Nat) (bs : List Byte) (s : State) :
    spaceMem (writtenSpan sp i bs s) sq = spaceMem s sq :=
  writtenSpan_keeps (fun u => spaceMem u sq) (fun m u => spaceMem_setSpaceMem_ne hne m u) bs i s

theorem lifeOf_writtenSpan (sp : Space) (i : Nat) (bs : List Byte) (s : State) (h : Handle) :
    lifeOf (writtenSpan sp i bs s) h = lifeOf s h := by unfold lifeOf; rw [writtenSpan_life]

theorem ownerOf_writtenSpan (sp : Space) (i : Nat) (bs : List Byte) (s : State) (h : Handle) :
    ownerOf (writtenSpan sp i bs s) h = ownerOf s h := by unfold ownerOf; rw [writtenSpan_owner]

theorem capOf_writtenSpan (sp : Space) (i : Nat) (bs : List Byte) (s : State) (h : Handle) :
    capOf (writtenSpan sp i bs s) h = capOf s h := by unfold capOf; rw [writtenSpan_caps]

/-- The space's own bytes after a span write. -/
theorem spaceMem_writtenSpan (sp : Space) :
    ∀ (bs : List Byte) (i : Nat) (s : State),
      spaceMem (writtenSpan sp i bs s) sp = putBytes i bs (spaceMem s sp) := by
  intro bs
  induction bs with
  | nil => intro i s; rfl
  | cons b bs ih => intro i s; rw [writtenSpan, ih, spaceMem_setSpaceMem_self]; rfl

/-- A lookup among bytes put from index `i` on. -/
theorem lookup_putBytes :
    ∀ (bs : List Byte) (i j : Nat) (m : Memory),
      Table.lookup j (putBytes i bs m) = if i ≤ j ∧ j < i + bs.length then bs[j - i]? else Table.lookup j m := by
  intro bs
  induction bs with
  | nil => intro i j m; simp [putBytes]
  | cons b bs ih =>
    intro i j m
    rw [putBytes, ih, List.length_cons]
    by_cases h : i = j
    · subst h
      rw [if_neg (by omega), if_pos (by omega), lookup_insert_self]
      simp
    · rw [lookup_insert_ne (Ne.symm h)]
      by_cases h2 : i + 1 ≤ j ∧ j < i + 1 + bs.length
      · rw [if_pos h2, if_pos (by omega), show j - i = (j - (i + 1)) + 1 by omega]
        simp
      · rw [if_neg h2, if_neg (by omega)]

/-- Bytes put inside a space keep its canonical form. -/
theorem wf_putBytes {size : Nat} :
    ∀ (bs : List Byte) (i : Nat) (m : Memory), i + bs.length ≤ size → Memory.wf size m →
      Memory.wf size (putBytes i bs m) := by
  intro bs
  induction bs with
  | nil => intro i m _ h; exact h
  | cons b bs ih =>
    intro i m hi h
    rw [List.length_cons] at hi
    exact ih (i + 1) _ (by omega) (wf_insert b (by omega) h)

/-! ## Buffers given back -/

theorem releaseBuffer_done {h : Handle} {s : State} (hl : lifeOf s h = .ownedByBlock) :
    releaseBuffer h s = .done () (setLife h .released (record (.release h) s)) := by
  simp [releaseBuffer, hl]

theorem releaseBuffer_ends (h : Handle) (s : State) :
    (releaseBuffer h s).Ends (fun _ t => t = setLife h .released (record (.release h) s))
      (fun t => t = recordFault .lifecycleViolation (.handle h) s) := by
  unfold releaseBuffer
  split
  · rfl
  · rfl

theorem ingestBuffer_ends (h : Handle) (k : Nat) (s : State) :
    (ingestBuffer h k s).Ends
      (fun a t => (a = .ok ∧ t = setLife h .handedOff (record (.ingest h k .ok) s)) ∨
        (a = .fail ∧ t = record (.ingest h k .fail) s))
      (fun t => t = recordFault .lifecycleViolation (.handle h) s) := by
  unfold ingestBuffer
  split
  · cases s.draws.ingest with
    | ok => exact .inl ⟨rfl, rfl⟩
    | fail => exact .inr ⟨rfl, rfl⟩
  · rfl

end Sys2Proof.Machine
end

