-- ==== Sys2Proof/Laws/Codec.lean ====
section
/-! SUPPORT. The symbol loops against the plain functions of the wire format, and the two codec operations said once
in those terms. -/

namespace Sys2Proof.Machine

open Sys2Proof.Safety

/-! ## The reserved bytes differ (R70) -/

@[simp] theorem esc_ne_end : ESC ≠ END := by decide
@[simp] theorem escEnd_ne_end : ESC_END ≠ END := by decide
@[simp] theorem escEsc_ne_end : ESC_ESC ≠ END := by decide
@[simp] theorem escEnd_ne_esc : ESC_END ≠ ESC := by decide
@[simp] theorem escEsc_ne_esc : ESC_ESC ≠ ESC := by decide
@[simp] theorem escEsc_ne_escEnd : ESC_ESC ≠ ESC_END := by decide

/-! ## The encoder -/

theorem encSymbol_eq (b : Byte) (c : Codec) : c.encSymbol b = c.emit (escape b) := by
  unfold Codec.encSymbol escape
  split
  · rfl
  · split <;> rfl

theorem encLoop_eq : ∀ (p : List Byte) (c : Codec), Codec.encLoop p c = c.emit (p.flatMap escape) := by
  intro p
  induction p with
  | nil => intro c; simp [Codec.encLoop, Codec.emit]
  | cons b p ih =>
    intro c
    rw [Codec.encLoop, ih, encSymbol_eq]
    simp [Codec.emit, List.append_assoc]

/-- The output ENCODE builds is the frame. -/
theorem encoded_out (p : List Byte) (m : Option DecMode) :
    ((Codec.encLoop p { mode := m, out := [END] }).emit [END]).out = frameOf p := by
  rw [encLoop_eq]; rfl

theorem escape_length (b : Byte) : (escape b).length = 1 + if b = END ∨ b = ESC then 1 else 0 := by
  unfold escape
  split
  · next h => simp [h]
  · split
    · next h => simp [h]
    · next h1 h2 => simp [h1, h2]

theorem encodedLength_eq (p : List Byte) : encodedLength p = p.length + 2 + escapes p := by
  unfold encodedLength escapes
  rw [List.countP_eq_length_filter]
  congr 2
  apply List.filter_congr
  intro b _
  by_cases h1 : b = END <;> by_cases h2 : b = ESC <;> simp [h1, h2]

/-- R101: the frame has the length ENCODE checks against. -/
theorem frameOf_length (p : List Byte) : (frameOf p).length = encodedLength p := by
  rw [encodedLength_eq]
  have : ∀ p : List Byte, (p.flatMap escape).length = p.length + escapes p := by
    intro p
    induction p with
    | nil => rfl
    | cons b p ih =>
      rw [List.flatMap_cons, List.length_append, ih, escape_length, List.length_cons]
      unfold escapes
      rw [List.filter_cons]
      by_cases h : b = END ∨ b = ESC
      · simp only [h, decide_true, if_true, List.length_cons]; omega
      · simp only [h, decide_false, if_false]; simp; omega
  simp only [frameOf, List.length_cons, List.length_append, this]
  simp; omega

/-- R101, R181: at most every byte is escaped. -/
theorem encodedLength_le (p : List Byte) : encodedLength p ≤ 2 * p.length + 2 := by
  have := List.countP_le_length (p := fun b : Byte => b == END || b == ESC) (l := p)
  unfold encodedLength; omega

/-- ENCODE where the destination is large enough (R100). -/
theorem encodeOp_done {p : List Byte} {dstCap : Nat} (h : encodedLength p ≤ dstCap) (s : State) :
    encodeOp p dstCap s =
      .done (frameOf p, encodedLength p) { s with codec := { s.codec with out := [] } } := by
  unfold encodeOp
  rw [if_neg (by omega)]
  rw [encoded_out]

/-- ENCODE where it is not (R102). -/
theorem encodeOp_raised {p : List Byte} {dstCap : Nat} (h : dstCap < encodedLength p) (s : State) :
    encodeOp p dstCap s = .raised (recordFault .bufferTooSmall (.sizes (encodedLength p) dstCap) s) := by
  unfold encodeOp; rw [if_pos h]; rfl

/-! ## The decoder -/

/-- In ESCAPED mode the byte stands for what R115 and R116 say, and the mode is NORMAL again. -/
theorem decSymbol_escaped (b : Byte) (out : List Byte) :
    Codec.decSymbol b { mode := some .escaped, out := out } =
      { mode := some .normal, out := out ++ [escaped b] } := by
  unfold Codec.decSymbol escaped
  simp only [if_true]
  split
  · rfl
  · split <;> rfl

/-- In NORMAL mode END emits nothing (R112), ESC changes the mode (R113), any other byte is emitted (R114). -/
theorem decSymbol_normal (b : Byte) (out : List Byte) :
    Codec.decSymbol b { mode := some .normal, out := out } =
      if b = END then { mode := some .normal, out := out }
      else if b = ESC then { mode := some .escaped, out := out }
      else { mode := some .normal, out := out ++ [b] } := by
  unfold Codec.decSymbol
  simp only [Option.some.injEq, reduceCtorEq, if_false]
  split
  · rfl
  · split <;> rfl

/-- The loop of DECODE from NORMAL mode, with the end of the input, emits what the plain function reads. -/
theorem decLoop_out : ∀ (r : List Byte) (out : List Byte),
    (Codec.decLoop r { mode := some .normal, out := out }).decEndOfInput.out = out ++ unescape r := by
  intro r
  induction r using unescape.induct with
  | case1 => intro out; simp [Codec.decLoop, Codec.decEndOfInput, unescape]
  | case2 b h =>
    intro out
    rw [Codec.decLoop, Codec.decLoop, decSymbol_normal, unescape, if_pos h]
    by_cases h1 : b = END
    · simp [h1, Codec.decEndOfInput]
    · have h2 : b = ESC := by tauto
      simp [h2, Codec.decEndOfInput, Codec.decEoiEscaped]
  | case3 b h =>
    intro out
    rw [Codec.decLoop, Codec.decLoop, decSymbol_normal, unescape, if_neg h]
    rw [not_or] at h
    simp [h.1, h.2, Codec.decEndOfInput]
  | case4 c r ih =>
    intro out
    rw [Codec.decLoop, decSymbol_normal, if_pos rfl, ih, unescape, if_pos rfl]
  | case5 c r h ih =>
    intro out
    rw [Codec.decLoop, decSymbol_normal, if_neg h, if_pos rfl, Codec.decLoop, decSymbol_escaped, ih, unescape,
      if_neg h, if_pos rfl]
    simp
  | case6 b c r h1 h2 ih =>
    intro out
    rw [Codec.decLoop, decSymbol_normal, if_neg h1, if_neg h2, ih, unescape, if_neg h1, if_neg h2]
    simp

/-- DECODE where the destination is large enough (R110). -/
theorem decodeOp_done {r : List Byte} {dstCap : Nat} (h : r.length ≤ dstCap) (s : State) :
    decodeOp r dstCap s = .done (unescape r) { s with codec := Codec.rest } := by
  unfold decodeOp
  rw [if_neg (by omega), decLoop_out]
  rfl

/-- DECODE where it is not (R117). -/
theorem decodeOp_raised {r : List Byte} {dstCap : Nat} (h : dstCap < r.length) (s : State) :
    decodeOp r dstCap s = .raised (recordFault .decodeDstTooSmall (.sizes r.length dstCap) s) := by
  unfold decodeOp; rw [if_pos h]; rfl

/-! ## The three outcomes of FEED -/

theorem feedOp_overflow {s : State} (h : s.cfg.accCap < s.fill + 1) (b : Byte) :
    feedOp b s = .done .overflow { s with fill := 0, receiving := false } := by
  unfold feedOp; rw [if_pos h]

theorem feedOp_incomplete {s : State} {b : Byte} (h : s.fill < s.cfg.accCap) (hb : b ≠ END ∨ s.fill = 0) :
    feedOp b s = .done .incomplete { s with acc := Table.insert s.fill b s.acc, fill := s.fill + 1 } := by
  unfold feedOp
  rw [if_neg (by omega), memWrite_done (by simpa [spaceSize] using h) rfl, andThen_done,
    if_neg (by rw [setSpaceMem_fill]; rcases hb with hb | hb
               · exact fun hc => hb hc.1
               · omega)]
  rfl

theorem feedOp_frame {s : State} (h : s.fill < s.cfg.accCap) (h0 : 0 < s.fill) :
    feedOp END s =
      .done (.frameReady 0 (s.fill + 1))
        { s with acc := Table.insert s.fill END s.acc, fill := 0, receiving := false } := by
  unfold feedOp
  rw [if_neg (by omega), memWrite_done (by simpa [spaceSize] using h) rfl, andThen_done,
    if_pos ⟨rfl, by rw [setSpaceMem_fill]; omega⟩]
  rfl

/-- Every FEED is one of the three (R130, R139). -/
theorem feedOp_cases (b : Byte) (s : State) :
    (s.cfg.accCap < s.fill + 1 ∧ feedOp b s = .done .overflow { s with fill := 0, receiving := false }) ∨
    (s.fill < s.cfg.accCap ∧ (b ≠ END ∨ s.fill = 0) ∧
      feedOp b s = .done .incomplete { s with acc := Table.insert s.fill b s.acc, fill := s.fill + 1 }) ∨
    (s.fill < s.cfg.accCap ∧ b = END ∧ 0 < s.fill ∧
      feedOp b s =
        .done (.frameReady 0 (s.fill + 1))
          { s with acc := Table.insert s.fill END s.acc, fill := 0, receiving := false }) := by
  by_cases h : s.cfg.accCap < s.fill + 1
  · exact .inl ⟨h, feedOp_overflow h b⟩
  · right
    have h' : s.fill < s.cfg.accCap := by omega
    by_cases hb : b ≠ END ∨ s.fill = 0
    · exact .inl ⟨h', hb, feedOp_incomplete h' hb⟩
    · rw [not_or, not_not] at hb
      have h0 : 0 < s.fill := by omega
      exact .inr ⟨h', hb.1, h0, by rw [hb.1]; exact feedOp_frame h' h0⟩

end Sys2Proof.Machine
end

