-- ==== Sys2Proof/Laws/Pump.lean ====
section
/-! SUPPORT. The Receive Pump's pieces, branch by branch (R150), and the Transmit Path's. -/

namespace Sys2Proof.Machine

theorem finishRx_done {s : State} (h : s.held = none) (e : EventCode) :
    finishRx e s = .done () { s with
      pumpPhase := .waitByte, history := s.history ++ [.readByte], status := some e, result := .none } := by
  simp [finishRx, h, report, record, setPhase]

theorem finishRx_raised {s : State} {h : Handle} (hh : s.held = some h) (e : EventCode) :
    finishRx e s = .raised (recordFault .lifecycleViolation (.handle h) s) := by
  simp [finishRx, hh, raise]

theorem acquireForFrame_none {s : State} (h : s.draws.acquire = none) (len : Nat) :
    acquireForFrame len s =
      finishRx .poolExhausted (countLost (record (.acquire len none) (setPhase .acquire s))) := by
  simp [acquireForFrame, h]

theorem acquireForFrame_some {s : State} {h : Handle} {c : Nat} (ha : s.draws.acquire = some (h, c)) (len : Nat) :
    acquireForFrame len s =
      decodeFrame h len (takeBuffer h c (record (.acquire len (some (h, c))) (setPhase .acquire s))) := by
  simp [acquireForFrame, ha]

theorem inspectFrame_reject {s : State} (hf : s.draws.filter = .reject) (h : Handle) (k : Nat) :
    inspectFrame h k s = dropFrame h .filteredOut (record (.filter h k .reject) (setPhase .filter s)) := by
  simp [inspectFrame, hf]

theorem inspectFrame_invalid {s : State} (hf : s.draws.filter = .accept) (hc : s.draws.checksum = .invalid)
    (h : Handle) (k : Nat) :
    inspectFrame h k s = dropFrame h .checksumInvalid
      (record (.checksum h k .invalid) (setPhase .checksum (record (.filter h k .accept) (setPhase .filter s)))) := by
  simp [inspectFrame, hf, hc]

theorem inspectFrame_valid {s : State} (hf : s.draws.filter = .accept) (hc : s.draws.checksum = .valid)
    (h : Handle) (k : Nat) :
    inspectFrame h k s = offerFrame h k
      (record (.checksum h k .valid) (setPhase .checksum (record (.filter h k .accept) (setPhase .filter s)))) := by
  simp [inspectFrame, hf, hc]

/-- Dropping an owned buffer: released, nothing held, the event reported. -/
theorem dropFrame_done {s : State} {h : Handle} (hl : lifeOf s h = .ownedByBlock) (e : EventCode) :
    dropFrame h e s = .done () { setLife h .released s with
      held := none, pumpPhase := .waitByte, history := s.history ++ [.release h, .readByte]
      status := some e, result := .none } := by
  unfold dropFrame
  rw [releaseBuffer_done (by rw [setPhase_lifeOf]; exact hl), andThen_done, finishRx_done rfl]
  simp [setLife, record, setPhase]

/-- Offering an owned buffer that the consumer takes. -/
theorem offerFrame_ok {s : State} {h : Handle} (hl : lifeOf s h = .ownedByBlock) (hi : s.draws.ingest = .ok)
    (k : Nat) :
    offerFrame h k s = .done () { setLife h .handedOff s with
      held := none, pumpPhase := .waitByte, history := s.history ++ [.ingest h k .ok, .readByte]
      status := some .delivered, result := .none } := by
  unfold offerFrame ingestBuffer
  rw [if_pos (by rw [setPhase_lifeOf]; exact hl), setPhase_draws, hi]
  simp only [andThen_done]
  rw [finishRx_done rfl]
  simp [setLife, record, setPhase]

/-- Offering an owned buffer that the consumer refuses. -/
theorem offerFrame_fail {s : State} {h : Handle} (hl : lifeOf s h = .ownedByBlock) (hi : s.draws.ingest = .fail)
    (k : Nat) :
    offerFrame h k s = .done () { setLife h .released s with
      held := none, pumpPhase := .waitByte, lostRx := s.lostRx + 1
      history := s.history ++ [.ingest h k .fail, .release h, .readByte]
      status := some .ingestionRejected, result := .none } := by
  unfold offerFrame ingestBuffer
  rw [if_pos (by rw [setPhase_lifeOf]; exact hl), setPhase_draws, hi]
  simp only [andThen_done]
  rw [releaseBuffer_done (by rw [setPhase_lifeOf, record_lifeOf, setPhase_lifeOf]; exact hl), andThen_done,
    finishRx_done rfl]
  simp [setLife, record, setPhase, countLost]

/-- The four fates of a decoded frame (R157 to R159): the filter rejects it. -/
theorem inspectFrame_filteredOut {s : State} {h : Handle} (hl : lifeOf s h = .ownedByBlock)
    (hf : s.draws.filter = .reject) (k : Nat) :
    inspectFrame h k s = .done () { setLife h .released s with
      held := none, pumpPhase := .waitByte
      history := s.history ++ [.filter h k .reject, .release h, .readByte]
      status := some .filteredOut, result := .none } := by
  rw [inspectFrame_reject hf, dropFrame_done (by rw [record_lifeOf, setPhase_lifeOf]; exact hl)]
  simp [setLife, record, setPhase]

/-- The checksum rejects it. -/
theorem inspectFrame_checksumInvalid {s : State} {h : Handle} (hl : lifeOf s h = .ownedByBlock)
    (hf : s.draws.filter = .accept) (hc : s.draws.checksum = .invalid) (k : Nat) :
    inspectFrame h k s = .done () { setLife h .released s with
      held := none, pumpPhase := .waitByte
      history := s.history ++ [.filter h k .accept, .checksum h k .invalid, .release h, .readByte]
      status := some .checksumInvalid, result := .none } := by
  rw [inspectFrame_invalid hf hc, dropFrame_done (by simpa using hl)]
  simp [setLife, record, setPhase]

/-- The consumer takes it. -/
theorem inspectFrame_delivered {s : State} {h : Handle} (hl : lifeOf s h = .ownedByBlock)
    (hf : s.draws.filter = .accept) (hc : s.draws.checksum = .valid) (hi : s.draws.ingest = .ok) (k : Nat) :
    inspectFrame h k s = .done () { setLife h .handedOff s with
      held := none, pumpPhase := .waitByte
      history := s.history ++ [.filter h k .accept, .checksum h k .valid, .ingest h k .ok, .readByte]
      status := some .delivered, result := .none } := by
  rw [inspectFrame_valid hf hc, offerFrame_ok (by simpa using hl) (by simpa using hi)]
  simp [setLife, record, setPhase]

/-- The consumer refuses it. -/
theorem inspectFrame_refused {s : State} {h : Handle} (hl : lifeOf s h = .ownedByBlock)
    (hf : s.draws.filter = .accept) (hc : s.draws.checksum = .valid) (hi : s.draws.ingest = .fail) (k : Nat) :
    inspectFrame h k s = .done () { setLife h .released s with
      held := none, pumpPhase := .waitByte, lostRx := s.lostRx + 1
      history := s.history ++
        [.filter h k .accept, .checksum h k .valid, .ingest h k .fail, .release h, .readByte]
      status := some .ingestionRejected, result := .none } := by
  rw [inspectFrame_valid hf hc, offerFrame_fail (by simpa using hl) (by simpa using hi)]
  simp [setLife, record, setPhase]

/-- Giving an owned or borrowed transmit buffer back. -/
theorem finishSend_done {s : State} {h : Handle} {rel : Bool} (hl : rel = true → lifeOf s h = .ownedByBlock)
    (e : EventCode) :
    finishSend h rel e s = .done () { setLife h (if rel then .released else .untracked) s with
      history := s.history ++ (if rel then [.release h] else []), status := some e, result := .none } := by
  unfold finishSend
  cases rel with
  | false => simp [report]
  | true => simp [releaseBuffer_done (hl rfl), report, record, setLife]

/-- Encoding and submitting a payload that can be read and that fits SCRATCH. -/
theorem encodeAndSubmit_done {s : State} {h : Handle} {p : List Byte} (hm : mayRead s (.pkt h) = true)
    (hc : p.length ≤ capOf s h) (hr : ∀ j b, p[j]? = some b → readByteOf s (.pkt h) j = some b)
    (hs : p.length ≤ s.cfg.maxTxPayload) :
    encodeAndSubmit h p.length s =
      .done () (submit (Safety.frameOf p) (encodedLength p)
        (writtenSpan .scratch 0 (Safety.frameOf p) { s with codec := { s.codec with out := [] } })) := by
  have hle := encodedLength_le p
  unfold encodeAndSubmit
  rw [readSpan_done hm p 0 (by simpa [spaceSize] using hc) (by simpa using hr), andThen_done,
    encodeOp_done hle, andThen_done, writeSpan_done _ 0 _ rfl, andThen_done]
  rw [frameOf_length]
  show 0 + encodedLength p ≤ 2 * s.cfg.maxTxPayload + 2
  omega

end Sys2Proof.Machine
end

