-- ==== Sys2Proof/Laws/Receive.lean ====
section
/-! SUPPORT. What RX_BYTE can do, said once: the state when a frame has been decoded into the acquired buffer, and the
next states of RX_BYTE, one constructor per end of R150. -/

namespace Sys2Proof.Machine

open Sys2Proof.Safety

/-! ## What FEED stores and reads back -/

theorem holds_insert {m : Memory} {bs : List Byte} (h : Holds m 0 bs) (b : Byte) :
    Holds (Table.insert bs.length b m) 0 (bs ++ [b]) := by
  intro j c hc
  rw [Nat.zero_add]
  by_cases hj : j < bs.length
  · rw [List.getElem?_append_left hj] at hc
    rw [lookup_insert_ne (by omega)]
    simpa using h j c hc
  · rw [List.getElem?_append_right (by omega)] at hc
    have : j = bs.length := by
      by_contra hne
      rw [List.getElem?_eq_none (by simp; omega)] at hc; cases hc
    subst this
    simpa using hc

/-- R22: in a state that meets the memory invariant the bytes below FILL are what FEED has stored. -/
theorem stored_exists {s : State} (h : MemoryInv s) : ∃ bs : List Byte, Holds s.acc 0 bs ∧ bs.length = s.fill := by
  have go : ∀ n, (∀ i < n, ∃ b, Table.lookup i s.acc = some b) → ∃ bs : List Byte, Holds s.acc 0 bs ∧ bs.length = n := by
    intro n
    induction n with
    | zero => exact fun _ => ⟨[], fun j b hb => by simp at hb, rfl⟩
    | succ n ih =>
      intro hn
      obtain ⟨bs, hh, hl⟩ := ih fun i hi => hn i (by omega)
      obtain ⟨b, hb⟩ := hn n (by omega)
      refine ⟨bs ++ [b], fun j c hc => ?_, by simp [hl]⟩
      by_cases hj : j < bs.length
      · rw [List.getElem?_append_left hj] at hc; exact hh j c hc
      · rw [List.getElem?_append_right (by omega)] at hc
        have : j = n := by
          by_contra hne
          rw [List.getElem?_eq_none (by simp; omega)] at hc; cases hc
        subst this
        simp [hl] at hc
        rw [Nat.zero_add, hb, hc]
  exact go s.fill h.acc_written

theorem readSpan_acc {s : State} {bs : List Byte} (h : Holds s.acc 0 bs) (hl : bs.length ≤ s.cfg.accCap) :
    readSpan .acc 0 bs.length s = .done bs s :=
  readSpan_done rfl bs 0 (by simpa [spaceSize] using hl)
    (fun j b hb => readByteOf_of_lookup (sp := .acc) (h j b hb))

theorem readByteOf_acc (s : State) (i : Nat) : readByteOf s .acc i = Table.lookup i s.acc := by
  show (match Table.lookup i s.acc with | some b => some b | none => none) = _
  cases Table.lookup i s.acc <;> rfl

/-- R119: DECODE never gives more bytes than it reads. -/
theorem unescape_length_le (r : List Byte) : (unescape r).length ≤ r.length := by
  induction r using unescape.induct <;> unfold unescape <;> simp_all <;> omega

/-! ## A frame taken into a buffer -/

/-- The state after FEED has made a span and the pool has given `h` with capacity `c` (R154, R155). -/
def afterAcquire (s : State) (h : Handle) (c : Nat) : State :=
  takeBuffer h c (record (.acquire (s.fill + 1) (some (h, c))) (setPhase .acquire
    { setPhase .feed (startTransaction s) with
      acc := Table.insert s.fill END s.acc, fill := 0, receiving := false }))

/-- The state after the span `bs ++ [END]` has been decoded into the buffer (R155). -/
def afterDecode (s : State) (bs : List Byte) (h : Handle) (c : Nat) : State :=
  writtenSpan (.pkt h) 0 (unescape (bs ++ [END])) { setPhase .decode (afterAcquire s h c) with codec := Codec.rest }

theorem lifeOf_afterAcquire (s : State) (h : Handle) (c : Nat) (h' : Handle) :
    lifeOf (afterAcquire s h c) h' = if h = h' then .ownedByBlock else lifeOf s h' := by
  unfold afterAcquire takeBuffer
  rw [lifeOf_setLife]; rfl

theorem ownerOf_afterAcquire (s : State) (h : Handle) (c : Nat) (h' : Handle) :
    ownerOf (afterAcquire s h c) h' = if h = h' then some .block else ownerOf s h' := by
  unfold afterAcquire takeBuffer
  rw [ownerOf_setLife]; rfl

theorem capOf_afterAcquire (s : State) (h : Handle) (c : Nat) (h' : Handle) :
    capOf (afterAcquire s h c) h' = if h = h' then c else capOf s h' := by
  unfold afterAcquire takeBuffer
  rw [setLife_capOf, capOf_setCap]; rfl

theorem spaceMem_afterAcquire_self (s : State) (h : Handle) (c : Nat) :
    spaceMem (afterAcquire s h c) (.pkt h) = Table.below c (spaceMem s (.pkt h)) := by
  show spaceMem (setCap h c _) (.pkt h) = _
  rw [spaceMem_setCap_self]; rfl

theorem spaceMem_afterAcquire_ne (s : State) {h h' : Handle} (hne : h' ≠ h) (c : Nat) :
    spaceMem (afterAcquire s h c) (.pkt h') = spaceMem s (.pkt h') := by
  show spaceMem (setCap h c _) (.pkt h') = _
  rw [spaceMem_setCap_ne (fun e => hne (by injection e))]; rfl

theorem lifeOf_afterDecode (s : State) (bs : List Byte) (h : Handle) (c : Nat) (h' : Handle) :
    lifeOf (afterDecode s bs h c) h' = if h = h' then .ownedByBlock else lifeOf s h' := by
  unfold afterDecode; rw [lifeOf_writtenSpan]; exact lifeOf_afterAcquire s h c h'

theorem ownerOf_afterDecode (s : State) (bs : List Byte) (h : Handle) (c : Nat) (h' : Handle) :
    ownerOf (afterDecode s bs h c) h' = if h = h' then some .block else ownerOf s h' := by
  unfold afterDecode; rw [ownerOf_writtenSpan]; exact ownerOf_afterAcquire s h c h'

theorem capOf_afterDecode (s : State) (bs : List Byte) (h : Handle) (c : Nat) (h' : Handle) :
    capOf (afterDecode s bs h c) h' = if h = h' then c else capOf s h' := by
  unfold afterDecode; rw [capOf_writtenSpan]; exact capOf_afterAcquire s h c h'

theorem spaceMem_afterDecode_self (s : State) (bs : List Byte) (h : Handle) (c : Nat) :
    spaceMem (afterDecode s bs h c) (.pkt h) =
      putBytes 0 (unescape (bs ++ [END])) (Table.below c (spaceMem s (.pkt h))) := by
  unfold afterDecode; rw [spaceMem_writtenSpan]
  exact congrArg _ (spaceMem_afterAcquire_self s h c)

theorem spaceMem_afterDecode_ne (s : State) (bs : List Byte) {h h' : Handle} (hne : h' ≠ h) (c : Nat) :
    spaceMem (afterDecode s bs h c) (.pkt h') = spaceMem s (.pkt h') := by
  unfold afterDecode; rw [spaceMem_writtenSpan_ne (fun e => hne (by injection e))]
  exact spaceMem_afterAcquire_ne s hne c

section AfterDecode
variable (s : State) (bs : List Byte) (h : Handle) (c : Nat)

@[simp] theorem afterDecode_cfg : (afterDecode s bs h c).cfg = s.cfg := by simp [afterDecode]; rfl
@[simp] theorem afterDecode_acc : (afterDecode s bs h c).acc = Table.insert s.fill END s.acc := by
  simp [afterDecode]; rfl
@[simp] theorem afterDecode_fill : (afterDecode s bs h c).fill = 0 := by simp [afterDecode]; rfl
@[simp] theorem afterDecode_receiving : (afterDecode s bs h c).receiving = false := by simp [afterDecode]; rfl
@[simp] theorem afterDecode_lostRx : (afterDecode s bs h c).lostRx = s.lostRx := by simp [afterDecode]; rfl
@[simp] theorem afterDecode_fault : (afterDecode s bs h c).fault = s.fault := by simp [afterDecode]; rfl
@[simp] theorem afterDecode_faultInfo : (afterDecode s bs h c).faultInfo = s.faultInfo := by
  simp [afterDecode]; rfl
@[simp] theorem afterDecode_scratch : (afterDecode s bs h c).scratch = s.scratch := by simp [afterDecode]; rfl
@[simp] theorem afterDecode_codec : (afterDecode s bs h c).codec = Codec.rest := by simp [afterDecode]
@[simp] theorem afterDecode_life : (afterDecode s bs h c).life = Table.insert h .ownedByBlock s.life := by
  simp [afterDecode]; rfl
@[simp] theorem afterDecode_owner : (afterDecode s bs h c).owner = Table.insert h .block s.owner := by
  simp [afterDecode]; rfl
@[simp] theorem afterDecode_td : (afterDecode s bs h c).td = s.td := by simp [afterDecode]; rfl
@[simp] theorem afterDecode_caps : (afterDecode s bs h c).caps = Table.insert h c s.caps := by
  simp [afterDecode]; rfl
@[simp] theorem afterDecode_history :
    (afterDecode s bs h c).history = s.history ++ [.acquire (s.fill + 1) (some (h, c))] := by
  simp [afterDecode]; rfl
@[simp] theorem afterDecode_inflight : (afterDecode s bs h c).inflight = s.inflight := by simp [afterDecode]; rfl
@[simp] theorem afterDecode_wire : (afterDecode s bs h c).wire = s.wire := by simp [afterDecode]; rfl
@[simp] theorem afterDecode_fields : (afterDecode s bs h c).fields = s.fields := by simp [afterDecode]; rfl
@[simp] theorem afterDecode_draws : (afterDecode s bs h c).draws = s.draws := by simp [afterDecode]; rfl
@[simp] theorem afterDecode_inbox : (afterDecode s bs h c).inbox = s.inbox := by simp [afterDecode]; rfl

end AfterDecode

/-- RX_BYTE(END) on a stored span with a buffer of any capacity, up to DECODE's own check. -/
theorem rxByte_span {s : State} {bs : List Byte} {h : Handle} {c : Nat} (hf : s.fault = .none)
    (hst : Holds s.acc 0 bs) (hl : bs.length = s.fill) (h0 : 0 < s.fill) (hr : s.fill < s.cfg.accCap)
    (ha : s.draws.acquire = some (h, c)) :
    exec (.rxByte END) s =
      ((decodeOp (bs ++ [END]) c (setPhase .decode (afterAcquire s h c))).andThen fun out s =>
        (writeSpan (.pkt h) 0 out s).andThen fun _ s => inspectFrame h out.length s).close := by
  have hread := readSpan_acc (s := setPhase .decode (afterAcquire s h c)) (bs := bs ++ [END])
    (by show Holds (Table.insert s.fill END s.acc) 0 _; rw [← hl]; exact holds_insert hst END)
    (by show _ ≤ s.cfg.accCap; simp [hl]; exact hr)
  simp only [List.length_append, List.length_singleton, hl] at hread
  have hfeed := feedOp_frame (s := setPhase .feed (startTransaction s)) hr h0
  simp only [exec, execRxByte, transact, whenRunning_running hf, hfeed, andThen_done]
  rw [acquireForFrame_some (h := h) (c := c) (by exact ha)]
  show (decodeFrame h (s.fill + 1) (afterAcquire s h c)).close = _
  unfold decodeFrame
  rw [hread, andThen_done, setPhase_capOf, capOf_afterAcquire, if_pos rfl]

/-- With a buffer that is large enough the frame is decoded into it and inspected (R155). -/
theorem rxByte_taken {s : State} {bs : List Byte} {h : Handle} {c : Nat} (hf : s.fault = .none)
    (hst : Holds s.acc 0 bs) (hl : bs.length = s.fill) (h0 : 0 < s.fill) (hr : s.fill < s.cfg.accCap)
    (ha : s.draws.acquire = some (h, c)) (hc : s.fill + 1 ≤ c) :
    exec (.rxByte END) s = (inspectFrame h (unescape (bs ++ [END])).length (afterDecode s bs h c)).close := by
  have hlen : (bs ++ [END]).length = s.fill + 1 := by simp [hl]
  have hle := unescape_length_le (bs ++ [END])
  rw [rxByte_span hf hst hl h0 hr ha, decodeOp_done (by rw [hlen]; exact hc), andThen_done, writeSpan_done,
    andThen_done]
  · rfl
  · have := lifeOf_afterAcquire s h c h
    rw [if_pos rfl] at this
    show (lifeOf (afterAcquire s h c) h == .ownedByBlock) = true
    rw [this]; rfl
  · show 0 + _ ≤ capOf (afterAcquire s h c) h
    rw [capOf_afterAcquire, if_pos rfl]; omega

/-! ## The next states of RX_BYTE -/

/-- R150: every next state of RX_BYTE(b), by the branch that ends in it. The three `leak` ends are those of R203: a
buffer was held when the transaction began, which no run reaches. -/
inductive RxEnd (s : State) : Byte → State → Prop where
  | overflow (b : Byte) (hh : s.held = none) (hr : s.cfg.accCap < s.fill + 1) : RxEnd s b
      { s with
        fill := 0, receiving := false, lostRx := s.lostRx + 1, pumpPhase := .waitByte
        status := some .overflow, result := .none
        history := s.history ++ [.readByte] }
  | stored (b : Byte) (hh : s.held = none) (hr : s.fill < s.cfg.accCap) (hb : b ≠ END ∨ s.fill = 0) : RxEnd s b
      { s with
        acc := Table.insert s.fill b s.acc, fill := s.fill + 1, receiving := true, pumpPhase := .waitByte
        status := some .incomplete, result := .none, history := s.history ++ [.readByte] }
  | noBuffer (hh : s.held = none) (hr : s.fill < s.cfg.accCap) (h0 : 0 < s.fill) (ha : s.draws.acquire = none) :
      RxEnd s END
      { s with
        acc := Table.insert s.fill END s.acc, fill := 0, receiving := false, lostRx := s.lostRx + 1
        pumpPhase := .waitByte
        status := some .poolExhausted, result := .none
        history := s.history ++ [.acquire (s.fill + 1) none, .readByte] }
  | leakOverflow (b : Byte) (h : Handle) (hh : s.held = some h) (hr : s.cfg.accCap < s.fill + 1) : RxEnd s b
      { s with
        fill := 0, receiving := false, lostRx := s.lostRx + 1, pumpPhase := .feed, status := none, result := .none
        fault := .lifecycleViolation, faultInfo := .handle h }
  | leakStored (b : Byte) (h : Handle) (hh : s.held = some h) (hr : s.fill < s.cfg.accCap)
      (hb : b ≠ END ∨ s.fill = 0) : RxEnd s b
      { s with
        acc := Table.insert s.fill b s.acc, fill := s.fill + 1, receiving := true, pumpPhase := .feed
        status := none, result := .none
        fault := .lifecycleViolation, faultInfo := .handle h }
  | leakNoBuffer (h : Handle) (hh : s.held = some h) (hr : s.fill < s.cfg.accCap) (h0 : 0 < s.fill)
      (ha : s.draws.acquire = none) : RxEnd s END
      { s with
        acc := Table.insert s.fill END s.acc, fill := 0, receiving := false, lostRx := s.lostRx + 1, pumpPhase := .acquire
        status := none, result := .none, history := s.history ++ [.acquire (s.fill + 1) none]
        fault := .lifecycleViolation, faultInfo := .handle h }
  | tooSmall (h : Handle) (c : Nat) (hr : s.fill < s.cfg.accCap) (h0 : 0 < s.fill)
      (ha : s.draws.acquire = some (h, c)) (hc : c < s.fill + 1) : RxEnd s END
      { setPhase .decode (afterAcquire s h c) with
        fault := .decodeDstTooSmall, faultInfo := .sizes (s.fill + 1) c }
  | filteredOut (bs : List Byte) (h : Handle) (c : Nat) (hr : s.fill < s.cfg.accCap) (h0 : 0 < s.fill)
      (ha : s.draws.acquire = some (h, c)) (hc : s.fill + 1 ≤ c) (hst : Holds s.acc 0 bs)
      (hl : bs.length = s.fill) (hf : s.draws.filter = .reject) : RxEnd s END
      { setLife h .released (afterDecode s bs h c) with
        held := none, pumpPhase := .waitByte, status := some .filteredOut, result := .none
        history := (afterDecode s bs h c).history ++
          [.filter h (unescape (bs ++ [END])).length .reject, .release h, .readByte] }
  | checksumInvalid (bs : List Byte) (h : Handle) (c : Nat) (hr : s.fill < s.cfg.accCap) (h0 : 0 < s.fill)
      (ha : s.draws.acquire = some (h, c)) (hc : s.fill + 1 ≤ c) (hst : Holds s.acc 0 bs)
      (hl : bs.length = s.fill) (hf : s.draws.filter = .accept) (hk : s.draws.checksum = .invalid) : RxEnd s END
      { setLife h .released (afterDecode s bs h c) with
        held := none, pumpPhase := .waitByte, status := some .checksumInvalid, result := .none
        history := (afterDecode s bs h c).history ++
          [.filter h (unescape (bs ++ [END])).length .accept,
            .checksum h (unescape (bs ++ [END])).length .invalid, .release h, .readByte] }
  | delivered (bs : List Byte) (h : Handle) (c : Nat) (hr : s.fill < s.cfg.accCap) (h0 : 0 < s.fill)
      (ha : s.draws.acquire = some (h, c)) (hc : s.fill + 1 ≤ c) (hst : Holds s.acc 0 bs)
      (hl : bs.length = s.fill) (hf : s.draws.filter = .accept) (hk : s.draws.checksum = .valid)
      (hi : s.draws.ingest = .ok) : RxEnd s END
      { setLife h .handedOff (afterDecode s bs h c) with
        held := none, pumpPhase := .waitByte, status := some .delivered, result := .none
        history := (afterDecode s bs h c).history ++
          [.filter h (unescape (bs ++ [END])).length .accept,
            .checksum h (unescape (bs ++ [END])).length .valid,
            .ingest h (unescape (bs ++ [END])).length .ok, .readByte] }
  | refused (bs : List Byte) (h : Handle) (c : Nat) (hr : s.fill < s.cfg.accCap) (h0 : 0 < s.fill)
      (ha : s.draws.acquire = some (h, c)) (hc : s.fill + 1 ≤ c) (hst : Holds s.acc 0 bs)
      (hl : bs.length = s.fill) (hf : s.draws.filter = .accept) (hk : s.draws.checksum = .valid)
      (hi : s.draws.ingest = .fail) : RxEnd s END
      { setLife h .released (afterDecode s bs h c) with
        held := none, pumpPhase := .waitByte, lostRx := (afterDecode s bs h c).lostRx + 1
        status := some .ingestionRejected, result := .none
        history := (afterDecode s bs h c).history ++
          [.filter h (unescape (bs ++ [END])).length .accept,
            .checksum h (unescape (bs ++ [END])).length .valid,
            .ingest h (unescape (bs ++ [END])).length .fail, .release h, .readByte] }

theorem afterDecode_owned (s : State) (bs : List Byte) (h : Handle) (c : Nat) :
    lifeOf (afterDecode s bs h c) h = .ownedByBlock := by rw [lifeOf_afterDecode, if_pos rfl]

/-- The frame branch, from the span that FEED stored. -/
theorem rxByte_frame_next {s t : State} {bs : List Byte} (hf : s.fault = .none) (hst : Holds s.acc 0 bs)
    (hl : bs.length = s.fill) (h0 : 0 < s.fill) (hr : s.fill < s.cfg.accCap) {h : Handle} {c : Nat}
    (ha : s.draws.acquire = some (h, c)) (ht : exec (.rxByte END) s = .next t) : RxEnd s END t := by
  by_cases hc : s.fill + 1 ≤ c
  · rw [rxByte_taken hf hst hl h0 hr ha hc] at ht
    have ho := afterDecode_owned s bs h c
    have hd := afterDecode_draws s bs h c
    cases hfl : s.draws.filter with
    | reject =>
      rw [inspectFrame_filteredOut ho (by rw [hd]; exact hfl)] at ht
      cases ht
      exact .filteredOut bs h c hr h0 ha hc hst hl hfl
    | accept =>
      cases hk : s.draws.checksum with
      | invalid =>
        rw [inspectFrame_checksumInvalid ho (by rw [hd]; exact hfl) (by rw [hd]; exact hk)] at ht
        cases ht
        exact .checksumInvalid bs h c hr h0 ha hc hst hl hfl hk
      | valid =>
        cases hi : s.draws.ingest with
        | ok =>
          rw [inspectFrame_delivered ho (by rw [hd]; exact hfl) (by rw [hd]; exact hk) (by rw [hd]; exact hi)] at ht
          cases ht
          exact .delivered bs h c hr h0 ha hc hst hl hfl hk hi
        | fail =>
          rw [inspectFrame_refused ho (by rw [hd]; exact hfl) (by rw [hd]; exact hk) (by rw [hd]; exact hi)] at ht
          cases ht
          exact .refused bs h c hr h0 ha hc hst hl hfl hk hi
  · have hlen : (bs ++ [END]).length = s.fill + 1 := by simp [hl]
    rw [rxByte_span hf hst hl h0 hr ha, decodeOp_raised (by rw [hlen]; omega), andThen_raised, close_raised,
      recordFault_running (by exact hf), hlen] at ht
    cases ht
    exact .tooSmall h c hr h0 ha (by omega)

/-- The frame branch stops where a byte below FILL was never written, which no run reaches (R22). -/
theorem rxByte_unwritten {s : State} {h : Handle} {c : Nat} (hf : s.fault = .none) (h0 : 0 < s.fill)
    (hr : s.fill < s.cfg.accCap) (ha : s.draws.acquire = some (h, c)) :
    (∃ bs : List Byte, Holds s.acc 0 bs ∧ bs.length = s.fill) ∨ ∃ f, exec (.rxByte END) s = .fault f := by
  have hread := readSpan_inside (sp := .acc) (s := setPhase .decode (afterAcquire s h c)) rfl (s.fill + 1) 0
    (by show 0 + (s.fill + 1) ≤ s.cfg.accCap; omega)
  cases hrd : readSpan .acc 0 (s.fill + 1) (setPhase .decode (afterAcquire s h c)) with
  | done bs u =>
    rw [hrd] at hread
    obtain ⟨-, hlen, hb⟩ := hread
    refine .inl ⟨bs.take s.fill, fun j b hj => ?_, by simp [hlen]⟩
    have hj' : j < s.fill := by
      by_contra hn
      rw [List.getElem?_eq_none (by simp; omega)] at hj; cases hj
    rw [List.getElem?_take_of_lt hj'] at hj
    have := hb j b hj
    rw [readByteOf_acc] at this
    have e : (setPhase .decode (afterAcquire s h c)).acc = Table.insert s.fill END s.acc := rfl
    rwa [e, Nat.zero_add, lookup_insert_ne (by omega), ← Nat.zero_add j] at this
  | raised u => rw [hrd] at hread; exact hread.elim
  | stopped f =>
    refine .inr ⟨f, ?_⟩
    have hfeed := feedOp_frame (s := setPhase .feed (startTransaction s)) hr h0
    simp only [exec, execRxByte, transact, whenRunning_running hf, hfeed, andThen_done]
    rw [acquireForFrame_some (h := h) (c := c) (by exact ha)]
    show (decodeFrame h (s.fill + 1) (afterAcquire s h c)).close = _
    unfold decodeFrame
    rw [hrd]; rfl

/-- Every next state of RX_BYTE is one of the ends of R150; the block was running. -/
theorem rxByte_next {s t : State} {b : Byte} (ht : exec (.rxByte b) s = .next t) :
    s.fault = .none ∧ RxEnd s b t := by
  have hf : s.fault = .none := by
    by_contra hn
    simp only [exec, execRxByte, transact, whenRunning_stopped hn] at ht
    cases ht
  refine ⟨hf, ?_⟩
  rcases feedOp_cases b (setPhase .feed (startTransaction s)) with ⟨hr, he⟩ | ⟨hr, hb, he⟩ | ⟨hr, rfl, h0, he⟩
  · simp only [exec, execRxByte, transact, whenRunning_running hf, he, andThen_done] at ht
    cases hh : s.held with
    | none =>
      rw [finishRx_done (by exact hh)] at ht
      cases ht
      exact .overflow b hh hr
    | some h =>
      rw [finishRx_raised (h := h) (by exact hh), recordFault_running (by exact hf)] at ht
      cases ht
      exact .leakOverflow b h hh hr
  · simp only [exec, execRxByte, transact, whenRunning_running hf, he, andThen_done] at ht
    cases hh : s.held with
    | none =>
      rw [finishRx_done (by exact hh)] at ht
      cases ht
      exact .stored b hh hr hb
    | some h =>
      rw [finishRx_raised (h := h) (by exact hh), recordFault_running (by exact hf)] at ht
      cases ht
      exact .leakStored b h hh hr hb
  · cases ha : s.draws.acquire with
    | none =>
      simp only [exec, execRxByte, transact, whenRunning_running hf, he, andThen_done] at ht
      rw [acquireForFrame_none (by exact ha)] at ht
      cases hh : s.held with
      | none =>
        rw [finishRx_done (by exact hh), close_done] at ht
        obtain rfl := Host.Outcome.next.inj ht
        have := RxEnd.noBuffer hh hr h0 ha
        simpa [countLost, record, setPhase, startTransaction] using this
      | some h =>
        rw [finishRx_raised (h := h) (by exact hh), recordFault_running (by exact hf), close_raised] at ht
        obtain rfl := Host.Outcome.next.inj ht
        exact .leakNoBuffer h hh hr h0 ha
    | some p =>
      obtain ⟨h, c⟩ := p
      rcases rxByte_unwritten (c := c) hf h0 hr ha with ⟨bs, hst, hl⟩ | ⟨f, he⟩
      · exact rxByte_frame_next hf hst hl h0 hr ha ht
      · rw [he] at ht; cases ht

end Sys2Proof.Machine
end

