-- ==== Sys2Proof/Laws/Commands.lean ====
section
/-! SUPPORT. What each of the other instructions can do, said once: the next states of ENCODE, DECODE, FEED,
READ_STATUS, ILLEGAL and of the symbol rows. -/

namespace Sys2Proof.Machine

open Sys2Proof.Safety

/-- R100, R102: the next states of ENCODE. -/
theorem encode_next {s t : State} (ht : exec .encode s = .next t) :
    s.fault = .none ∧
    (t = { s with
        codec := { s.codec with out := [] }, status := some .ok
        result := .encoded (frameOf s.fields.payload) (encodedLength s.fields.payload) } ∨
      t = { s with
        fault := .bufferTooSmall, faultInfo := .sizes (encodedLength s.fields.payload) s.fields.dstCap
        status := none, result := .none }) := by
  simp only [exec, execEncode] at ht
  refine transact_next ht (P := fun t => t = _ ∨ t = _) fun hf => ?_
  by_cases h : encodedLength s.fields.payload ≤ s.fields.dstCap
  · rw [encodeOp_done (by exact h)]; exact .inl rfl
  · rw [encodeOp_raised (by show s.fields.dstCap < encodedLength s.fields.payload; omega),
      recordFault_running (by exact hf)]
    exact .inr rfl

/-- R110, R117: the next states of DECODE. -/
theorem decode_next {s t : State} (ht : exec .decode s = .next t) :
    s.fault = .none ∧
    (t = { s with
        codec := Codec.rest, status := some .ok
        result := .decoded (unescape s.fields.raw) (unescape s.fields.raw).length } ∨
      t = { s with
        fault := .decodeDstTooSmall, faultInfo := .sizes s.fields.raw.length s.fields.dstCap
        status := none, result := .none }) := by
  simp only [exec, execDecode] at ht
  refine transact_next ht (P := fun t => t = _ ∨ t = _) fun hf => ?_
  by_cases h : s.fields.raw.length ≤ s.fields.dstCap
  · rw [decodeOp_done (by exact h)]; exact .inl rfl
  · rw [decodeOp_raised (by show s.fields.dstCap < s.fields.raw.length; omega), recordFault_running (by exact hf)]
    exact .inr rfl

/-- R83: the next state of ILLEGAL. -/
theorem illegal_next {s t : State} {w : Word} (ht : exec (.illegal w) s = .next t) :
    s.fault = .none ∧
    t = { s with fault := .illegalCommand, faultInfo := .word w, status := none, result := .none } := by
  simp only [exec, execIllegal] at ht
  refine transact_next ht (P := fun t => t = _) fun hf => ?_
  simp only [raise]
  rw [recordFault_running (by exact hf)]
  rfl

/-- R230: the next state of READ_STATUS. -/
theorem readStatus_next {s t : State} (ht : exec .readStatus s = .next t) :
    s.fault = .none ∧
    t = { s with status := some .ok, result := .block s.fill s.lostRx s.fault s.td.pending } := by
  simp only [exec, execReadStatus] at ht
  exact transact_next ht (P := fun t => t = _) fun _ => rfl

/-- R130: every next state of FEED(b), by the outcome that ends in it. -/
inductive FeedEnd (s : State) : Byte → State → Prop where
  | overflow (b : Byte) (hr : s.cfg.accCap < s.fill + 1) : FeedEnd s b
      { s with fill := 0, receiving := false, status := some .overflow, result := .none }
  | stored (b : Byte) (hr : s.fill < s.cfg.accCap) (hb : b ≠ END ∨ s.fill = 0) : FeedEnd s b
      { s with
        acc := Table.insert s.fill b s.acc, fill := s.fill + 1, status := some .incomplete, result := .none }
  | frame (span : List Byte) (hr : s.fill < s.cfg.accCap) (h0 : 0 < s.fill) (hl : span.length = s.fill + 1)
      (hs : Holds (Table.insert s.fill END s.acc) 0 span) : FeedEnd s END
      { s with
        acc := Table.insert s.fill END s.acc, fill := 0, receiving := false, status := some .frameReady
        result := .frame 0 (s.fill + 1) span }

/-- R130: every next state of FEED is one of these; the block was running. -/
theorem feed_next {s t : State} {b : Byte} (ht : exec (.feed b) s = .next t) : s.fault = .none ∧ FeedEnd s b t := by
  simp only [exec, execFeed] at ht
  refine transact_next ht (P := FeedEnd s b) fun hf => ?_
  rcases feedOp_cases b (startTransaction s) with ⟨hr, he⟩ | ⟨hr, hb, he⟩ | ⟨hr, rfl, h0, he⟩
  · rw [he]; exact .overflow b hr
  · rw [he]; exact .stored b hr hb
  · rw [he, andThen_done]
    have hr' : s.fill < s.cfg.accCap := hr
    have hspan := readSpan_inside (sp := .acc)
      (s := { startTransaction s with acc := Table.insert s.fill END s.acc, fill := 0, receiving := false }) rfl
      (s.fill + 1) 0
      (by show 0 + (s.fill + 1) ≤ s.cfg.accCap; omega)
    refine ends_andThen (ends_mono hspan (fun _ _ h => h) fun _ h => h.elim) ?_
    rintro bs u ⟨rfl, hl, hb⟩
    refine .frame bs hr h0 hl fun j b hj => ?_
    have := hb j b hj
    rwa [readByteOf_acc] at this

/-- The codec operation of a symbol row. -/
def symbolOp : Instr → Option (Codec → Codec)
  | .encode => none
  | .decode => none
  | .feed _ => none
  | .send _ => none
  | .readStatus => none
  | .illegal _ => none
  | .rxByte _ => none
  | .encEnd => some Codec.encEnd
  | .encEsc => some Codec.encEsc
  | .encLit b => some (Codec.encLit b)
  | .decNEnd => some Codec.decNEnd
  | .decNEsc => some Codec.decNEsc
  | .decNLit b => some (Codec.decNLit b)
  | .decEEscEnd => some Codec.decEEscEnd
  | .decEEscEsc => some Codec.decEEscEsc
  | .decELit b => some (Codec.decELit b)
  | .decEoiEscaped => some Codec.decEoiEscaped

/-- R73, R74: the next state of a symbol row. -/
theorem symbol_next {i : Instr} {f : Codec → Codec} {s t : State} (hi : symbolOp i = some f)
    (ht : exec i s = .next t) : s.fault = .none ∧ t = { s with codec := f s.codec } := by
  cases i <;> simp only [symbolOp, reduceCtorEq, Option.some.injEq] at hi <;> subst hi <;> exact symbolStep_next ht

end Sys2Proof.Machine
end

