-- ==== Sys2Proof/Laws/Decode.lean ====
section
/-! SUPPORT. The decoder format by format, and the two command rows that carry a field. -/

namespace Sys2Proof

theorem decode_tooWide {f : Format} {w : Nat} (h : 2 ^ formatWidth f ≤ w) : decode f w = .error (.tooWide f) := by
  unfold decode; rw [if_pos h]

theorem decode_cmd {w : Nat} (h : w < 2 ^ 32) : decode .cmd w = .ok (decodeCmd (BitVec.ofNat 32 w)) := by
  unfold decode; rw [if_neg (by show ¬ 2 ^ 32 ≤ w; omega)]

theorem decode_rxPort {w : Nat} (h : w < 2 ^ 8) : decode .rxPort w = .ok (.rxByte (BitVec.ofNat 8 w)) := by
  unfold decode; rw [if_neg (by show ¬ 2 ^ 8 ≤ w; omega)]

theorem decode_encSym {w : Nat} (h : w < 2 ^ 8) : decode .encSym w = .ok (decodeEncSym (BitVec.ofNat 8 w)) := by
  unfold decode; rw [if_neg (by show ¬ 2 ^ 8 ≤ w; omega)]

theorem decode_decSym {w : Nat} (h : w < 2 ^ 9) :
    decode .decSym w = .ok (decodeDecSym (w.testBit 8) (BitVec.ofNat 8 w)) := by
  unfold decode; rw [if_neg (by show ¬ 2 ^ 9 ≤ w; omega)]

theorem decode_decEoi_one : decode .decEoi 1 = .ok .decEoiEscaped := rfl
theorem decode_decEoi_zero : decode .decEoi 0 = .error (.noRow .decEoi) := rfl

/-- A FEED word is its IMM8 shifted into place with OP 3 (R81, R82). -/
theorem feed_word {w : Word} (h : w &&& 0xFFFF00FF#32 = 3#32) : (w.extractLsb' 8 8).toNat * 256 + 3 = w.toNat := by
  have e : w = ((w.extractLsb' 8 8).setWidth 32 <<< 8) ||| 3#32 := by
    apply BitVec.eq_of_getLsbD_eq
    intro i hi
    have hb := congrArg (fun x => BitVec.getLsbD x i) h
    simp only [BitVec.getLsbD_and] at hb
    interval_cases i <;> revert hb <;> simp
  have d : ∀ x : BitVec 8, (x.setWidth 32 <<< 8 ||| 3#32).toNat = x.toNat * 256 + 3 := by decide
  rw [← d, ← e]

/-- A SEND word is OP 4 with or without REL (R81, R82). -/
theorem send_word {w : Word} (h : w &&& 0xFFFFFFEF#32 = 4#32) : w.toNat = if w.getLsbD 4 then 20 else 4 := by
  have e : w = if w.getLsbD 4 then 20#32 else 4#32 := by
    apply BitVec.eq_of_getLsbD_eq
    intro i hi
    have hb := congrArg (fun x => BitVec.getLsbD x i) h
    simp only [BitVec.getLsbD_and] at hb
    cases h4 : w.getLsbD 4 <;> interval_cases i <;> revert hb <;> first | (simp; done) | (simp at h4; simp [h4])
  cases h4 : w.getLsbD 4 <;> rw [h4] at e <;> simp [e]

end Sys2Proof
end

