-- ==== Sys2Proof/Laws/Form.lean ====
section
/-! SUPPORT. The canonical form of everything kept by number: it holds at reset, and every operation over memory, the
capacities and the ledger keeps it (log entry 21). -/

namespace Sys2Proof.Machine

/-- What an insertion into a rising table leaves there: the new entry, and the others. -/
theorem mem_insert_rising {α : Type} {p : Nat × α} {k : Nat} {a : α} {t : List (Nat × α)} (hr : Table.Rising t)
    (h : p ∈ Table.insert k a t) : p = (k, a) ∨ (p ∈ t ∧ p.1 ≠ k) := by
  obtain ⟨j, b⟩ := p
  have := lookup_of_mem (rising_insert k a hr) h
  rw [lookup_insert] at this
  split at this
  · next he => subst he; simp at this; subst this; exact .inl rfl
  · next he => exact .inr ⟨mem_of_lookup this, Ne.symm he⟩

theorem mem_erase {α : Type} {p : Nat × α} {k : Nat} {t : List (Nat × α)} (h : p ∈ Table.erase k t) :
    p ∈ t ∧ p.1 ≠ k := by
  unfold Table.erase at h; simpa using h

/-- The packet buffers are in canonical form: listed by rising handle, each with at least one byte and none outside
its capacity. -/
def PktForm (s : State) : Prop :=
  Table.Rising s.pkt ∧ ∀ p ∈ s.pkt, p.2 ≠ [] ∧ Memory.wf (capOf s p.1) p.2

/-- The ledger is in canonical form: listed by rising handle, and UNTRACKED is not listed. -/
def LifeForm (s : State) : Prop := Table.Rising s.life ∧ ∀ p ∈ s.life, p.2 ≠ .untracked

/-- Every byte space is in canonical form. -/
def SpaceForm (s : State) : Prop := ∀ sp, Memory.wf (spaceSize s sp) (spaceMem s sp)

theorem pktForm_congr {s t : State} (h : PktForm s) (h1 : t.pkt = s.pkt) (h2 : t.caps = s.caps) : PktForm t := by
  unfold PktForm capOf at *; rw [h1, h2]; exact h

theorem lifeForm_congr {s t : State} (h : LifeForm s) (h1 : t.life = s.life) : LifeForm t := by
  unfold LifeForm at *; rw [h1]; exact h

theorem pktForm_mem {s : State} (h : PktForm s) (k : Handle) : Memory.wf (capOf s k) (spaceMem s (.pkt k)) := by
  show Memory.wf (capOf s k) ((Table.lookup k s.pkt).getD [])
  cases hl : Table.lookup k s.pkt with
  | none => exact ⟨by simp [Table.Rising], by simp⟩
  | some m => exact (h.2 _ (mem_of_lookup hl)).2

theorem pktForm_setSpaceMem {s : State} (h : PktForm s) (k : Handle) {m : Memory} (hm : Memory.wf (capOf s k) m) :
    PktForm (setSpaceMem (.pkt k) m s) := by
  change Table.Rising (if m = [] then Table.erase k s.pkt else Table.insert k m s.pkt) ∧
    ∀ p ∈ (if m = [] then Table.erase k s.pkt else Table.insert k m s.pkt), p.2 ≠ [] ∧ Memory.wf (capOf s p.1) p.2
  split
  · exact ⟨rising_erase _ h.1, fun p hp => h.2 p (mem_erase hp).1⟩
  · next hne =>
    refine ⟨rising_insert _ _ h.1, fun p hp => ?_⟩
    rcases mem_insert_rising h.1 hp with rfl | ⟨hp, -⟩
    · exact ⟨hne, hm⟩
    · exact h.2 p hp

theorem pktForm_setCap {s : State} (h : PktForm s) (k : Handle) (c : Nat) : PktForm (setCap k c s) := by
  have hm := pktForm_mem h k
  have hcap := capOf_setCap k c s
  have hpkt : (setCap k c s).pkt =
      if Table.below c (spaceMem s (.pkt k)) = [] then Table.erase k s.pkt
      else Table.insert k (Table.below c (spaceMem s (.pkt k))) s.pkt := rfl
  unfold PktForm
  rw [hpkt]
  split
  · refine ⟨rising_erase _ h.1, fun p hp => ?_⟩
    obtain ⟨hp, hk⟩ := mem_erase hp
    rw [hcap, if_neg (Ne.symm hk)]; exact h.2 p hp
  · next hne =>
    refine ⟨rising_insert _ _ h.1, fun p hp => ?_⟩
    rcases mem_insert_rising h.1 hp with rfl | ⟨hp, hk⟩
    · rw [hcap, if_pos rfl]; exact ⟨hne, wf_below c hm.1⟩
    · rw [hcap, if_neg (Ne.symm hk)]; exact h.2 p hp

theorem pktForm_writtenSpan {s : State} (h : PktForm s) (k : Handle) (bs : List Byte) (i : Nat)
    (hi : i + bs.length ≤ capOf s k) : PktForm (writtenSpan (.pkt k) i bs s) := by
  induction bs generalizing s i with
  | nil => exact h
  | cons b bs ih =>
    simp only [List.length_cons] at hi
    exact ih (pktForm_setSpaceMem h k (wf_insert b (by omega) (pktForm_mem h k))) (i + 1)
      (by rw [capOf_setSpaceMem]; omega)

theorem lifeForm_setLife {s : State} (h : LifeForm s) (k : Handle) (v : Life) : LifeForm (setLife k v s) := by
  change Table.Rising (if v = .untracked then Table.erase k s.life else Table.insert k v s.life) ∧
    ∀ p ∈ (if v = .untracked then Table.erase k s.life else Table.insert k v s.life), p.2 ≠ .untracked
  split
  · exact ⟨rising_erase _ h.1, fun p hp => h.2 p (mem_erase hp).1⟩
  · next hv =>
    refine ⟨rising_insert _ _ h.1, fun p hp => ?_⟩
    rcases mem_insert_rising h.1 hp with rfl | ⟨hp, -⟩
    · exact hv
    · exact h.2 p hp

/-- R11: a new owner keeps the ledger of owners rising. -/
theorem rising_setOwner {s : State} (h : Table.Rising s.owner) (k : Handle) (o : Owner) :
    Table.Rising (setOwner k o s).owner := rising_insert k o h

theorem rising_setLife_owner {s : State} (h : Table.Rising s.owner) (k : Handle) (v : Life) :
    Table.Rising (setLife k v s).owner := rising_insert k (ownerAfter v) h

theorem rising_forgetHeld {t : List (Handle × Owner)} (h : Table.Rising t) : Table.Rising (forgetHeld t) := by
  unfold Table.Rising forgetHeld at *
  rwa [List.map_map]

/-- A byte write keeps the form of every space; where it raises, no byte is written. -/
theorem memWrite_spaceForm (sp : Space) (i : Nat) (v : Byte) {s : State} (h : SpaceForm s) :
    (memWrite sp i v s).Ends (fun _ => SpaceForm) SpaceForm := by
  refine ends_mono (memWrite_ends sp i v s) ?_ ?_
  · rintro _ t ⟨rfl, hi, -⟩ sq
    rw [spaceSize_setSpaceMem]
    by_cases he : sq = sp
    · subst he; rw [spaceMem_setSpaceMem_self]; exact wf_insert v hi (h sq)
    · rw [spaceMem_setSpaceMem_ne he]; exact h sq
  · rintro t rfl sq
    have e1 : spaceSize (recordFault .lifecycleViolation (.access sp i) s) sq = spaceSize s sq := by
      cases sq <;> simp [spaceSize, capOf]
    have e2 : spaceMem (recordFault .lifecycleViolation (.access sp i) s) sq = spaceMem s sq := by
      cases sq <;> simp [spaceMem]
    rw [e1, e2]; exact h sq

/-- The pool's answer keeps the form of every space. -/
theorem setCap_spaceForm (k : Handle) (c : Nat) {s : State} (h : SpaceForm s) : SpaceForm (setCap k c s) := by
  intro sq
  by_cases he : sq = .pkt k
  · subst he
    rw [spaceMem_setCap_self]
    change Memory.wf (capOf (setCap k c s) k) _
    rw [capOf_setCap, if_pos rfl]
    exact wf_below c (h (.pkt k)).1
  · rw [spaceMem_setCap_ne he]
    have e : spaceSize (setCap k c s) sq = spaceSize s sq := by
      cases sq with
      | acc => rfl
      | scratch => rfl
      | pkt k' =>
        have : k ≠ k' := fun e => he (by rw [e])
        change capOf (setCap k c s) k' = capOf s k'
        rw [capOf_setCap, if_neg this]
    rw [e]; exact h sq

/-- The memory of the reset state has the form, under every configuration. -/
theorem resetWith_spaceForm (c : Config) : SpaceForm (State.resetWith c) := by
  intro sp
  cases sp <;> exact ⟨List.Pairwise.nil, fun p hp => absurd hp List.not_mem_nil⟩

theorem reset_spaceForm : SpaceForm State.reset := resetWith_spaceForm _

end Sys2Proof.Machine
end

