-- ==== Sys2Proof/Laws/PerInstr.lean ====
section
/-! SUPPORT. The statement made of every instruction as syntax: the word of a well-formed instruction is as wide as its
format, no wider. One lemma per constructor. -/

namespace Sys2Proof.Laws.EncodeFits

open Sys2Proof

/-- The word of a well-formed instruction fits its format (spec/opcode_table.json, "width"). -/
def Statement (i : Instr) : Prop := i.wf = true → (Sys2Proof.encode i).2 < 2 ^ formatWidth (Sys2Proof.encode i).1

theorem encode : Statement .encode := fun _ => by decide
theorem decode : Statement .decode := fun _ => by decide
theorem feed (b : Byte) : Statement (.feed b) := fun _ => by
  have := b.isLt
  show b.toNat * 256 + 3 < 2 ^ 32
  omega
theorem send (rel : Bool) : Statement (.send rel) := fun _ => by cases rel <;> decide
theorem readStatus : Statement .readStatus := fun _ => by decide
theorem illegal (w : Word) : Statement (.illegal w) := fun _ => w.isLt
theorem rxByte (b : Byte) : Statement (.rxByte b) := fun _ => b.isLt
theorem encEnd : Statement .encEnd := fun _ => by decide
theorem encEsc : Statement .encEsc := fun _ => by decide
theorem encLit (b : Byte) : Statement (.encLit b) := fun _ => b.isLt
theorem decNEnd : Statement .decNEnd := fun _ => by decide
theorem decNEsc : Statement .decNEsc := fun _ => by decide
theorem decNLit (b : Byte) : Statement (.decNLit b) := fun _ => by
  have := b.isLt
  show b.toNat < 2 ^ 9
  omega
theorem decEEscEnd : Statement .decEEscEnd := fun _ => by decide
theorem decEEscEsc : Statement .decEEscEsc := fun _ => by decide
theorem decELit (b : Byte) : Statement (.decELit b) := fun _ => by
  have := b.isLt
  show 256 + b.toNat < 2 ^ 9
  omega
theorem decEoiEscaped : Statement .decEoiEscaped := fun _ => by decide

end Sys2Proof.Laws.EncodeFits
end

