-- ==== Sys2Proof/Laws/Send.lean ====
section
/-! SUPPORT. What SEND can do, said once: its next states, one constructor per end of R180, and what a submission
does to the transfers the transport still holds. -/

namespace Sys2Proof.Machine

open Sys2Proof.Safety

/-! ## The ledger entry written twice -/

theorem insert_insert {α : Type} (k : Nat) (a b : α) (t : List (Nat × α)) :
    Table.insert k b (Table.insert k a t) = Table.insert k b t := by
  induction t with
  | nil => simp [Table.insert]
  | cons q t ih =>
    obtain ⟨j, c⟩ := q
    by_cases h1 : k < j
    · simp [Table.insert, h1]
    · by_cases h2 : k = j
      · simp [Table.insert, h2]
      · simp [Table.insert, h1, h2, ih]

theorem erase_insert {α : Type} (k : Nat) (a : α) (t : List (Nat × α)) :
    Table.erase k (Table.insert k a t) = Table.erase k t := by
  induction t with
  | nil => simp [Table.insert, Table.erase]
  | cons q t ih =>
    obtain ⟨j, c⟩ := q
    by_cases h1 : k < j
    · simp [Table.insert, h1, Table.erase]
    · by_cases h2 : k = j
      · simp [Table.insert, h2, Table.erase]
      · simp only [Table.insert, h1, h2, if_false]
        simp only [Table.erase, List.filter_cons] at ih ⊢
        rw [ih]

theorem setLife_setLife {h : Handle} {v w : Life} (hv : v ≠ .untracked) (s : State) :
    setLife h w (setLife h v s) = setLife h w s := by
  simp only [setLife, if_neg hv]
  rw [insert_insert, insert_insert, erase_insert]

/-! ## Transfers in flight -/

theorem overwriteCand_length : ∀ (cs : List (List Byte)) (bs : List Byte), (overwriteCand cs bs).length = cs.length := by
  intro cs
  induction cs with
  | nil => intro bs; cases bs <;> rfl
  | cons c cs ih => intro bs; cases bs <;> simp [overwriteCand, ih]

/-- R252: byte by byte, the later value joins the earlier ones where the later frame reaches. -/
theorem overwriteCand_getElem? : ∀ (cs : List (List Byte)) (bs : List Byte) (j : Nat) (c : List Byte), cs[j]? = some c →
    (overwriteCand cs bs)[j]? = some (match bs[j]? with | some b => c ++ [b] | none => c) := by
  intro cs
  induction cs with
  | nil => intro bs j c h; simp at h
  | cons d cs ih =>
    intro bs j c h
    cases bs with
    | nil => simpa [overwriteCand] using h
    | cons b bs =>
      cases j with
      | zero => simpa [overwriteCand] using h
      | succ j => simpa [overwriteCand] using ih bs j c (by simpa using h)

theorem mem_overwriteCand : ∀ {cs : List (List Byte)} {bs : List Byte} {c : List Byte}, (∀ d ∈ cs, d ≠ []) →
    c ∈ overwriteCand cs bs → c ≠ [] := by
  intro cs
  induction cs with
  | nil => intro bs c _ h; cases bs <;> simp [overwriteCand] at h
  | cons d cs ih =>
    intro bs c hd h
    cases bs with
    | nil => exact hd c (by simpa [overwriteCand] using h)
    | cons b bs =>
      simp only [overwriteCand, List.mem_cons] at h
      rcases h with rfl | h
      · simp
      · exact ih (fun d h' => hd d (List.mem_cons_of_mem _ h')) h

/-- R252, R45: every wire byte is one of the values the transport may have read there. -/
theorem pickBytes_spec : ∀ (cs : List (List Byte)) (ks : List Nat), (∀ c ∈ cs, c ≠ []) →
    (pickBytes cs ks).length = cs.length ∧
    ∀ (j : Nat) (b : Byte), (pickBytes cs ks)[j]? = some b → ∃ c, cs[j]? = some c ∧ b ∈ c := by
  intro cs
  induction cs with
  | nil => intro ks _; cases ks <;> simp [pickBytes]
  | cons c cs ih =>
    intro ks hc
    have h0 : c ≠ [] := hc c (by simp)
    have hhead : c.headD 0 ∈ c := by cases c with
      | nil => exact absurd rfl h0
      | cons x xs => simp
    cases ks with
    | nil =>
      obtain ⟨h1, h2⟩ := ih [] (fun d hd => hc d (List.mem_cons_of_mem _ hd))
      refine ⟨by simp [pickBytes, h1], fun j b hb => ?_⟩
      cases j with
      | zero => exact ⟨c, rfl, by rw [← show c.headD 0 = b by simpa [pickBytes] using hb]; exact hhead⟩
      | succ j => simpa using h2 j b (by simpa [pickBytes] using hb)
    | cons k ks =>
      obtain ⟨h1, h2⟩ := ih ks (fun d hd => hc d (List.mem_cons_of_mem _ hd))
      refine ⟨by simp [pickBytes, h1], fun j b hb => ?_⟩
      cases j with
      | zero =>
        refine ⟨c, rfl, ?_⟩
        have hb : c.getD k (c.headD 0) = b := by simpa [pickBytes] using hb
        rw [← hb, List.getD_eq_getElem?_getD]
        cases hk : (getElem? c k) with
        | none => exact hhead
        | some x => exact List.mem_of_getElem? hk
      | succ j => simpa using h2 j b (by simpa [pickBytes] using hb)

/-! ## A payload outside the buffer -/

/-- R52: reading past `cap(h)` raises at the first index outside, and the packet buffer's own bytes never stop the
read (log entry 12). -/
theorem readSpan_pkt_outside {h : Handle} {s : State} (hm : mayRead s (.pkt h) = true) :
    ∀ (n i : Nat), i ≤ capOf s h → capOf s h < i + n →
      readSpan (.pkt h) i n s = .raised (recordFault .lifecycleViolation (.access (.pkt h) (capOf s h)) s) := by
  intro n
  induction n with
  | zero => intro i h1 h2; omega
  | succ n ih =>
    intro i h1 h2
    rw [readSpan]
    by_cases hi : i = capOf s h
    · have : memRead (.pkt h) i s = .raised (recordFault .lifecycleViolation (.access (.pkt h) i) s) := by
        unfold memRead; rw [if_pos (.inl (by show capOf s h ≤ i; omega))]; rfl
      rw [this, andThen_raised, hi]
    · obtain ⟨b, hb⟩ : ∃ b, readByteOf s (.pkt h) i = some b := by
        unfold readByteOf
        cases Table.lookup i (spaceMem s (.pkt h)) <;> exact ⟨_, rfl⟩
      rw [memRead_done (by show i < capOf s h; omega) hm hb, andThen_done, ih (i + 1) (by omega) (by omega),
        andThen_raised]

/-- The first `n` bytes of a packet buffer always read as something (log entry 12). -/
theorem packetReads_exists (s : State) (h : Handle) (n : Nat) : ∃ p : List Byte, p.length = n ∧ PacketReads s h p := by
  induction n with
  | zero => exact ⟨[], rfl, fun j b hb => by simp at hb⟩
  | succ n ih =>
    obtain ⟨p, hl, hp⟩ := ih
    obtain ⟨b, hb⟩ : ∃ b, readByteOf s (.pkt h) n = some b := by
      unfold readByteOf
      cases Table.lookup n (spaceMem s (.pkt h)) <;> exact ⟨_, rfl⟩
    refine ⟨p ++ [b], by simp [hl], fun j c hc => ?_⟩
    by_cases hj : j < p.length
    · rw [List.getElem?_append_left hj] at hc; exact hp j c hc
    · rw [List.getElem?_append_right (by omega)] at hc
      have : j = n := by
        by_contra hne
        rw [List.getElem?_eq_none (by simp; omega)] at hc; cases hc
      subst this
      simp [hl] at hc
      rw [hb, hc]

/-! ## The next states of SEND -/

/-- The state a SEND works in once it has the buffer and the link's answer (R180). -/
def sendBegun (rel up : Bool) (s : State) : State :=
  record (.queryLinkUp up)
    (setLife s.fields.h (if rel then .ownedByBlock else .borrowed) (startTransaction s))

/-- The state after the frame of `p` has been written to SCRATCH and submitted (R183, R184). -/
def sendSubmitted (rel : Bool) (p : List Byte) (s : State) : State :=
  submit (frameOf p) (encodedLength p)
    (writtenSpan .scratch 0 (frameOf p)
      { sendBegun rel true s with codec := { s.codec with out := [] } })

/-- R186: what SEND leaves in LIFE(h). -/
def sendLife (rel : Bool) : Life := if rel then .released else .untracked

/-- R180: every next state of SEND, by the branch that ends in it. -/
inductive SendEnd (s : State) (rel : Bool) : State → Prop where
  | tooLong (hn : s.cfg.maxTxPayload < s.fields.n) : SendEnd s rel
      { s with
        fault := .bufferTooSmall, faultInfo := .sizes (2 * s.fields.n + 2) (2 * s.cfg.maxTxPayload + 2)
        status := none, result := .none }
  | wrongBuffer (hn : s.fields.n ≤ s.cfg.maxTxPayload) (hh : blockHolds s s.fields.h = true) : SendEnd s rel
      { s with
        fault := .lifecycleViolation, faultInfo := .handle s.fields.h, status := none, result := .none }
  | linkDown (hn : s.fields.n ≤ s.cfg.maxTxPayload) (hh : blockHolds s s.fields.h = false)
      (hu : s.draws.linkUp = false) : SendEnd s rel
      { setLife s.fields.h (sendLife rel) s with
        history := s.history ++ [.queryLinkUp false] ++ (if rel then [.release s.fields.h] else [])
        status := some .linkDown, result := .none }
  | outside (hn : s.fields.n ≤ s.cfg.maxTxPayload) (hh : blockHolds s s.fields.h = false)
      (hu : s.draws.linkUp = true) (hc : capOf s s.fields.h < s.fields.n) : SendEnd s rel
      { sendBegun rel true s with
        fault := .lifecycleViolation, faultInfo := .access (.pkt s.fields.h) (capOf s s.fields.h) }
  | sent (p : List Byte) (hn : s.fields.n ≤ s.cfg.maxTxPayload) (hh : blockHolds s s.fields.h = false)
      (hu : s.draws.linkUp = true) (hc : s.fields.n ≤ capOf s s.fields.h) (hl : p.length = s.fields.n)
      (hp : PacketReads s s.fields.h p) : SendEnd s rel
      { setLife s.fields.h (sendLife rel) (sendSubmitted rel p s) with
        history := (sendSubmitted rel p s).history ++ (if rel then [.release s.fields.h] else [])
        status := some .sent, result := .none }

theorem sendBegun_life (rel up : Bool) (s : State) (h' : Handle) :
    lifeOf (sendBegun rel up s) h' =
      if s.fields.h = h' then (if rel then .ownedByBlock else .borrowed) else lifeOf s h' := by
  unfold sendBegun; rw [record_lifeOf, lifeOf_setLife]; rfl

theorem sendBegun_owner (rel up : Bool) (s : State) (h' : Handle) :
    ownerOf (sendBegun rel up s) h' = if s.fields.h = h' then some .block else ownerOf s h' := by
  unfold sendBegun
  rw [record_ownerOf, ownerOf_setLife]
  cases rel <;> rfl

theorem sendBegun_mayRead (rel up : Bool) (s : State) : mayRead (sendBegun rel up s) (.pkt s.fields.h) = true := by
  simp only [mayRead, sendBegun_life, if_true]
  cases rel <;> rfl

theorem sendSubmitted_life (rel : Bool) (p : List Byte) (s : State) (h' : Handle) :
    lifeOf (sendSubmitted rel p s) h' = lifeOf (sendBegun rel true s) h' := by
  unfold sendSubmitted lifeOf
  rw [submit_life, writtenSpan_life]

theorem sendSubmitted_owner (rel : Bool) (p : List Byte) (s : State) (h' : Handle) :
    ownerOf (sendSubmitted rel p s) h' = ownerOf (sendBegun rel true s) h' := by
  unfold sendSubmitted ownerOf
  rw [submit_owner, writtenSpan_owner]

section Submitted
variable (rel up : Bool) (p : List Byte) (s : State)

@[simp] theorem sendBegun_cfg : (sendBegun rel up s).cfg = s.cfg := by simp [sendBegun]
@[simp] theorem sendBegun_fault : (sendBegun rel up s).fault = s.fault := by simp [sendBegun]
@[simp] theorem sendBegun_pkt : (sendBegun rel up s).pkt = s.pkt := by simp [sendBegun]
@[simp] theorem sendBegun_caps : (sendBegun rel up s).caps = s.caps := by simp [sendBegun]
@[simp] theorem sendBegun_history : (sendBegun rel up s).history = s.history ++ [.queryLinkUp up] := by
  simp [sendBegun]
@[simp] theorem sendSubmitted_cfg : (sendSubmitted rel p s).cfg = s.cfg := by simp [sendSubmitted]
@[simp] theorem sendSubmitted_acc : (sendSubmitted rel p s).acc = s.acc := by simp [sendSubmitted, sendBegun]
@[simp] theorem sendSubmitted_fill : (sendSubmitted rel p s).fill = s.fill := by
  simp [sendSubmitted, sendBegun]
@[simp] theorem sendSubmitted_receiving : (sendSubmitted rel p s).receiving = s.receiving := by
  simp [sendSubmitted, sendBegun]
@[simp] theorem sendSubmitted_lostRx : (sendSubmitted rel p s).lostRx = s.lostRx := by
  simp [sendSubmitted, sendBegun]
@[simp] theorem sendSubmitted_fault : (sendSubmitted rel p s).fault = s.fault := by simp [sendSubmitted]
@[simp] theorem sendSubmitted_faultInfo : (sendSubmitted rel p s).faultInfo = s.faultInfo := by
  simp [sendSubmitted, sendBegun]
@[simp] theorem sendSubmitted_scratch : (sendSubmitted rel p s).scratch = putBytes 0 (frameOf p) s.scratch :=
  spaceMem_writtenSpan .scratch (frameOf p) 0 _
@[simp] theorem sendSubmitted_codec : (sendSubmitted rel p s).codec = { s.codec with out := [] } := by
  simp [sendSubmitted]
@[simp] theorem sendSubmitted_pumpPhase : (sendSubmitted rel p s).pumpPhase = s.pumpPhase := by
  simp [sendSubmitted, sendBegun]
@[simp] theorem sendSubmitted_held : (sendSubmitted rel p s).held = s.held := by
  simp [sendSubmitted, sendBegun]
@[simp] theorem sendSubmitted_td : (sendSubmitted rel p s).td =
    { s.td with len := encodedLength p, pending := s.td.pending + 1, src := .scratch } := by
  simp [sendSubmitted, sendBegun]
@[simp] theorem sendSubmitted_pkt : (sendSubmitted rel p s).pkt = s.pkt := by simp [sendSubmitted]
@[simp] theorem sendSubmitted_caps : (sendSubmitted rel p s).caps = s.caps := by simp [sendSubmitted]
@[simp] theorem sendSubmitted_history : (sendSubmitted rel p s).history =
    s.history ++ [.queryLinkUp true, .submitWrite (frameOf p)] := by simp [sendSubmitted]
@[simp] theorem sendSubmitted_inflight : (sendSubmitted rel p s).inflight =
    inflightAfter s.cfg (frameOf p) s.inflight := by simp [sendSubmitted, sendBegun]
@[simp] theorem sendSubmitted_wire : (sendSubmitted rel p s).wire = s.wire := by
  simp [sendSubmitted, sendBegun]
@[simp] theorem sendSubmitted_fields : (sendSubmitted rel p s).fields = s.fields := by
  simp [sendSubmitted, sendBegun]
@[simp] theorem sendSubmitted_draws : (sendSubmitted rel p s).draws = s.draws := by
  simp [sendSubmitted, sendBegun]
@[simp] theorem sendSubmitted_inbox : (sendSubmitted rel p s).inbox = s.inbox := by
  simp [sendSubmitted, sendBegun]

end Submitted

/-- SEND of a payload that is not too long, of a buffer the block does not hold, up to the link's answer. -/
theorem send_begun {s : State} {rel : Bool} (hf : s.fault = .none) (hn : s.fields.n ≤ s.cfg.maxTxPayload)
    (hh : blockHolds s s.fields.h = false) :
    exec (.send rel) s =
      (if s.draws.linkUp then
        (encodeAndSubmit s.fields.h s.fields.n (sendBegun rel s.draws.linkUp s)).andThen
          fun _ s' => finishSend s.fields.h rel .sent s'
      else finishSend s.fields.h rel .linkDown (sendBegun rel s.draws.linkUp s)).close := by
  simp only [exec, execSend, transact, whenRunning_running hf, sendBody]
  rw [if_neg (by show ¬ s.cfg.maxTxPayload < s.fields.n; omega),
    if_neg (by show ¬ blockHolds s s.fields.h = true; rw [hh]; decide)]
  rfl

theorem send_tooLong {s : State} (rel : Bool) (hf : s.fault = .none) (hn : s.cfg.maxTxPayload < s.fields.n) :
    exec (.send rel) s = .next
      { s with
        fault := .bufferTooSmall, faultInfo := .sizes (2 * s.fields.n + 2) (2 * s.cfg.maxTxPayload + 2)
        status := none, result := .none } := by
  simp only [exec, execSend, transact, whenRunning_running hf, sendBody]
  rw [if_pos (by exact hn)]
  simp only [raise, close_raised]
  rw [recordFault_running (by exact hf)]
  rfl

theorem send_wrongBuffer {s : State} (rel : Bool) (hf : s.fault = .none) (hn : s.fields.n ≤ s.cfg.maxTxPayload)
    (hh : blockHolds s s.fields.h = true) :
    exec (.send rel) s = .next
      { s with
        fault := .lifecycleViolation, faultInfo := .handle s.fields.h, status := none, result := .none } := by
  simp only [exec, execSend, transact, whenRunning_running hf, sendBody]
  rw [if_neg (by show ¬ s.cfg.maxTxPayload < s.fields.n; omega), if_pos (by exact hh)]
  simp only [raise, close_raised]
  rw [recordFault_running (by exact hf)]
  rfl

theorem send_linkDown {s : State} (rel : Bool) (hf : s.fault = .none) (hn : s.fields.n ≤ s.cfg.maxTxPayload)
    (hh : blockHolds s s.fields.h = false) (hu : s.draws.linkUp = false) :
    exec (.send rel) s = .next
      { setLife s.fields.h (sendLife rel) s with
        history := s.history ++ [.queryLinkUp false] ++ (if rel then [.release s.fields.h] else [])
        status := some .linkDown, result := .none } := by
  rw [send_begun hf hn hh, hu, if_neg (by decide), finishSend_done, close_done]
  · cases rel <;>
      simp [sendBegun, sendLife, setLife, record, startTransaction, erase_insert, insert_insert]
  · rintro rfl
    rw [sendBegun_life, if_pos rfl]; rfl

theorem send_outside {s : State} (rel : Bool) (hf : s.fault = .none) (hn : s.fields.n ≤ s.cfg.maxTxPayload)
    (hh : blockHolds s s.fields.h = false) (hu : s.draws.linkUp = true) (hc : capOf s s.fields.h < s.fields.n) :
    exec (.send rel) s = .next
      { sendBegun rel true s with
        fault := .lifecycleViolation, faultInfo := .access (.pkt s.fields.h) (capOf s s.fields.h) } := by
  have e : capOf (sendBegun rel true s) s.fields.h = capOf s s.fields.h := rfl
  rw [send_begun hf hn hh, hu, if_pos rfl]
  unfold encodeAndSubmit
  rw [readSpan_pkt_outside (sendBegun_mayRead rel true s) _ 0 (Nat.zero_le _) (by rw [e]; omega), andThen_raised,
    andThen_raised, close_raised, recordFault_running (by exact hf), e]

theorem send_sent {s : State} (rel : Bool) {p : List Byte} (hf : s.fault = .none)
    (hn : s.fields.n ≤ s.cfg.maxTxPayload) (hh : blockHolds s s.fields.h = false) (hu : s.draws.linkUp = true)
    (hc : s.fields.n ≤ capOf s s.fields.h) (hl : p.length = s.fields.n) (hp : PacketReads s s.fields.h p) :
    exec (.send rel) s = .next
      { setLife s.fields.h (sendLife rel) (sendSubmitted rel p s) with
        history := (sendSubmitted rel p s).history ++ (if rel then [.release s.fields.h] else [])
        status := some .sent, result := .none } := by
  have henc := encodeAndSubmit_done (s := sendBegun rel true s) (h := s.fields.h) (p := p)
    (sendBegun_mayRead rel true s) (by rw [hl]; exact hc)
    (fun j b hb => by rw [← hp j b hb]; exact readByteOf_congr rfl j) (by rw [hl]; exact hn)
  rw [hl] at henc
  rw [send_begun hf hn hh, hu, if_pos rfl, henc, andThen_done]
  change (finishSend s.fields.h rel .sent (sendSubmitted rel p s)).close = _
  rw [finishSend_done, close_done]
  · rfl
  · rintro rfl
    rw [sendSubmitted_life, sendBegun_life, if_pos rfl]; rfl

/-- Every next state of SEND is one of the ends of R180; the block was running. -/
theorem send_next {s t : State} {rel : Bool} (ht : exec (.send rel) s = .next t) :
    s.fault = .none ∧ SendEnd s rel t := by
  have hf : s.fault = .none := by
    by_contra hnf
    simp only [exec, execSend, transact, whenRunning_stopped hnf] at ht
    cases ht
  refine ⟨hf, ?_⟩
  by_cases hn : s.fields.n ≤ s.cfg.maxTxPayload
  · cases hh : blockHolds s s.fields.h with
    | true => rw [send_wrongBuffer rel hf hn hh] at ht; cases ht; exact .wrongBuffer hn hh
    | false =>
      cases hu : s.draws.linkUp with
      | false => rw [send_linkDown rel hf hn hh hu] at ht; cases ht; exact .linkDown hn hh hu
      | true =>
        by_cases hc : s.fields.n ≤ capOf s s.fields.h
        · obtain ⟨p, hl, hp⟩ := packetReads_exists s s.fields.h s.fields.n
          rw [send_sent rel hf hn hh hu hc hl hp] at ht; cases ht
          exact .sent p hn hh hu hc hl hp
        · rw [send_outside rel hf hn hh hu (by omega)] at ht; cases ht
          exact .outside hn hh hu (by omega)
  · rw [send_tooLong rel hf (by omega)] at ht; cases ht
    exact .tooLong (by omega)

end Sys2Proof.Machine
end

