-- ==== Sys2Proof/Laws/Step.lean ====
section
/-! SUPPORT. What a step can do, said once: which agent moved, and the state it moved to. -/

namespace Sys2Proof.Machine

/-- R221: every next state of a step, by the agent that moves. -/
inductive StepEnd (s : State) : State → Prop where
  /-- Nothing is pending and the pump waits (R227). -/
  | idle (hf : s.fault = .none) : StepEnd s s
  /-- A presented word runs (R80, R90); its request broke no duty that stops it (R245). -/
  | request (i : Instr) (fields : Fields) (draws : Draws) (rest : List Input) (t : State)
      (hd : dutyRefusal i { s with fields := fields, draws := draws, inbox := rest } = none)
      (he : exec i { s with fields := fields, draws := draws, inbox := rest } = .next t) : StepEnd s t
  /-- R41. -/
  | interrupted (rest : List Input) (hf : s.fault = .none) : StepEnd s (interruptedRead { s with inbox := rest })
  /-- R45. -/
  | complete (which v : Nat) (picks : List Nat) (rest : List Input) :
      StepEnd s (completion which v picks { s with inbox := rest })
  /-- R240. -/
  | reset (rest : List Input) : StepEnd s (resetBlock { s with inbox := rest })
  /-- R42, R11. -/
  | poolGives (h : Handle) (cap : Nat) (rest : List Input) (ha : allocated s h = false) :
      StepEnd s (setOwner h .outside (setCap h cap { s with inbox := rest }))
  /-- R46. -/
  | ownerWrite (h : Handle) (bytes : List Byte) (rest : List Input) (hm : outsideMayUse s h = true) :
      StepEnd s (setOwner h .outside
        (setSpaceMem (.pkt h) (putBytes 0 (bytes.take (capOf s h)) (spaceMem s (.pkt h))) { s with inbox := rest }))
  /-- R46. -/
  | ownerRelease (h : Handle) (rest : List Input) (hm : outsideMayUse s h = true) :
      StepEnd s (setOwner h .pool { s with inbox := rest })

/-- R245: an instruction that ran broke no duty that stops it. -/
theorem runInstr_next {i : Instr} {s t : State} (ht : runInstr i s = .next t) :
    dutyRefusal i s = none ∧ exec i s = .next t := by
  unfold runInstr whenRunning at ht
  split at ht
  · split at ht <;> cases ht
  · next hd => exact ⟨hd, ht⟩

theorem poolGivesOutside_next {s t : State} {h : Handle} {cap : Nat} (ht : poolGivesOutside h cap s = .next t) :
    allocated s h = false ∧ t = setOwner h .outside (setCap h cap s) := by
  unfold poolGivesOutside at ht
  split at ht
  · cases ht
  · next ha => cases ht; exact ⟨Bool.eq_false_iff.mpr ha, rfl⟩

theorem ownerWrites_next {s t : State} {h : Handle} {bytes : List Byte} (ht : ownerWrites h bytes s = .next t) :
    outsideMayUse s h = true ∧
      t = setOwner h .outside
        (setSpaceMem (.pkt h) (putBytes 0 (bytes.take (capOf s h)) (spaceMem s (.pkt h))) s) := by
  unfold ownerWrites at ht
  split at ht
  · next hm => cases ht; exact ⟨hm, rfl⟩
  · cases ht

theorem ownerReleases_next {s t : State} {h : Handle} (ht : ownerReleases h s = .next t) :
    outsideMayUse s h = true ∧ t = setOwner h .pool s := by
  unfold ownerReleases at ht
  split at ht
  · next hm => cases ht; exact ⟨hm, rfl⟩
  · cases ht

/-- Every next state of a step is one of these; the configuration is well formed (R6). -/
theorem step_next {s t : State} (ht : step s = .next t) : s.cfg.wf = true ∧ StepEnd s t := by
  unfold step at ht
  split at ht
  · cases ht
  · next hw =>
    refine ⟨by simpa using hw, ?_⟩
    split at ht
    · unfold idle whenRunning at ht
      split at ht
      · next hf => cases ht; exact .idle hf
      · cases ht
    · unfold runRequest at ht
      split at ht
      · next i _ => exact .request i _ _ _ t (runInstr_next ht).1 (runInstr_next ht).2
      · cases ht
    · unfold whenRunning at ht
      split at ht
      · next hf => cases ht; exact .interrupted _ hf
      · cases ht
    · cases ht; exact .complete _ _ _ _
    · cases ht; exact .reset _
    · next h cap rest _ =>
      obtain ⟨ha, rfl⟩ := poolGivesOutside_next ht
      exact .poolGives h cap rest ha
    · next h bytes rest _ =>
      obtain ⟨hm, rfl⟩ := ownerWrites_next ht
      exact .ownerWrite h bytes rest hm
    · next h rest _ =>
      obtain ⟨hm, rfl⟩ := ownerReleases_next ht
      exact .ownerRelease h rest hm

end Sys2Proof.Machine
end

