-- ==== Sys2Proof/Tests/Slice0.lean ====
section
/-! SUPPORT. The tests: one ill-formed term for each check of WellFormed, words written out from the encoding tables,
single steps from the vectors of 95_test_vectors.md, and for every obligation with hypotheses a state that meets them
together. -/

namespace Sys2Proof.Tests

open Sys2Proof Sys2Proof.Machine Sys2Proof.Safety

/-! ## WellFormed refuses -/

/-- R83: a word that a row matches is not illegal; the five rows in turn. -/
theorem test_wf_illegal : [Instr.illegal 0x00000001, .illegal 0x00000002, .illegal 0x0000C003, .illegal 0x00000014,
    .illegal 0x00000004, .illegal 0x00000005].all (fun i => !i.wf) = true := by decide
/-- R73: END and ESC have rows of their own before ENC_LIT. -/
theorem test_wf_encLit : (Instr.encLit 0xC0).wf = false ∧ (Instr.encLit 0xDB).wf = false := by decide
/-- R74: so they have before DEC_N_LIT. -/
theorem test_wf_decNLit : (Instr.decNLit 0xC0).wf = false ∧ (Instr.decNLit 0xDB).wf = false := by decide
/-- R74: ESC_END and ESC_ESC have rows of their own before DEC_E_LIT. -/
theorem test_wf_decELit : (Instr.decELit 0xDC).wf = false ∧ (Instr.decELit 0xDD).wf = false := by decide
/-- R6: the smallest capacity, and the one below it. -/
theorem test_wf_config : Config.wf ⟨1, 4, 8, true⟩ = false ∧ Config.wf ⟨2, 4, 8, true⟩ = true := by decide

/-! ## Decoding, each word written out from the tables of 30_encoding.md -/

/-- OP 0x1 in bits 3..0. -/
theorem test_dec_encode : decode .cmd 0b00000000000000000000000000000001 = .ok .encode := by decide
/-- OP 0x2. -/
theorem test_dec_decode : decode .cmd 0b00000000000000000000000000000010 = .ok .decode := by decide
/-- OP 0x3, IMM8 = 0x41 in bits 15..8 (R81). -/
theorem test_dec_feed : decode .cmd 0b00000000000000000100000100000011 = .ok (.feed 0x41) := by decide
/-- V-CMD-4, V-CMD-5: the ends of IMM8. -/
theorem test_dec_feed_ends :
    decode .cmd 0x0000FF03 = .ok (.feed 0xFF) ∧ decode .cmd 0x00000003 = .ok (.feed 0x00) := by decide
/-- OP 0x4, REL in bit 4. -/
theorem test_dec_send : decode .cmd 0b00000000000000000000000000010100 = .ok (.send true) ∧
    decode .cmd 0b00000000000000000000000000000100 = .ok (.send false) := by decide
/-- OP 0x5. -/
theorem test_dec_readStatus : decode .cmd 0b00000000000000000000000000000101 = .ok .readStatus := by decide
/-- V-CMD-7 to V-CMD-14. -/
theorem test_dec_illegal : [0x00000000, 0x00000006, 0x0000000F, 0x00000011, 0x00004101, 0x00000023, 0x00010005,
    0x00000015].all (fun w => decode .cmd w == .ok (.illegal (BitVec.ofNat 32 w))) = true := by decide
/-- R84: a byte of the receive port. -/
theorem test_dec_rxByte : decode .rxPort 0b11000000 = .ok (.rxByte 0xC0) := by decide
/-- R73: the keys of the encoder symbol table. -/
theorem test_dec_encSym : decode .encSym 0b11000000 = .ok .encEnd ∧ decode .encSym 0b11011011 = .ok .encEsc ∧
    decode .encSym 0b11011100 = .ok (.encLit 0xDC) := by decide
/-- R74: mode NORMAL, bit 8 clear. -/
theorem test_dec_decN : decode .decSym 0b011000000 = .ok .decNEnd ∧ decode .decSym 0b011011011 = .ok .decNEsc ∧
    decode .decSym 0b011011100 = .ok (.decNLit 0xDC) := by decide
/-- R74: mode ESCAPED, bit 8 set. -/
theorem test_dec_decE : decode .decSym 0b111011100 = .ok .decEEscEnd ∧
    decode .decSym 0b111011101 = .ok .decEEscEsc ∧ decode .decSym 0b111000000 = .ok (.decELit 0xC0) := by decide
/-- R74, last paragraph: the end of the input. -/
theorem test_dec_eoi : decode .decEoi 0b1 = .ok .decEoiEscaped ∧ decode .decEoi 0b0 = .error (.noRow .decEoi) := by
  decide
/-- A number wider than its format is rejected by name; the widest that fits is not. -/
theorem test_dec_width : decode .rxPort 256 = .error (.tooWide .rxPort) ∧ decode .rxPort 255 = .ok (.rxByte 0xFF) ∧
    decode .decSym 512 = .error (.tooWide .decSym) := by decide

/-! ## Small states -/

/-- The reset state of a machine with `ACC_CAP = 8`, `MAX_TX_PAYLOAD = 4`. -/
def start : State := State.resetWith ⟨8, 4, 8, true⟩

/-- With the operands of a command. -/
def startWith (f : Fields) : State := { start with fields := f }

/-- With the bytes FEED has stored in ACC, from index 0 on. -/
def fed (bs : List Byte) : State := { start with acc := putBytes 0 bs [], fill := bs.length }

/-- With `ACC_CAP = 2` and ACC full. -/
def full : State :=
  { State.resetWith ⟨2, 4, 8, true⟩ with acc := putBytes 0 [0x01, 0x02] [], fill := 2, lostRx := 7 }

/-- With `[C0, 41]` stored and the collaborators' answers to come. -/
def ready (d : Draws) : State := { fed [0xC0, 0x41] with draws := d }

/-- The pool gives buffer 1 with capacity 3, and all accept. -/
def goodDraws : Draws :=
  { acquire := some (1, 3), filter := .accept, checksum := .valid, ingest := .ok, linkUp := true }

/-- Buffer 2 holds `[C0, DB, 41]` and is to be sent (V-TX-2). -/
def toSend : State :=
  { start with
    pkt := [(2, [(0, 0xC0), (1, 0xDB), (2, 0x41)])], caps := [(2, 4)]
    fields := { Fields.empty with h := 2, n := 3 }
    draws := goodDraws }

/-- The SEND of buffer 2 is pending. -/
def sending : State := { toSend with inbox := [.request .cmd 0x14 toSend.fields goodDraws] }

/-- The END that completes a span of the pump's is pending, and so are the collaborators' good answers. -/
def arriving : State :=
  { ready goodDraws with receiving := true, inbox := [.request .rxPort 0xC0 Fields.empty goodDraws] }

/-- A block stopped by an illegal command. -/
def stopped : State := { start with fault := .illegalCommand, faultInfo := .word 0 }

/-- One earlier transfer is pending (V-TX-9). -/
def racing (copy : Bool) : State :=
  { toSend with
    cfg := ⟨8, 4, 8, copy⟩
    td := { pending := 1, len := 3, src := .scratch, status := 0 }
    inflight := [{ cand := [[0xC0], [0x41], [0xC0]] }] }

/-- The next state, if there is one. -/
def after (o : Host.Outcome State Fault Refusal) : Option State :=
  match o with
  | .next s => some s
  | _ => none

/-! ## Single steps, from 95_test_vectors.md -/

/-- V-ENC-5: the destination is exactly large enough. -/
theorem test_encode : (after (exec .encode (startWith { Fields.empty with payload := [0x01, 0xDB, 0x02], dstCap := 6 }))).map
    (·.result) = some (.encoded [0xC0, 0x01, 0xDB, 0xDD, 0x02, 0xC0] 6) := by decide
/-- V-ENC-7: even the empty frame needs two bytes. -/
theorem test_encode_small : (after (exec .encode (startWith { Fields.empty with dstCap := 1 }))).map
    (fun t => (t.fault, t.faultInfo, t.status)) = some (.bufferTooSmall, .sizes 2 1, none) := by decide
/-- V-DEC-3: both escapes. -/
theorem test_decode : (after (exec .decode (startWith
    { Fields.empty with raw := [0xC0, 0x01, 0xDB, 0xDC, 0x02, 0xDB, 0xDD, 0xC0], dstCap := 8 }))).map
    (·.result) = some (.decoded [0x01, 0xC0, 0x02, 0xDB] 4) := by decide
/-- V-DEC-7: after the passthrough the mode is NORMAL, so DC is a literal. -/
theorem test_decode_violation : (after (exec .decode (startWith
    { Fields.empty with raw := [0xDB, 0xDB, 0xDC], dstCap := 3 }))).map
    (·.result) = some (.decoded [0xDB, 0xDC] 2) := by decide
/-- V-FEED-3: a frame with no leading END. -/
theorem test_feed_frame : (after (exec (.feed 0xC0) (fed [0x41]))).map (fun t => (t.result, t.fill)) =
    some (.frame 0 2 [0x41, 0xC0], 0) := by decide
/-- V-FEED-11: a direct FEED does not count an overflow. -/
theorem test_feed_overflow : (after (exec (.feed 0x03) full)).map (fun t => (t.status, t.fill, t.lostRx)) =
    some (some .overflow, 0, 7) := by decide
/-- V-TX-2. -/
theorem test_send : (after (exec (.send true) toSend)).map (fun t => (t.history, t.td.len, t.td.pending)) =
    some ([.readByte, .queryLinkUp true, .submitWrite [0xC0, 0xDB, 0xDC, 0xDB, 0xDD, 0x41, 0xC0], .release 2],
      7, 1) := by decide
/-- V-TX-4: the link is down and REL is 0. -/
theorem test_send_down : (after (exec (.send false) start)).map (fun t => (t.status, t.history, lifeOf t 0)) =
    some (some .linkDown, [.readByte, .queryLinkUp false], .untracked) := by decide
/-- V-CMD-1. -/
theorem test_readStatus : (after (exec .readStatus start)).map (·.result) = some (.block 0 0 .none 0) := by decide
/-- V-CMD-14. -/
theorem test_illegal : (after (exec (.illegal 0x15) start)).map (fun t => (t.fault, t.faultInfo)) =
    some (.illegalCommand, .word 0x15) := by decide
/-- V-RX-4. -/
theorem test_rxByte : (after (exec (.rxByte 0xC0) (ready goodDraws))).map
    (fun t => (t.status, t.history.drop 1, readByteOf t (.pkt 1) 0, lifeOf t 1)) =
    some (some .delivered, [.acquire 3 (some (1, 3)), .filter 1 1 .accept, .checksum 1 1 .valid, .ingest 1 1 .ok,
      .readByte], some 0x41, .handedOff) := by decide
/-- V-RX-9: the pool breaks its duty. -/
theorem test_rxByte_small : (after (exec (.rxByte 0xC0) (ready { goodDraws with acquire := some (1, 1) }))).map
    (fun t => (t.fault, t.faultInfo, t.held, t.history.drop 1)) =
    some (.decodeDstTooSmall, .sizes 3 1, some 1, [.acquire 3 (some (1, 1))]) := by decide
/-- R104 to R106. -/
theorem test_encRows : (after (exec .encEnd start)).map (·.codec.out) = some [0xDB, 0xDC] ∧
    (after (exec .encEsc start)).map (·.codec.out) = some [0xDB, 0xDD] ∧
    (after (exec (.encLit 0x41) start)).map (·.codec.out) = some [0x41] := by decide
/-- R112 to R114. -/
theorem test_decNRows : (after (exec .decNEnd start)).map (·.codec) = some ⟨some .normal, []⟩ ∧
    (after (exec .decNEsc start)).map (·.codec) = some ⟨some .escaped, []⟩ ∧
    (after (exec (.decNLit 0x41) start)).map (·.codec) = some ⟨some .normal, [0x41]⟩ := by decide
/-- R115, R116, R118. -/
theorem test_decERows : (after (exec .decEEscEnd start)).map (·.codec) = some ⟨some .normal, [0xC0]⟩ ∧
    (after (exec .decEEscEsc start)).map (·.codec) = some ⟨some .normal, [0xDB]⟩ ∧
    (after (exec (.decELit 0xC0) start)).map (·.codec) = some ⟨some .normal, [0xC0]⟩ ∧
    (after (exec .decEoiEscaped start)).map (·.codec) = some ⟨none, []⟩ := by decide
/-- V-TX-9 after its first SEND: the later frame reaches every byte of the earlier one. -/
theorem test_race : (after (exec (.send false) { racing false with
      pkt := [(2, [(0, 0x42), (1, 0x43)])], fields := { Fields.empty with h := 2, n := 2 } })).bind
    (fun t => t.inflight.head?) = some ⟨[[0xC0, 0xC0], [0x41, 0x42], [0xC0, 0x43]]⟩ := by decide
/-- V-TX-10: TD_PENDING saturates at 0. -/
theorem test_complete : (after (step { start with inbox := [.complete 0 300 []] })).map
    (fun t => (t.td.pending, t.td.status)) = some (0, 44) := by decide
/-- R42, R11: the pool fixes the capacity, and cannot give the buffer again while it is allocated. -/
theorem test_poolGives : (after (step { start with inbox := [.poolGives 3 9] })).map (fun t => (capOf t 3, allocated t 3)) =
      some (9, true) ∧
    step { start with caps := [(3, 9)], owner := [(3, .outside)], inbox := [.poolGives 3 4] } =
      .refused (.handleOwned 3) := ⟨by decide, rfl⟩
/-- R46: its owner writes it, up to its capacity and no further, and gives it back; then it may not. -/
theorem test_owner : (after (step { start with
      caps := [(3, 2)], owner := [(3, .outside)], inbox := [.ownerWrite 3 [0x41, 0x42, 0x43]] })).map (·.pkt) =
      some [(3, [(0, 0x41), (1, 0x42)])] ∧
    (after (step { start with owner := [(3, .outside)], inbox := [.ownerRelease 3] })).map (ownerOf · 3) =
      some (some .pool) ∧
    step { start with owner := [(3, .pool)], inbox := [.ownerWrite 3 []] } = .refused (.notTheOwner 3) :=
  ⟨by decide, by decide, rfl⟩
/-- R158, R42: a delivered buffer is the consumer's, a released one the pool's. -/
theorem test_owner_after : (after (exec (.rxByte 0xC0) (ready goodDraws))).map (ownerOf · 1) = some (some .outside) ∧
    (after (exec (.rxByte 0xC0) (ready { goodDraws with filter := .reject }))).map (ownerOf · 1) =
      some (some .pool) := by decide
/-- R250: a direct FEED into a span of the pump's breaks item 5 of R245, and RX_BYTE into one of the host's. -/
theorem test_feedAlone : brokenDuties (.feed 0x41) { fed [0xC0] with receiving := true } = [.feedAlone] ∧
    brokenDuties (.rxByte 0x41) (fed [0xC0]) = [.feedAlone] ∧
    (after (exec (.rxByte 0xC0) start)).map (brokenDuties (.rxByte 0x41)) = some [] := by decide
/-- A word placed by the host's function runs in the very next step from reset. -/
theorem test_fetch : decodeTableWord 32 0x00004103 = some (.feed 0x41) ∧
    (after (step (State.reset.withFetchWord 32 0x00004103))).map (·.fill) = some 1 := by decide
/-- So does one of each other format (log entry 6). -/
theorem test_fetch_formats : decodeTableWord 8 0x00 = some (.rxByte 0x00) ∧
    decodeTableWord 8 0xC0 = some .encEnd ∧ decodeTableWord 16 0x01DC = some .decEEscEnd ∧
    decodeTableWord 8 0x01 = some .decEoiEscaped := by decide

/-! ## Witnesses: for every obligation with hypotheses, a state and operands that meet them together -/

theorem holds_fed (bs : List Byte) : Holds (fed bs).acc 0 bs := by
  intro j b hb
  have hj : j < bs.length := by
    by_contra hn
    rw [List.getElem?_eq_none (by omega)] at hb; cases hb
  change Table.lookup (0 + j) (putBytes 0 bs []) = some b
  rw [Nat.zero_add, lookup_putBytes, if_pos ⟨by omega, by omega⟩]
  simpa using hb

theorem toSend_reads : PacketReads toSend 2 [0xC0, 0xDB, 0x41] := by
  intro j b hb
  match j with
  | 0 => exact hb
  | 1 => exact hb
  | 2 => exact hb
  | n + 3 => simp at hb

theorem spanReady (d : Draws) : SpanReady (ready d) [0xC0, 0x41] :=
  ⟨rfl, rfl, holds_fed [0xC0, 0x41], rfl, Nat.zero_lt_two, show 2 < 8 by decide⟩

/-- The buffer is just large enough. -/
theorem frameArrives : FrameArrives (ready goodDraws) [0xC0, 0x41] 1 3 :=
  ⟨spanReady goodDraws, rfl, by decide⟩

theorem start_memoryInv : MemoryInv start := by
  refine ⟨by decide, by decide, ?_, by decide, by decide, by decide, by decide, by decide, by decide, by decide, by decide⟩
  intro i hi; exact absurd hi (Nat.not_lt_zero i)
theorem start_pumpInv : PumpInv start := ⟨fun _ => rfl, fun _ => rfl, fun _ _ => rfl, fun h => by
  show (none : Option Owner) = some .block ↔ (false : Bool) = true
  decide⟩
theorem start_transmitInv : TransmitInv start :=
  ⟨by decide, rfl, Nat.mod_lt _ (by decide), by decide, by decide⟩

/-- A pending READ_STATUS. -/
def asked : State := { start with inbox := [.request .cmd 5 Fields.empty Draws.empty] }

theorem asked_memoryInv : MemoryInv asked :=
  { start_memoryInv with }
theorem asked_pumpInv : PumpInv asked := { start_pumpInv with }
theorem asked_transmitInv : TransmitInv asked := { start_transmitInv with }

theorem test_wit_DecodeOfEncode : (Instr.illegal 0).wf = true ∧ (Instr.encLit 0xC1).wf = true ∧
    (Instr.decELit 0xDE).wf = true := by decide
theorem test_wit_EncodeOfDecode : decode .cmd 0xFFFFFFFF = .ok (.illegal 0xFFFFFFFF) ∧
    decode .decSym 0x1FF = .ok (.decELit 0xFF) := by decide
/-- Each side of the bound, and the one key with no row. -/
theorem test_wit_DecoderRejects : 2 ^ formatWidth .cmd ≤ 2 ^ 32 ∧ ¬ 2 ^ formatWidth .cmd ≤ 2 ^ 32 - 1 ∧
    decode .decEoi 0 = .error (.noRow .decEoi) := by decide
/-- R83, one word for each condition: OP 0, OP 6, a reserved bit below, a reserved bit above, REL, IMM8. -/
theorem test_wit_IllegalWord : start.fault = .none ∧ [0x0#32, 0x6#32, 0x20#32, 0x10005#32, 0x15#32, 0x4101#32].all
    (fun w => decodeCmd w == .illegal w) = true := by decide
theorem test_wit_ResetStep : ∃ s : State, s.cfg.wf = true ∧ s.inbox = [.reset] ∧ s.fault ≠ .none :=
  ⟨{ stopped with inbox := [.reset] }, rfl, rfl, by decide⟩
theorem test_wit_StepKeepsMemoryInv : MemoryInv asked ∧ ∃ t, step asked = .next t := ⟨asked_memoryInv, _, rfl⟩
theorem test_wit_StepKeepsPumpInv : PumpInv asked ∧ ∃ t, step asked = .next t := ⟨asked_pumpInv, _, rfl⟩
theorem test_wit_StepKeepsTransmitInv : TransmitInv asked ∧ ∃ t, step asked = .next t := ⟨asked_transmitInv, _, rfl⟩
/-- Buffer 2 is allocated, to the caller of the SEND that runs. -/
theorem test_wit_Configuration : (∃ t, step asked = .next t) ∧ (∃ t, exec .readStatus start = .next t) ∧
    (∃ t, step { sending with owner := [(2, .outside)] } = .next t) ∧
    allocated { sending with owner := [(2, .outside)] } 2 = true :=
  ⟨⟨_, rfl⟩, ⟨_, rfl⟩, ⟨_, rfl⟩, by decide⟩
/-- A request that runs, and one that breaks a duty. -/
theorem test_wit_StepRuns : dutyRefusal .readStatus asked = none ∧
    dutyRefusal (.send true) { sending with owner := [(2, .pool)] } = some (.notTheOwner 2) ∧
    decode .cmd 0x14 = .ok (.send true) ∧ sending.fault = .none ∧
    (asked.cfg.wf = true ∧ asked.inbox = [.request .cmd 5 Fields.empty Draws.empty] ∧
    decode .cmd 5 = .ok .readStatus) ∧ decodeTableWord 32 5 = some .readStatus := by decide
/-- A completion event is such a step of a stopped block. -/
theorem test_wit_FaultedBlock : stopped.fault ≠ .none ∧
    ∃ t, step { stopped with inbox := [.complete 0 1 []] } = .next t :=
  ⟨by decide, _, rfl⟩
theorem test_wit_SmallAccumulation : (State.resetWith ⟨1, 4, 8, true⟩).cfg.accCap < 2 := by decide
theorem test_wit_Interrupted : start.cfg.wf = true ∧ start.fault = .none ∧ start.inbox = [] ∧
    { start with inbox := [.interrupted] }.inbox = [.interrupted] := by decide
theorem test_wit_EncoderRows : start.fault = .none ∧ ((0x41 : Byte) ≠ 0xC0 ∧ (0x41 : Byte) ≠ 0xDB) ∧
    [[0xC0], [0xDB], [0x41]].all (fun p => 4 ≤ (startWith { Fields.empty with payload := p, dstCap := 4 }).fields.dstCap &&
      (startWith { Fields.empty with payload := p, dstCap := 4 }).fields.payload == p) = true := by decide
theorem test_wit_DecoderRows : start.fault = .none ∧ (0xC0 : Byte) ≠ 0xDC ∧ (0xC0 : Byte) ≠ 0xDD := by decide
/-- W4: nothing but the unpaired ESC; and V-DEC-8. -/
theorem test_wit_TrailingEscape : (startWith { Fields.empty with raw := [] ++ [0xDB], dstCap := 1 }).fields.raw.length ≤ 1 ∧
    (Codec.decLoop [] { mode := some .normal, out := [] }).mode = some .normal ∧
    (Codec.decLoop [0x41] { mode := some .normal, out := [] }).mode = some .normal := by decide
theorem test_wit_RowByRow : ({ start with codec := ⟨some .normal, []⟩ } : State).fault = .none ∧
    ({ start with codec := ⟨some .normal, []⟩ } : State).codec.mode = some .normal := by decide
/-- The destination exactly large enough, and one byte less (R100, R102). -/
theorem test_wit_Encode : (startWith { Fields.empty with payload := [0xC0], dstCap := 4 }).fault = .none ∧
    [0xC0].length + 2 + escapes [0xC0] ≤ 4 ∧ 3 < [0xC0].length + 2 + escapes [0xC0] := by decide
theorem test_wit_EncodeReturned : ∃ t, exec .encode (startWith { Fields.empty with payload := [0xC0], dstCap := 4 }) = .next t ∧
    t.result = .encoded [0xC0, 0xDB, 0xDC, 0xC0] 4 := ⟨_, rfl, by decide⟩
/-- The destination exactly large enough, and one byte less (R110, R117). -/
theorem test_wit_Decode : (startWith { Fields.empty with raw := [0xC0, 0x41, 0xC0], dstCap := 3 }).fault = .none ∧
    [(0xC0 : Byte), 0x41, 0xC0].length ≤ 3 ∧ 2 < [(0xC0 : Byte), 0x41, 0xC0].length := by decide
theorem test_wit_DecodeReturned : ∃ t, exec .decode (startWith { Fields.empty with raw := [0xC0, 0x41, 0xC0], dstCap := 3 }) = .next t ∧
    t.result = .decoded [0x41] 1 := ⟨_, rfl, by decide⟩
theorem test_wit_RoundTrip : ∃ t : State, t.result = .encoded [0xC0, 0xDB, 0xDC, 0xC0] 4 ∧
    exec .encode (startWith { Fields.empty with payload := [0xC0], dstCap := 4 }) = .next t ∧
    (startWith { Fields.empty with raw := [0xC0, 0xDB, 0xDC, 0xC0], dstCap := 4 }).fault = .none :=
  ⟨_, by decide, rfl, rfl⟩
/-- ACC exactly full. -/
theorem test_wit_FeedOverflow : full.fault = .none ∧ full.cfg.accCap < full.fill + 1 ∧ full.held = none := by decide
/-- The last free byte, and an END on an empty ACC. -/
theorem test_wit_FeedStores : ((fed [1, 2, 3, 4, 5, 6, 7]).fault = .none ∧
    (fed [1, 2, 3, 4, 5, 6, 7]).fill < (fed [1, 2, 3, 4, 5, 6, 7]).cfg.accCap ∧ (0x41 : Byte) ≠ END ∧
    (fed [1, 2, 3, 4, 5, 6, 7]).held = none) ∧ start.fill < start.cfg.accCap ∧ start.fill = 0 := by decide
/-- The shortest frame, and one that fills ACC exactly. -/
theorem test_wit_FeedCompletes : (Holds (fed [0x41]).acc 0 [0x41] ∧ 0 < (fed [0x41]).fill) ∧
    Holds (fed [1, 2, 3, 4, 5, 6, 7]).acc 0 [1, 2, 3, 4, 5, 6, 7] ∧
    (fed [1, 2, 3, 4, 5, 6, 7]).fill + 1 = (fed [1, 2, 3, 4, 5, 6, 7]).cfg.accCap :=
  ⟨⟨holds_fed _, by decide⟩, holds_fed _, by decide⟩
theorem test_wit_StoredBytes : Holds (fed [0x41]).acc 0 [0x41] ∧ [(0x41 : Byte)].length = (fed [0x41]).fill ∧
    ∃ t, exec (.feed 0x42) (fed [0x41]) = .next t := ⟨holds_fed _, rfl, _, rfl⟩
/-- R138: a frame that fills ACC exactly, and one byte more. -/
theorem test_wit_Reassembled : start.fault = .none ∧ start.fill = 0 ∧
    [0xC0, 0xC0, 0x41].length + 2 + escapes [0xC0, 0xC0, 0x41] ≤ start.cfg.accCap ∧
    ¬ [0xC0, 0xC0, 0xC0, 0x41].length + 2 + escapes [0xC0, 0xC0, 0xC0, 0x41] ≤ start.cfg.accCap := by decide
theorem test_wit_Tail : full.fault = .none ∧ full.fill = full.cfg.accCap ∧ [(0x05 : Byte)] ≠ [] ∧
    END ∉ [(0x05 : Byte)] ∧ [(0x05 : Byte)].length < full.cfg.accCap := by decide
theorem test_wit_FeedInsideRxByte : (∃ t, exec (.feed 0x41) start = .next t) ∧
    ∃ u, exec (.rxByte 0x41) start = .next u := ⟨⟨_, rfl⟩, _, rfl⟩
theorem test_wit_RxNoBuffer : (ready Draws.empty).fault = .none ∧ (ready Draws.empty).held = none ∧
    0 < (ready Draws.empty).fill ∧ (ready Draws.empty).fill < (ready Draws.empty).cfg.accCap ∧
    (ready Draws.empty).draws.acquire = none := by decide
/-- The four fates of a frame, each with answers that lead to it. -/
theorem test_wit_RxFates : FrameArrives (ready { goodDraws with filter := .reject }) [0xC0, 0x41] 1 3 ∧
    FrameArrives (ready { goodDraws with checksum := .invalid }) [0xC0, 0x41] 1 3 ∧
    FrameArrives (ready goodDraws) [0xC0, 0x41] 1 3 ∧
    FrameArrives (ready { goodDraws with ingest := .fail }) [0xC0, 0x41] 1 3 :=
  ⟨⟨spanReady _, rfl, by decide⟩, ⟨spanReady _, rfl, by decide⟩, frameArrives, ⟨spanReady _, rfl, by decide⟩⟩
/-- One byte too few. -/
theorem test_wit_RxTooSmall : SpanReady (ready { goodDraws with acquire := some (1, 2) }) [0xC0, 0x41] ∧
    (2 : Nat) < (ready goodDraws).fill + 1 := ⟨spanReady _, by decide⟩
theorem test_wit_RxOnce : ∃ t, exec (.rxByte END) (ready goodDraws) = .next t ∧ t.fault = .none := ⟨_, rfl, by decide⟩
/-- The payload fills the buffer's first bytes; the longest payload is in test_wit_SendLongest. -/
theorem test_wit_Send : toSend.fault = .none ∧ toSend.fields.n ≤ toSend.cfg.maxTxPayload ∧
    blockHolds toSend toSend.fields.h = false ∧ toSend.draws.linkUp = true ∧
    [(0xC0 : Byte), 0xDB, 0x41].length = toSend.fields.n ∧ toSend.fields.n ≤ capOf toSend toSend.fields.h ∧
    PacketReads toSend toSend.fields.h [0xC0, 0xDB, 0x41] :=
  ⟨rfl, by decide, by decide, rfl, rfl, by decide, toSend_reads⟩
/-- V-TX-11: `n = MAX_TX_PAYLOAD`, which fits, and one more, which does not. -/
theorem test_wit_SendLongest : (4 : Nat) ≤ start.cfg.maxTxPayload ∧ start.cfg.maxTxPayload < 5 ∧
    (startWith { Fields.empty with n := 5 }).fault = .none := by decide
theorem test_wit_SendDown : start.fault = .none ∧ start.fields.n ≤ start.cfg.maxTxPayload ∧
    blockHolds start start.fields.h = false ∧ start.draws.linkUp = false := by decide
/-- The block holds the buffer; and a payload one byte longer than its buffer. -/
theorem test_wit_SendWrong : (lifeOf { toSend with life := [(2, .ownedByBlock)] } 2 = .ownedByBlock ∧
    toSend.fields.n ≤ toSend.cfg.maxTxPayload) ∧
    blockHolds { toSend with caps := [(2, 2)] } 2 = false ∧ capOf { toSend with caps := [(2, 2)] } 2 < toSend.fields.n ∧
    toSend.draws.linkUp = true := by decide
theorem test_wit_SendSucceeds : ∃ t, exec (.send true) toSend = .next t ∧ t.fault = .none := ⟨_, rfl, by decide⟩
theorem test_wit_Completion : { racing true with inbox := [.complete 0 7 []] }.cfg.wf = true ∧
    (racing true).inflight[0]? = some ⟨[[0xC0], [0x41], [0xC0]]⟩ ∧ (∀ c ∈ [[(0xC0 : Byte)], [0x41], [0xC0]], c ≠ []) ∧
    ∃ t, step { racing true with inbox := [.complete 0 7 []] } = .next t := ⟨rfl, rfl, by decide, _, rfl⟩
theorem test_wit_Race : (racing false).fault = .none ∧ (racing false).fields.n ≤ (racing false).cfg.maxTxPayload ∧
    blockHolds (racing false) 2 = false ∧ (racing false).draws.linkUp = true ∧
    (racing false).fields.n ≤ capOf (racing false) 2 ∧ PacketReads (racing false) 2 [0xC0, 0xDB, 0x41] ∧
    (racing false).inflight[0]? = some ⟨[[0xC0], [0x41], [0xC0]]⟩ ∧ (racing false).cfg.txCopyAtSubmit = false ∧
    (racing true).cfg.txCopyAtSubmit = true :=
  ⟨rfl, by decide, by decide, rfl, by decide, toSend_reads, rfl, rfl, rfl⟩
theorem test_wit_ReadStatus : start.fault = .none ∧ stopped.fault ≠ .none := by decide
theorem test_wit_Transaction : isTransaction .readStatus = true ∧ ∃ t, exec .readStatus start = .next t := ⟨rfl, _, rfl⟩
theorem test_wit_LostRx : full.held = none ∧ ∃ t, exec (.rxByte 0x03) full = .next t ∧ t.status = some .overflow :=
  ⟨rfl, _, rfl, by decide⟩
theorem test_wit_Spaces : ∃ t, exec (.rxByte END) (ready goodDraws) = .next t := ⟨_, rfl⟩
/-- A handed-off buffer 9 while a frame goes into buffer 1. -/
theorem test_wit_HandedOff : (∃ t, exec (.rxByte END) { ready goodDraws with life := [(9, .handedOff)] } = .next t) ∧
    lifeOf { ready goodDraws with life := [(9, .handedOff)] } 9 = .handedOff ∧
    goodDraws.acquire ≠ some (9, 3) := ⟨⟨_, rfl⟩, by decide, by decide⟩

/-- A buffer that is the consumer's is handed out; a buffer that is the pool's is sent; one given, written and given
back by agents that do not have it. -/
theorem test_wit_BrokenDuties : (arriving.cfg.wf = true ∧ arriving.fault = .none ∧ 0 < arriving.fill ∧
      arriving.fill < arriving.cfg.accCap ∧ goodDraws.acquire = some (1, 3) ∧
      arriving.inbox = [.request .rxPort END.toNat Fields.empty goodDraws] ∧
      allocated { arriving with owner := [(1, .outside)] } 1 = true) ∧
    (sending.inbox = [.request .cmd (encode (.send true)).2 toSend.fields goodDraws] ∧
      ownerOf { sending with owner := [(2, .pool)] } 2 = some .pool ∧ blockHolds sending 2 = false) ∧
    { start with inbox := [.ownerRelease 2] }.inbox = [.ownerRelease 2] ∧
    ownerOf { start with owner := [(2, .block)] } 2 = some .block ∧ start.cfg.wf = true := by decide
theorem arriving_memoryInv : MemoryInv arriving := by
  refine ⟨by decide, by decide, ?_, by decide, by decide, by decide, by decide, by decide, by decide, by decide,
    by decide⟩
  intro i hi
  match i with
  | 0 => exact ⟨_, rfl⟩
  | 1 => exact ⟨_, rfl⟩
  | n + 2 => exact absurd hi (by show ¬ n + 2 < 2; omega)
/-- A frame that arrives with every duty met. -/
theorem test_wit_DutifulRun : MemoryInv arriving ∧ PumpInv arriving ∧ arriving.fault = .none ∧
    brokenDuties (.rxByte END) arriving = [] ∧ brokenDuties (.send true) toSend = [] :=
  ⟨arriving_memoryInv, { start_pumpInv with }, rfl, by decide, by decide⟩

end Sys2Proof.Tests
end

section
/-! The refusal of a configuration that is not well formed (R6). -/

namespace Sys2Proof

/-- R6, read the other way: what an ill-formed configuration is. -/
theorem Config.wf_eq_false_iff {c : Config} : c.wf = false ↔ c.accCap < 2 := by
  rw [Config.wf, decide_eq_false_iff_not, Nat.not_le]

/-- The configuration is checked before the inbox and the fault are looked at. -/
theorem Machine.step_of_wf_eq_false {s : Machine.State} (h : s.cfg.wf = false) :
    Machine.step s = .refused .illFormedConfig :=
  if_pos h

/-- Settles O16: `step` checks the configuration first, and `Config.wf` is the bound on ACC_CAP. -/
theorem smallAccumulationBufferIsRefused : Obligations.SmallAccumulationBufferIsRefused :=
  fun _ hcap => Machine.step_of_wf_eq_false (Config.wf_eq_false_iff.mpr hcap)

end Sys2Proof
end

section
/-! What an instruction can do, said once over the whole instruction set: the laws of the single instructions put
together, and what no instruction writes. -/

namespace Sys2Proof.Machine

/-- Every next state of an instruction, by the instruction. All but FEED, RX_BYTE and SEND write only the codec's work
area, the status, the results and the fault register. -/
inductive ExecEnd (s : State) : Instr → State → Prop where
  | feed {b : Byte} {t : State} (h : FeedEnd s b t) : ExecEnd s (.feed b) t
  | rxByte {b : Byte} {t : State} (h : RxEnd s b t) : ExecEnd s (.rxByte b) t
  | send {rel : Bool} {t : State} (h : SendEnd s rel t) : ExecEnd s (.send rel) t
  | aside {i : Instr} (hi : ∀ b, i ≠ .rxByte b) (codec : Codec) (status : Option EventCode) (result : Result)
      (fault : FaultCode) (faultInfo : FaultInfo) : ExecEnd s i
        { s with codec := codec, status := status, result := result, fault := fault, faultInfo := faultInfo }

/-- A symbol row ends with the codec's work area written. -/
theorem symbolOp_next {i : Instr} {f : Codec → Codec} {s t : State} (hi : symbolOp i = some f)
    (ht : exec i s = .next t) : s.fault = .none ∧ ExecEnd s i t := by
  obtain ⟨hf, rfl⟩ := symbol_next hi ht
  exact ⟨hf, .aside (by rintro b rfl; cases hi) _ s.status s.result s.fault s.faultInfo⟩

/-- Every next state of an instruction is one of these; the block was running. -/
theorem exec_next {i : Instr} {s t : State} (ht : exec i s = .next t) : s.fault = .none ∧ ExecEnd s i t := by
  cases i with
  | encode =>
    obtain ⟨hf, rfl | rfl⟩ := encode_next ht
    · exact ⟨hf, .aside (by simp) _ _ _ s.fault s.faultInfo⟩
    · exact ⟨hf, .aside (by simp) s.codec _ _ _ _⟩
  | decode =>
    obtain ⟨hf, rfl | rfl⟩ := decode_next ht
    · exact ⟨hf, .aside (by simp) _ _ _ s.fault s.faultInfo⟩
    · exact ⟨hf, .aside (by simp) s.codec _ _ _ _⟩
  | feed b => exact (feed_next ht).imp_right .feed
  | send rel => exact (send_next ht).imp_right .send
  | readStatus =>
    obtain ⟨hf, rfl⟩ := readStatus_next ht
    exact ⟨hf, .aside (by simp) s.codec _ _ s.fault s.faultInfo⟩
  | illegal w =>
    obtain ⟨hf, rfl⟩ := illegal_next ht
    exact ⟨hf, .aside (by simp) s.codec _ _ _ _⟩
  | rxByte b => exact (rxByte_next ht).imp_right .rxByte
  | encEnd => exact symbolOp_next rfl ht
  | encEsc => exact symbolOp_next rfl ht
  | encLit b => exact symbolOp_next rfl ht
  | decNEnd => exact symbolOp_next rfl ht
  | decNEsc => exact symbolOp_next rfl ht
  | decNLit b => exact symbolOp_next rfl ht
  | decEEscEnd => exact symbolOp_next rfl ht
  | decEEscEsc => exact symbolOp_next rfl ht
  | decELit b => exact symbolOp_next rfl ht
  | decEoiEscaped => exact symbolOp_next rfl ht

end Sys2Proof.Machine
end

section
/-! The memory invariant (R20, R22, R25, R50): one lemma per update of what it speaks of, then every instruction and
every step (O10). -/

namespace Sys2Proof.Machine

open Sys2Proof.Safety

/-! ## ACC and FILL -/

/-- R22: storing the next byte extends the written bytes of ACC by one. -/
theorem written_insert {n : Nat} {m : Memory} (h : ∀ i < n, ∃ b, Table.lookup i m = some b) (b : Byte) :
    ∀ i < n + 1, ∃ c, Table.lookup i (Table.insert n b m) = some c := by
  intro i hi
  rw [lookup_insert]
  split
  · exact ⟨b, rfl⟩
  · exact h i (by omega)

/-- An empty span asks nothing of ACC but its form. -/
theorem memoryInv_emptied {s : State} (h : MemoryInv s) : MemoryInv { s with fill := 0, receiving := false } :=
  { h with
    fill_le := Nat.zero_le _
    acc_written := fun _ hi => absurd hi (Nat.not_lt_zero _)
    receiving_fill := nofun }

theorem memoryInv_stored {s : State} (h : MemoryInv s) (hr : s.fill < s.cfg.accCap) (b : Byte) (r : Bool) :
    MemoryInv { s with acc := Table.insert s.fill b s.acc, fill := s.fill + 1, receiving := r } :=
  { h with
    fill_le := hr
    acc_wf := wf_insert b hr h.acc_wf
    acc_written := written_insert h.acc_written b
    receiving_fill := fun _ => Nat.succ_pos _ }

theorem memoryInv_spanned {s : State} (h : MemoryInv s) (hr : s.fill < s.cfg.accCap) :
    MemoryInv { s with acc := Table.insert s.fill END s.acc, fill := 0, receiving := false } :=
  memoryInv_emptied (memoryInv_stored h hr END false)

/-! ## SCRATCH, the packet buffers and the ledgers -/

/-- The packet buffers' part of the invariant, in the form the laws of the byte spaces keep. -/
theorem memoryInv_pktForm {s : State} (h : MemoryInv s) : PktForm s := ⟨h.pkt_rising, h.pkt_wf⟩

/-- The ledger's part of the invariant, in the form the laws of the ledger keep. -/
theorem memoryInv_lifeForm {s : State} (h : MemoryInv s) : LifeForm s := ⟨h.life_rising, h.life_listed⟩

theorem memoryInv_setSpaceMem_pkt {s : State} (h : MemoryInv s) (k : Handle) {m : Memory}
    (hm : Memory.wf (capOf s k) m) : MemoryInv (setSpaceMem (.pkt k) m s) :=
  have hp := pktForm_setSpaceMem (memoryInv_pktForm h) k hm
  { h with pkt_rising := hp.1, pkt_wf := hp.2 }

theorem memoryInv_setCap {s : State} (h : MemoryInv s) (k : Handle) (c : Nat) : MemoryInv (setCap k c s) :=
  have hp := pktForm_setCap (memoryInv_pktForm h) k c
  { h with pkt_rising := hp.1, pkt_wf := hp.2, caps_rising := rising_insert k c h.caps_rising }

theorem memoryInv_setLife {s : State} (h : MemoryInv s) (k : Handle) (v : Life) : MemoryInv (setLife k v s) :=
  have hl := lifeForm_setLife (memoryInv_lifeForm h) k v
  { h with life_rising := hl.1, life_listed := hl.2, owner_rising := rising_setLife_owner h.owner_rising k v }

theorem memoryInv_setOwner {s : State} (h : MemoryInv s) (k : Handle) (o : Owner) : MemoryInv (setOwner k o s) :=
  { h with owner_rising := rising_setOwner h.owner_rising k o }

/-- A byte written inside its space; in ACC it may stand below FILL. -/
theorem memoryInv_setByte {s : State} (h : MemoryInv s) {sp : Space} {i : Nat} (hi : i < spaceSize s sp) (b : Byte) :
    MemoryInv (setSpaceMem sp (Table.insert i b (spaceMem s sp)) s) := by
  cases sp with
  | acc =>
    refine { h with acc_wf := wf_insert b hi h.acc_wf, acc_written := fun j hj => ?_ }
    show ∃ c, Table.lookup j (Table.insert i b s.acc) = some c
    rw [lookup_insert]
    split
    · exact ⟨b, rfl⟩
    · exact h.acc_written j hj
  | scratch => exact { h with scratch_wf := wf_insert b hi h.scratch_wf }
  | pkt k => exact memoryInv_setSpaceMem_pkt h k (wf_insert b hi (pktForm_mem (memoryInv_pktForm h) k))

theorem memoryInv_writtenSpan {sp : Space} (bs : List Byte) :
    ∀ (i : Nat) {s : State}, MemoryInv s → i + bs.length ≤ spaceSize s sp →
      MemoryInv (writtenSpan sp i bs s) := by
  induction bs with
  | nil => exact fun _ _ h _ => h
  | cons b bs ih =>
    intro i s h hi
    rw [List.length_cons] at hi
    exact ih (i + 1) (memoryInv_setByte h (by omega) b) (by rw [spaceSize_setSpaceMem]; omega)

/-! ## The states inside RX_BYTE and SEND -/

theorem memoryInv_afterAcquire {s : State} (h : MemoryInv s) (hr : s.fill < s.cfg.accCap) (k : Handle) (c : Nat) :
    MemoryInv (afterAcquire s k c) := by
  refine memoryInv_setLife (memoryInv_setCap ?_ k c) k .ownedByBlock
  exact { memoryInv_spanned h hr with }

theorem memoryInv_afterDecode {s : State} (h : MemoryInv s) (hr : s.fill < s.cfg.accCap) {bs : List Byte}
    (hl : bs.length = s.fill) {k : Handle} {c : Nat} (hc : s.fill + 1 ≤ c) : MemoryInv (afterDecode s bs k c) := by
  refine memoryInv_writtenSpan _ 0 { memoryInv_afterAcquire h hr k c with } ?_
  have hk : (unescape (bs ++ [END])).length ≤ s.fill + 1 := by simpa [hl] using unescape_length_le (bs ++ [END])
  have hcap : capOf (afterAcquire s k c) k = c := by rw [capOf_afterAcquire, if_pos rfl]
  show 0 + (unescape (bs ++ [END])).length ≤ capOf (afterAcquire s k c) k
  omega

theorem memoryInv_sendBegun {s : State} (h : MemoryInv s) (rel up : Bool) : MemoryInv (sendBegun rel up s) :=
  { memoryInv_setLife { h with } s.fields.h (if rel then .ownedByBlock else .borrowed) with }

theorem memoryInv_sendSubmitted {s : State} (h : MemoryInv s) (rel : Bool) {p : List Byte}
    (hp : p.length ≤ s.cfg.maxTxPayload) : MemoryInv (sendSubmitted rel p s) := by
  have hlen : 0 + (frameOf p).length ≤ s.cfg.scratchCap := by
    have hle := encodedLength_le p
    rw [frameOf_length, Config.scratchCap]
    omega
  have hbegun : MemoryInv { sendBegun rel true s with codec := { s.codec with out := [] } } :=
    { memoryInv_sendBegun h rel true with }
  exact { memoryInv_writtenSpan (sp := .scratch) (frameOf p) 0 hbegun hlen with }

/-! ## Every instruction, every step -/

theorem feedEnd_memoryInv {s t : State} {b : Byte} (h : MemoryInv s) (ht : FeedEnd s b t) : MemoryInv t := by
  cases ht with
  | overflow b hr => exact { memoryInv_emptied h with }
  | stored b hr hb => exact { memoryInv_stored h hr b s.receiving with }
  | frame span hr h0 hl hs => exact { memoryInv_spanned h hr with }

theorem rxEnd_memoryInv {s t : State} {b : Byte} (h : MemoryInv s) (ht : RxEnd s b t) : MemoryInv t := by
  cases ht with
  | overflow b hh hr => exact { memoryInv_emptied h with }
  | leakOverflow b k hh hr => exact { memoryInv_emptied h with }
  | stored b hh hr hb => exact { memoryInv_stored h hr b true with }
  | leakStored b k hh hr hb => exact { memoryInv_stored h hr b true with }
  | noBuffer hh hr h0 ha => exact { memoryInv_spanned h hr with }
  | leakNoBuffer k hh hr h0 ha => exact { memoryInv_spanned h hr with }
  | tooSmall k c hr h0 ha hc => exact { memoryInv_afterAcquire h hr k c with }
  | filteredOut bs k c hr h0 ha hc hst hl hf =>
    exact { memoryInv_setLife (memoryInv_afterDecode h hr hl hc) k .released with }
  | checksumInvalid bs k c hr h0 ha hc hst hl hf hk =>
    exact { memoryInv_setLife (memoryInv_afterDecode h hr hl hc) k .released with }
  | delivered bs k c hr h0 ha hc hst hl hf hk hi =>
    exact { memoryInv_setLife (memoryInv_afterDecode h hr hl hc) k .handedOff with }
  | refused bs k c hr h0 ha hc hst hl hf hk hi =>
    exact { memoryInv_setLife (memoryInv_afterDecode h hr hl hc) k .released with }

theorem sendEnd_memoryInv {s t : State} {rel : Bool} (h : MemoryInv s) (ht : SendEnd s rel t) : MemoryInv t := by
  cases ht with
  | tooLong hn => exact { h with }
  | wrongBuffer hn hh => exact { h with }
  | linkDown hn hh hu => exact { memoryInv_setLife h s.fields.h (sendLife rel) with }
  | outside hn hh hu hc => exact { memoryInv_sendBegun h rel true with }
  | sent p hn hh hu hc hl hp =>
    have hs := memoryInv_sendSubmitted h rel (p := p) (by omega)
    exact { memoryInv_setLife hs s.fields.h (sendLife rel) with }

theorem exec_memoryInv {i : Instr} {s t : State} (h : MemoryInv s) (ht : exec i s = .next t) : MemoryInv t := by
  cases (exec_next ht).2 with
  | feed he => exact feedEnd_memoryInv h he
  | rxByte he => exact rxEnd_memoryInv h he
  | send he => exact sendEnd_memoryInv h he
  | aside => exact { h with }

/-- R240: reset empties ACC, SCRATCH and LIFE, and keeps the packet buffers with their capacities and owners. -/
theorem resetBlock_memoryInv {s : State} (h : MemoryInv s) : MemoryInv (resetBlock s) :=
  have hreset := resetWith_spaceForm s.cfg
  { h with
    fill_le := Nat.zero_le _
    acc_wf := hreset .acc
    acc_written := fun _ hi => absurd hi (Nat.not_lt_zero _)
    scratch_wf := hreset .scratch
    life_rising := List.Pairwise.nil
    life_listed := nofun
    owner_rising := rising_forgetHeld h.owner_rising
    receiving_fill := nofun }

/-- R46: the bytes an owner writes stay within the buffer. -/
theorem ownerWrite_memoryInv {s : State} (h : MemoryInv s) (k : Handle) (bytes : List Byte) :
    MemoryInv (setSpaceMem (.pkt k) (putBytes 0 (bytes.take (capOf s k)) (spaceMem s (.pkt k))) s) :=
  memoryInv_setSpaceMem_pkt h k
    (wf_putBytes _ 0 _ (by simp [List.length_take]) (pktForm_mem (memoryInv_pktForm h) k))

theorem stepEnd_memoryInv {s t : State} (h : MemoryInv s) (ht : StepEnd s t) : MemoryInv t := by
  have hin (rest : List Input) : MemoryInv { s with inbox := rest } := { h with }
  cases ht with
  | idle hf => exact h
  | request i fields draws rest t hd he =>
    refine exec_memoryInv ?_ he
    exact { h with }
  | interrupted rest hf => exact { h with }
  | complete which v picks rest => exact { h with }
  | reset rest => exact resetBlock_memoryInv (hin rest)
  | poolGives k cap rest ha => exact memoryInv_setOwner (memoryInv_setCap (hin rest) k cap) k .outside
  | ownerWrite k bytes rest hm => exact memoryInv_setOwner (ownerWrite_memoryInv (hin rest) k bytes) k .outside
  | ownerRelease k rest hm => exact memoryInv_setOwner (hin rest) k .pool

/-- Settles O10: `step_next` says which agent moved, and each of its ends keeps the invariant. -/
theorem stepKeepsMemoryInv : Obligations.StepKeepsMemoryInv :=
  fun _ _ h ht => stepEnd_memoryInv h (step_next ht).2

end Sys2Proof.Machine
end

section
/-! The pump's invariant (R27 to R29, R160): how LIFE and the ledger of owners move together, then every instruction
and every step (O11). -/

namespace Sys2Proof.Machine

open Sys2Proof.Safety

/-! ## The two ledgers move together -/

/-- The ledgers of `t` are those of `s` with LIFE(k) at `v`, and the owner of `k` that follows from it. -/
structure LedgerSet (s t : State) (k : Handle) (v : Life) : Prop where
  life : ∀ h, lifeOf t h = if k = h then v else lifeOf s h
  owner : ∀ h, ownerOf t h = if k = h then some (ownerAfter v) else ownerOf s h

theorem setLife_ledgerSet (s : State) (k : Handle) (v : Life) : LedgerSet s (setLife k v s) k v :=
  ⟨lifeOf_setLife k v s, ownerOf_setLife k v s⟩

theorem afterAcquire_ledgerSet (s : State) (k : Handle) (c : Nat) :
    LedgerSet s (afterAcquire s k c) k .ownedByBlock :=
  ⟨lifeOf_afterAcquire s k c, ownerOf_afterAcquire s k c⟩

theorem afterDecode_ledgerSet (s : State) (bs : List Byte) (k : Handle) (c : Nat) :
    LedgerSet s (afterDecode s bs k c) k .ownedByBlock :=
  ⟨lifeOf_afterDecode s bs k c, ownerOf_afterDecode s bs k c⟩

theorem sendBegun_ledgerSet (rel up : Bool) (s : State) :
    LedgerSet s (sendBegun rel up s) s.fields.h (if rel then .ownedByBlock else .borrowed) :=
  ⟨sendBegun_life rel up s, fun h => by rw [sendBegun_owner]; cases rel <;> rfl⟩

theorem sendSubmitted_ledgerSet (rel : Bool) (p : List Byte) (s : State) :
    LedgerSet s (sendSubmitted rel p s) s.fields.h (if rel then .ownedByBlock else .borrowed) := by
  obtain ⟨hlife, howner⟩ := sendBegun_ledgerSet rel true s
  exact ⟨fun h => by rw [sendSubmitted_life, hlife], fun h => by rw [sendSubmitted_owner, howner]⟩

/-- Of two settings of one entry the later one stands. -/
theorem LedgerSet.setLife {s t : State} {k : Handle} {v : Life} (h : LedgerSet s t k v) (w : Life) :
    LedgerSet s (Machine.setLife k w t) k w := by
  refine ⟨fun h' => ?_, fun h' => ?_⟩
  · rw [lifeOf_setLife, h.life]; split <;> rfl
  · rw [ownerOf_setLife, h.owner]; split <;> rfl

/-- R29: LIFE says that the block holds the buffer exactly where the ledger of owners gives it to the block. -/
theorem ownerAfter_eq_block_iff (v : Life) :
    ownerAfter v = .block ↔ (v == .ownedByBlock || v == .borrowed) = true := by
  cases v <;> decide

section
variable {s t : State} {k : Handle} {v : Life}

theorem LedgerSet.blockHolds (h : LedgerSet s t k v) (h' : Handle) :
    blockHolds t h' = if k = h' then decide (ownerAfter v = .block) else Machine.blockHolds s h' := by
  unfold Machine.blockHolds
  rw [h.life]
  split
  · rw [Bool.eq_iff_iff, decide_eq_true_iff, ownerAfter_eq_block_iff]
  · rfl

theorem LedgerSet.owned (h : LedgerSet s t k v)
    (ho : ∀ h', ownerOf s h' = some .block ↔ Machine.blockHolds s h' = true) (h' : Handle) :
    ownerOf t h' = some .block ↔ Machine.blockHolds t h' = true := by
  rw [h.blockHolds, h.owner]
  split
  · simp
  · exact ho h'

/-- The invariant where a buffer the block has taken stays with it: the block has faulted. -/
theorem pumpInv_faulted (h : LedgerSet s t k v) (hs : PumpInv s) (hf : t.fault ≠ .none) : PumpInv t :=
  ⟨fun hn => absurd hn hf, fun hn => absurd hn hf, fun hn => absurd hn hf, h.owned hs.owned⟩

/-- The invariant where the buffer has been given back. -/
theorem pumpInv_givenBack (h : LedgerSet s t k v) (hs : PumpInv s) (hf : s.fault = .none)
    (hv : ownerAfter v ≠ .block) (hphase : t.pumpPhase = .waitByte) (hheld : t.held = none) : PumpInv t := by
  refine ⟨fun _ => hphase, fun _ => hheld, fun _ h' => ?_, h.owned hs.owned⟩
  rw [h.blockHolds]
  split
  · exact decide_eq_false hv
  · exact hs.unheld hf h'

end

/-- R42, R46: a change of owner among those outside the block. -/
theorem pumpInv_setOwner {s : State} (h : PumpInv s) {k : Handle} {o : Owner} (ho : o ≠ .block)
    (hk : ownerOf s k ≠ some .block) : PumpInv (setOwner k o s) := by
  refine { h with owned := fun h' => ?_ }
  rw [ownerOf_setOwner]
  split
  · next he =>
    subst he
    have hb : blockHolds s k ≠ true := fun hb => hk ((h.owned k).mpr hb)
    exact iff_of_false (by simpa using ho) hb
  · exact h.owned h'

/-! ## Every instruction, every step -/

theorem feedEnd_pumpInv {s t : State} {b : Byte} (h : PumpInv s) (ht : FeedEnd s b t) : PumpInv t := by
  cases ht with
  | overflow b hr => exact { h with }
  | stored b hr hb => exact { h with }
  | frame span hr h0 hl hs => exact { h with }

/-- R161: with nothing held, RX_BYTE ends in WAIT_BYTE unless it faults. -/
theorem rxEnd_pumpInv {s t : State} {b : Byte} (hf : s.fault = .none) (h : PumpInv s) (ht : RxEnd s b t) :
    PumpInv t := by
  have hheld := h.held hf
  have hgone (bs : List Byte) (k : Handle) (c : Nat) (v : Life) :
      LedgerSet s (setLife k v (afterDecode s bs k c)) k v := (afterDecode_ledgerSet s bs k c).setLife v
  cases ht with
  | overflow b hh hr => exact { h with phase := fun _ => rfl }
  | stored b hh hr hb => exact { h with phase := fun _ => rfl }
  | noBuffer hh hr h0 ha => exact { h with phase := fun _ => rfl }
  | leakOverflow b k hh hr => rw [hheld] at hh; cases hh
  | leakStored b k hh hr hb => rw [hheld] at hh; cases hh
  | leakNoBuffer k hh hr h0 ha => rw [hheld] at hh; cases hh
  | tooSmall k c hr h0 ha hc =>
    exact pumpInv_faulted (k := k) { afterAcquire_ledgerSet s k c with } h (by simp)
  | filteredOut bs k c hr h0 ha hc hst hl hf' =>
    exact pumpInv_givenBack (k := k) { hgone bs k c .released with } h hf (by decide) rfl rfl
  | checksumInvalid bs k c hr h0 ha hc hst hl hf' hk =>
    exact pumpInv_givenBack (k := k) { hgone bs k c .released with } h hf (by decide) rfl rfl
  | delivered bs k c hr h0 ha hc hst hl hf' hk hi =>
    exact pumpInv_givenBack (k := k) { hgone bs k c .handedOff with } h hf (by decide) rfl rfl
  | refused bs k c hr h0 ha hc hst hl hf' hk hi =>
    exact pumpInv_givenBack (k := k) { hgone bs k c .released with } h hf (by decide) rfl rfl

theorem sendEnd_pumpInv {s t : State} {rel : Bool} (hf : s.fault = .none) (h : PumpInv s) (ht : SendEnd s rel t) :
    PumpInv t := by
  have hv : ownerAfter (sendLife rel) ≠ .block := by cases rel <;> decide
  cases ht with
  | tooLong hn => exact { h with phase := nofun, held := nofun, unheld := nofun }
  | wrongBuffer hn hh => exact { h with phase := nofun, held := nofun, unheld := nofun }
  | linkDown hn hh hu =>
    exact pumpInv_givenBack (k := s.fields.h) { setLife_ledgerSet s s.fields.h (sendLife rel) with } h hf hv
      (h.phase hf) (h.held hf)
  | outside hn hh hu hc =>
    exact pumpInv_faulted (k := s.fields.h) { sendBegun_ledgerSet rel true s with } h (by simp)
  | sent p hn hh hu hc hl hp =>
    refine pumpInv_givenBack (k := s.fields.h)
      { (sendSubmitted_ledgerSet rel p s).setLife (sendLife rel) with } h hf hv ?_ ?_
    · simpa using h.phase hf
    · simpa using h.held hf

theorem exec_pumpInv {i : Instr} {s t : State} (h : PumpInv s) (ht : exec i s = .next t) : PumpInv t := by
  obtain ⟨hf, he⟩ := exec_next ht
  cases he with
  | feed he => exact feedEnd_pumpInv h he
  | rxByte he => exact rxEnd_pumpInv hf h he
  | send he => exact sendEnd_pumpInv hf h he
  | aside => exact { h with
      phase := fun _ => h.phase hf, held := fun _ => h.held hf, unheld := fun _ => h.unheld hf }

/-- R241: reset empties LIFE, and no buffer stays the block's in the ledger of owners. -/
theorem resetBlock_pumpInv (s : State) : PumpInv (resetBlock s) := by
  refine ⟨fun _ => rfl, fun _ => rfl, fun _ _ => rfl, fun h => iff_of_false ?_ (by show ¬ false = true; decide)⟩
  show Table.lookup h (forgetHeld s.owner) ≠ some .block
  rw [lookup_forgetHeld]
  rcases Table.lookup h s.owner with _ | _ | _ | _ <;> decide

theorem stepEnd_pumpInv {s t : State} (h : PumpInv s) (ht : StepEnd s t) : PumpInv t := by
  cases ht with
  | idle hf => exact h
  | request i fields draws rest t hd he =>
    refine exec_pumpInv ?_ he
    exact { h with }
  | interrupted rest hf => exact { h with }
  | complete which v picks rest => exact { h with }
  | reset rest => exact resetBlock_pumpInv _
  | poolGives k cap rest ha =>
    have hk : ownerOf s k ≠ some .block := fun hb => by simp [allocated, hb] at ha
    refine pumpInv_setOwner ?_ (by decide) hk
    exact { h with }
  | ownerWrite k bytes rest hm =>
    refine pumpInv_setOwner ?_ (by decide) ((outsideMayUse_iff s k).mp hm).1
    exact { h with }
  | ownerRelease k rest hm =>
    refine pumpInv_setOwner ?_ (by decide) ((outsideMayUse_iff s k).mp hm).1
    exact { h with }

/-- Settles O11: `step_next` says which agent moved, and each of its ends keeps the invariant. -/
theorem stepKeepsPumpInv : Obligations.StepKeepsPumpInv :=
  fun _ _ h ht => stepEnd_pumpInv h (step_next ht).2

end Sys2Proof.Machine
end

section
/-! What an instruction leaves alone, said once: what RX_BYTE never writes, and what no instruction writes. -/

namespace Sys2Proof.Machine

open Sys2Proof.Safety

/-- What RX_BYTE leaves alone however it ends: the configuration, the transmit side and the inputs. -/
structure RxLeaves (s t : State) : Prop where
  cfg : t.cfg = s.cfg
  scratch : t.scratch = s.scratch
  td : t.td = s.td
  inflight : t.inflight = s.inflight
  wire : t.wire = s.wire
  fields : t.fields = s.fields
  draws : t.draws = s.draws
  inbox : t.inbox = s.inbox

theorem RxLeaves.refl (s : State) : RxLeaves s s := ⟨rfl, rfl, rfl, rfl, rfl, rfl, rfl, rfl⟩

theorem afterDecode_leaves (s : State) (bs : List Byte) (k : Handle) (c : Nat) : RxLeaves s (afterDecode s bs k c) :=
  ⟨afterDecode_cfg s bs k c, afterDecode_scratch s bs k c, afterDecode_td s bs k c, afterDecode_inflight s bs k c,
    afterDecode_wire s bs k c, afterDecode_fields s bs k c, afterDecode_draws s bs k c, afterDecode_inbox s bs k c⟩

theorem rxEnd_leaves {s t : State} {b : Byte} (ht : RxEnd s b t) : RxLeaves s t := by
  cases ht with
  | overflow => exact { RxLeaves.refl s with }
  | stored => exact { RxLeaves.refl s with }
  | noBuffer => exact { RxLeaves.refl s with }
  | leakOverflow => exact { RxLeaves.refl s with }
  | leakStored => exact { RxLeaves.refl s with }
  | leakNoBuffer => exact { RxLeaves.refl s with }
  | tooSmall => exact { RxLeaves.refl s with }
  | filteredOut bs k c => exact { afterDecode_leaves s bs k c with }
  | checksumInvalid bs k c => exact { afterDecode_leaves s bs k c with }
  | delivered bs k c => exact { afterDecode_leaves s bs k c with }
  | refused bs k c => exact { afterDecode_leaves s bs k c with }

/-- R33, R40: what no instruction writes, the configuration and the inputs. -/
structure InputsKept (s t : State) : Prop where
  cfg : t.cfg = s.cfg
  fields : t.fields = s.fields
  draws : t.draws = s.draws
  inbox : t.inbox = s.inbox

theorem InputsKept.refl (s : State) : InputsKept s s := ⟨rfl, rfl, rfl, rfl⟩

theorem sendSubmitted_inputsKept (rel : Bool) (p : List Byte) (s : State) : InputsKept s (sendSubmitted rel p s) :=
  ⟨sendSubmitted_cfg rel p s, sendSubmitted_fields rel p s, sendSubmitted_draws rel p s,
    sendSubmitted_inbox rel p s⟩

theorem feedEnd_inputsKept {s t : State} {b : Byte} (ht : FeedEnd s b t) : InputsKept s t := by
  cases ht with
  | overflow => exact { InputsKept.refl s with }
  | stored => exact { InputsKept.refl s with }
  | frame => exact { InputsKept.refl s with }

theorem sendEnd_inputsKept {s t : State} {rel : Bool} (ht : SendEnd s rel t) : InputsKept s t := by
  cases ht with
  | tooLong => exact { InputsKept.refl s with }
  | wrongBuffer => exact { InputsKept.refl s with }
  | linkDown => exact { InputsKept.refl s with }
  | outside => exact { InputsKept.refl s with }
  | sent p => exact { sendSubmitted_inputsKept rel p s with }

theorem exec_inputsKept {i : Instr} {s t : State} (ht : exec i s = .next t) : InputsKept s t := by
  cases (exec_next ht).2 with
  | feed he => exact feedEnd_inputsKept he
  | rxByte he => exact { rxEnd_leaves he with }
  | send he => exact sendEnd_inputsKept he
  | aside => exact { InputsKept.refl s with }

/-- R42: RX_BYTE changes a capacity only where the pool answers its call with a buffer. -/
theorem rxEnd_caps {s t : State} {b : Byte} (ht : RxEnd s b t) :
    t.caps = s.caps ∨
      ∃ k c, completesSpan b s = true ∧ s.draws.acquire = some (k, c) ∧ t.caps = Table.insert k c s.caps := by
  have hspan (hr : s.fill < s.cfg.accCap) (h0 : 0 < s.fill) : completesSpan END s = true := by
    simp [completesSpan, hr, h0]
  cases ht with
  | overflow => exact .inl rfl
  | stored => exact .inl rfl
  | noBuffer => exact .inl rfl
  | leakOverflow => exact .inl rfl
  | leakStored => exact .inl rfl
  | leakNoBuffer => exact .inl rfl
  | tooSmall k c hr h0 ha => exact .inr ⟨k, c, hspan hr h0, ha, rfl⟩
  | filteredOut bs k c hr h0 ha => exact .inr ⟨k, c, hspan hr h0, ha, afterDecode_caps s bs k c⟩
  | checksumInvalid bs k c hr h0 ha => exact .inr ⟨k, c, hspan hr h0, ha, afterDecode_caps s bs k c⟩
  | delivered bs k c hr h0 ha => exact .inr ⟨k, c, hspan hr h0, ha, afterDecode_caps s bs k c⟩
  | refused bs k c hr h0 ha => exact .inr ⟨k, c, hspan hr h0, ha, afterDecode_caps s bs k c⟩

theorem feedEnd_caps {s t : State} {b : Byte} (ht : FeedEnd s b t) : t.caps = s.caps := by
  cases ht <;> rfl

theorem sendEnd_caps {s t : State} {rel : Bool} (ht : SendEnd s rel t) : t.caps = s.caps := by
  cases ht with
  | tooLong => rfl
  | wrongBuffer => rfl
  | linkDown => rfl
  | outside => rfl
  | sent p => exact sendSubmitted_caps rel p s

/-- R245, item 1: an RX_BYTE that ran did not take a buffer that someone owns. -/
theorem allocated_of_dutyRefusal_none {s : State} {b : Byte} {k : Handle} {c : Nat}
    (hd : dutyRefusal (.rxByte b) s = none) (hs : completesSpan b s = true) (ha : s.draws.acquire = some (k, c)) :
    allocated s k = false := by
  simpa [dutyRefusal, ha, hs] using hd

theorem capOf_congr {s t : State} (h : t.caps = s.caps) (k : Handle) : capOf t k = capOf s k := by
  unfold capOf; rw [h]

/-- R11: an instruction whose request breaks no duty leaves the capacity of an allocated buffer. -/
theorem exec_capOf {i : Instr} {s t : State} {k : Handle} (hd : dutyRefusal i s = none) (ht : exec i s = .next t)
    (hk : allocated s k = true) : capOf t k = capOf s k := by
  cases (exec_next ht).2 with
  | feed he => exact capOf_congr (feedEnd_caps he) k
  | send he => exact capOf_congr (sendEnd_caps he) k
  | aside => rfl
  | rxByte he =>
    rcases rxEnd_caps he with hc | ⟨j, c, hs, ha, hc⟩
    · exact capOf_congr hc k
    · have hj := allocated_of_dutyRefusal_none hd hs ha
      have hne : k ≠ j := by rintro rfl; rw [hk] at hj; cases hj
      unfold capOf
      rw [hc, lookup_insert_ne hne]

theorem step_cfg {s t : State} (ht : step s = .next t) : t.cfg = s.cfg := by
  cases (step_next ht).2 with
  | request i fields draws rest t hd he => exact (exec_inputsKept he).cfg
  | ownerWrite k bytes rest hm => exact setSpaceMem_cfg _ _ _
  | poolGives k cap rest ha => exact setCap_cfg k cap _
  | idle => rfl
  | interrupted => rfl
  | complete => rfl
  | reset => rfl
  | ownerRelease => rfl

theorem step_capOf {s t : State} {k : Handle} (ht : step s = .next t) (hk : allocated s k = true) :
    capOf t k = capOf s k := by
  cases (step_next ht).2 with
  | request i fields draws rest t hd he => exact (exec_capOf hd he hk :)
  | poolGives j cap rest ha =>
    have hne : j ≠ k := by rintro rfl; rw [hk] at ha; cases ha
    rw [setOwner_capOf, capOf_setCap, if_neg hne]
    rfl
  | ownerWrite => exact capOf_setSpaceMem _ _ _ _
  | idle => rfl
  | interrupted => rfl
  | complete => rfl
  | reset => rfl
  | ownerRelease => rfl

/-- Settles O13: no end of a step writes the configuration, only the pool's answers write capacities, and those for a
buffer that someone owns are refused. -/
theorem configurationAndInputsAreNeverWritten : Obligations.ConfigurationAndInputsAreNeverWritten := by
  refine ⟨fun _ _ => step_cfg, fun _ _ _ => step_capOf, fun i s t ht => ?_⟩
  obtain ⟨hcfg, hfields, hdraws, hinbox⟩ := exec_inputsKept ht
  exact ⟨hcfg, hfields, hdraws, hinbox⟩

end Sys2Proof.Machine
end

section
/-! The transmit invariant (R30, R31, R45): a submission and a completion, then every instruction and every step
(O12). -/

namespace Sys2Proof.Machine

open Sys2Proof.Safety

/-- R45: the transfer fits SCRATCH of `cap` bytes and has a value to send for each of its bytes. -/
def Transfer.InRange (cap : Nat) (t : Transfer) : Prop := t.cand.length ≤ cap ∧ ∀ c ∈ t.cand, c ≠ []

theorem inRange_newTransfer {cap : Nat} {bytes : List Byte} (h : bytes.length ≤ cap) :
    (newTransfer bytes).InRange cap :=
  ⟨by simpa [newTransfer] using h, by simp [newTransfer]⟩

theorem inRange_overwriteTransfer {cap : Nat} {t : Transfer} (h : t.InRange cap) (bytes : List Byte) :
    (overwriteTransfer bytes t).InRange cap :=
  ⟨(overwriteCand_length t.cand bytes).trans_le h.1, fun _ hc => mem_overwriteCand h.2 hc⟩

theorem inRange_inflightAfter {cap : Nat} {bytes : List Byte} (hb : bytes.length ≤ cap) (c : Config)
    {ts : List Transfer} (h : ∀ t ∈ ts, t.InRange cap) : ∀ t ∈ inflightAfter c bytes ts, t.InRange cap := by
  intro t ht
  rcases List.mem_append.mp ht with ht | ht
  · split at ht
    · exact h t ht
    · obtain ⟨u, hu, rfl⟩ := List.mem_map.mp ht
      exact inRange_overwriteTransfer (h u hu) bytes
  · obtain rfl := List.mem_singleton.mp ht
    exact inRange_newTransfer hb

theorem inflightAfter_length (c : Config) (bytes : List Byte) (ts : List Transfer) :
    (inflightAfter c bytes ts).length = ts.length + 1 := by
  unfold inflightAfter
  split <;> simp

/-- The invariant speaks of the configuration, TD and the transfers only. -/
theorem transmitInv_congr {s t : State} (h : TransmitInv s) (hcfg : t.cfg = s.cfg) (htd : t.td = s.td)
    (hin : t.inflight = s.inflight) : TransmitInv t := by
  constructor
  · rw [htd, hcfg]; exact h.len_le
  · rw [htd]; exact h.src
  · rw [htd, hcfg]; exact h.status_lt
  · rw [htd, hin]; exact h.pending_le
  · rw [hin, hcfg]; exact h.cand

/-- R184: a submission of a frame that fits SCRATCH. -/
theorem transmitInv_sendSubmitted {s : State} (h : TransmitInv s) (rel : Bool) {p : List Byte}
    (hp : p.length ≤ s.cfg.maxTxPayload) : TransmitInv (sendSubmitted rel p s) := by
  have hlen : encodedLength p ≤ s.cfg.scratchCap := by
    have hle := encodedLength_le p
    rw [Config.scratchCap]
    omega
  have hin := sendSubmitted_inflight rel p s
  have htd := sendSubmitted_td rel p s
  have hcfg := sendSubmitted_cfg rel p s
  constructor
  · rw [htd, hcfg]; exact hlen
  · rw [htd]
  · rw [htd, hcfg]; exact h.status_lt
  · rw [htd, hin, inflightAfter_length]; exact Nat.succ_le_succ h.pending_le
  · rw [hin, hcfg]
    exact inRange_inflightAfter (by rwa [frameOf_length]) s.cfg h.cand

/-- R45, R189: a completion cuts the status to W_STATUS bits and takes at most one transfer for one of TD_PENDING. -/
theorem completion_transmitInv {s : State} (h : TransmitInv s) (which v : Nat) (picks : List Nat) :
    TransmitInv (completion which v picks s) where
  len_le := h.len_le
  src := h.src
  status_lt := Nat.mod_lt _ (Nat.two_pow_pos _)
  pending_le := by
    have hp := h.pending_le
    show s.td.pending - 1 ≤ (s.inflight.eraseIdx which).length
    rw [List.length_eraseIdx]
    split <;> omega
  cand := fun t ht => h.cand t (List.mem_of_mem_eraseIdx ht)

/-- R240, R242: reset sets TD but TD_STATUS, and leaves the transfers. -/
theorem resetBlock_transmitInv {s : State} (h : TransmitInv s) : TransmitInv (resetBlock s) :=
  { h with len_le := Nat.zero_le _, src := rfl, pending_le := Nat.zero_le _ }

theorem sendEnd_transmitInv {s t : State} {rel : Bool} (h : TransmitInv s) (ht : SendEnd s rel t) :
    TransmitInv t := by
  cases ht with
  | tooLong => exact { h with }
  | wrongBuffer => exact { h with }
  | linkDown => exact { h with }
  | outside => exact { h with }
  | sent p hn hh hu hc hl hp => exact { transmitInv_sendSubmitted h rel (p := p) (by omega) with }

theorem exec_transmitInv {i : Instr} {s t : State} (h : TransmitInv s) (ht : exec i s = .next t) :
    TransmitInv t := by
  cases (exec_next ht).2 with
  | feed he => cases he <;> exact { h with }
  | rxByte he =>
    have hl := rxEnd_leaves he
    exact transmitInv_congr h hl.cfg hl.td hl.inflight
  | send he => exact sendEnd_transmitInv h he
  | aside => exact { h with }

theorem stepEnd_transmitInv {s t : State} (h : TransmitInv s) (ht : StepEnd s t) : TransmitInv t := by
  cases ht with
  | idle hf => exact h
  | request i fields draws rest t hd he =>
    refine exec_transmitInv ?_ he
    exact { h with }
  | interrupted rest hf => exact { h with }
  | complete which v picks rest =>
    refine completion_transmitInv ?_ which v picks
    exact { h with }
  | reset rest =>
    refine resetBlock_transmitInv ?_
    exact { h with }
  | poolGives k cap rest ha => exact { h with }
  | ownerWrite k bytes rest hm => exact { h with }
  | ownerRelease k rest hm => exact { h with }

/-- Settles O12: `step_next` says which agent moved, and each of its ends keeps the invariant. -/
theorem stepKeepsTransmitInv : Obligations.StepKeepsTransmitInv :=
  fun _ _ h ht => stepEnd_transmitInv h (step_next ht).2

end Sys2Proof.Machine
end

section
/-! The reset state meets the invariants (O8), what FEED stores (O33), and what LOST_RX counts (O56). -/

namespace Sys2Proof.Machine

open Sys2Proof.Safety

/-! ## Reset -/

theorem resetWith_memoryInv (c : Config) : MemoryInv (State.resetWith c) where
  fill_le := Nat.zero_le _
  acc_wf := resetWith_spaceForm c .acc
  acc_written := fun _ hi => absurd hi (Nat.not_lt_zero _)
  scratch_wf := resetWith_spaceForm c .scratch
  pkt_rising := List.Pairwise.nil
  pkt_wf := nofun
  caps_rising := List.Pairwise.nil
  life_rising := List.Pairwise.nil
  life_listed := nofun
  owner_rising := List.Pairwise.nil
  receiving_fill := nofun

theorem resetWith_pumpInv (c : Config) : PumpInv (State.resetWith c) where
  phase := fun _ => rfl
  held := fun _ => rfl
  unheld := fun _ _ => rfl
  owned := fun _ => iff_of_false nofun nofun

theorem resetWith_transmitInv (c : Config) : TransmitInv (State.resetWith c) where
  len_le := Nat.zero_le _
  src := rfl
  status_lt := Nat.mod_lt _ (Nat.two_pow_pos _)
  pending_le := Nat.le_refl _
  cand := nofun

/-- Settles O8: the invariants hold at reset under every configuration. -/
theorem resetMeetsTheInvariants : Obligations.ResetMeetsTheInvariants :=
  ⟨resetWith_memoryInv _, resetWith_pumpInv _, resetWith_transmitInv _⟩

/-! ## What FEED stores -/

/-- R22: FEED(b) where ACC holds `bs` below FILL. -/
theorem feedEnd_stored {s t : State} {b : Byte} {bs : List Byte} (hst : Holds s.acc 0 bs) (hl : bs.length = s.fill)
    (ht : FeedEnd s b t) :
    (t.fill = 0 ∨ t.fill = s.fill + 1) ∧ (s.fill < s.cfg.accCap → Holds t.acc 0 (bs ++ [b])) ∧
      (t.fill ≠ 0 → s.fill < s.cfg.accCap) := by
  have hnew (b : Byte) : Holds (Table.insert s.fill b s.acc) 0 (bs ++ [b]) := hl ▸ holds_insert hst b
  cases ht with
  | overflow b hr => exact ⟨.inl rfl, fun h => by omega, fun h => absurd rfl h⟩
  | stored b hr hb => exact ⟨.inr rfl, fun _ => hnew b, fun _ => hr⟩
  | frame span hr h0 hls hs => exact ⟨.inl rfl, fun _ => hnew END, fun _ => hr⟩

/-- Settles O33: each of the ends of FEED. -/
theorem storedBytesAreTheFedBytes : Obligations.StoredBytesAreTheFedBytes :=
  fun _ _ _ _ hst hl ht => feedEnd_stored hst hl (feed_next ht).2

/-! ## What LOST_RX counts -/

/-- R23: with nothing held, RX_BYTE counts where it ends in an event that is a loss. -/
theorem rxEnd_lostRx {s t : State} {b : Byte} (hh : s.held = none) (ht : RxEnd s b t) :
    (∃ e, t.status = some e ∧ isLost e = true) ∧ t.lostRx = s.lostRx + 1 ∨
      (¬ ∃ e, t.status = some e ∧ isLost e = true) ∧ t.lostRx = s.lostRx := by
  have hnot {e : EventCode} (hs : isLost e = false) : ¬ ∃ e', some e = some e' ∧ isLost e' = true := by simp [hs]
  cases ht with
  | overflow => exact .inl ⟨⟨_, rfl, rfl⟩, rfl⟩
  | noBuffer => exact .inl ⟨⟨_, rfl, rfl⟩, rfl⟩
  | refused bs k c => exact .inl ⟨⟨_, rfl, rfl⟩, congrArg (· + 1) (afterDecode_lostRx s bs k c)⟩
  | stored => exact .inr ⟨hnot rfl, rfl⟩
  | filteredOut bs k c => exact .inr ⟨hnot rfl, afterDecode_lostRx s bs k c⟩
  | checksumInvalid bs k c => exact .inr ⟨hnot rfl, afterDecode_lostRx s bs k c⟩
  | delivered bs k c => exact .inr ⟨hnot rfl, afterDecode_lostRx s bs k c⟩
  | tooSmall => exact .inr ⟨(fun ⟨_, hs, _⟩ => nomatch hs), rfl⟩
  | leakOverflow b k hk => rw [hh] at hk; cases hk
  | leakStored b k hk => rw [hh] at hk; cases hk
  | leakNoBuffer k hk => rw [hh] at hk; cases hk

theorem feedEnd_lostRx {s t : State} {b : Byte} (ht : FeedEnd s b t) : t.lostRx = s.lostRx := by
  cases ht <;> rfl

theorem sendEnd_lostRx {s t : State} {rel : Bool} (ht : SendEnd s rel t) : t.lostRx = s.lostRx := by
  cases ht with
  | tooLong => rfl
  | wrongBuffer => rfl
  | linkDown => rfl
  | outside => rfl
  | sent p => exact sendSubmitted_lostRx rel p s

/-- Settles O56: RX_BYTE by its ends, and no other instruction writes LOST_RX. -/
theorem lostRxCountsThreeConditionsOfRxByte : Obligations.LostRxCountsThreeConditionsOfRxByte := by
  intro i s t hh ht
  have hrest (hi : ∀ b, i ≠ .rxByte b) (hl : t.lostRx = s.lostRx) :
      t.lostRx = s.lostRx +
        (if (∃ b, i = .rxByte b) ∧ (∃ e, t.status = some e ∧ isLost e = true) then 1 else 0) := by
    rw [if_neg fun ⟨⟨b, hb⟩, _⟩ => hi b hb, hl]
    exact (BitVec.add_zero _).symm
  cases (exec_next ht).2 with
  | feed he => exact hrest (by simp) (feedEnd_lostRx he)
  | send he => exact hrest (by simp) (sendEnd_lostRx he)
  | aside hi => exact hrest hi rfl
  | rxByte he =>
    rcases rxEnd_lostRx hh he with ⟨hlost, hl⟩ | ⟨hkept, hl⟩
    · rw [if_pos ⟨⟨_, rfl⟩, hlost⟩, hl]
    · rw [if_neg fun h => hkept h.2, hl]
      exact (BitVec.add_zero _).symm

end Sys2Proof.Machine
end

section
/-! Three steps of agents outside the block, from the input that stands first in the inbox (O17, O51). -/

namespace Sys2Proof.Machine

section
variable {s : State} (hw : s.cfg.wf = true)
include hw

/-- R41: `readByte()` answered INTERRUPTED to a running block. -/
theorem step_interrupted {rest : List Input} (hf : s.fault = .none) (hi : s.inbox = .interrupted :: rest) :
    step s = .next (interruptedRead { s with inbox := rest }) := by
  unfold step
  rw [hi]
  simp [hw, whenRunning_running hf]

/-- R227: nothing pending in a running block. -/
theorem step_idle (hf : s.fault = .none) (hi : s.inbox = []) : step s = .next s := by
  unfold step
  rw [hi]
  simp [hw, idle, whenRunning_running hf]

/-- R45: a completion event, in a stopped block too (log entry 19). -/
theorem step_complete {which v : Nat} {picks : List Nat} {rest : List Input}
    (hi : s.inbox = .complete which v picks :: rest) :
    step s = .next (completion which v picks { s with inbox := rest }) := by
  unfold step
  rw [hi]
  simp [hw]

end

/-- Settles O17: the two steps by name. -/
theorem interruptedReadAndWaitChangeNothing : Obligations.InterruptedReadAndWaitChangeNothing :=
  ⟨fun _ _ hw hf hi => step_interrupted hw hf hi, fun _ hw hf hi => step_idle hw hf hi⟩

/-- Settles O51: the step is `completion`, whose decrement of a natural number stops at 0. -/
theorem completionWritesOnlyStatusAndPending : Obligations.CompletionWritesOnlyStatusAndPending := by
  intro s which v picks rest hw hi
  refine ⟨_, step_complete hw hi, rfl, ?_, rfl⟩
  rw [Nat.max_zero]
  rfl

end Sys2Proof.Machine
end

section
/-! TD_STATUS is neither read nor written by an instruction (O59, R31): each piece of a transaction does the same
whatever word stands there, and hands the word on. -/

namespace Sys2Proof.Machine

open Sys2Proof.Safety

/-- The piece with the state it ends in changed by `f`. -/
def Run.mapState {α : Type} (f : State → State) : Run α → Run α
  | .done a s => .done a (f s)
  | .raised s => .raised (f s)
  | .stopped e => .stopped e

/-- R31: run with `v` in TD_STATUS, the piece does what it does without it, and leaves `v` there. -/
def StatusBlind {α : Type} (v : Nat) (k : State → Run α) : Prop :=
  ∀ s, k (withStatus v s) = (k s).mapState (withStatus v)

variable {α β : Type} {v : Nat}

/-! ## Composing pieces -/

theorem statusBlind_andThen {r : State → Run α} {k : α → State → Run β} (hr : StatusBlind v r)
    (hk : ∀ a, StatusBlind v (k a)) : StatusBlind v fun s => (r s).andThen k := by
  intro s
  show (r (withStatus v s)).andThen k = ((r s).andThen k).mapState (withStatus v)
  rw [hr s]
  cases r s with
  | done a t => exact hk a t
  | raised t => rfl
  | stopped e => rfl

theorem statusBlind_ite {c : State → Prop} [DecidablePred c] {k l : State → Run α}
    (hc : ∀ s, c (withStatus v s) ↔ c s) (hk : StatusBlind v k) (hl : StatusBlind v l) :
    StatusBlind v fun s => if c s then k s else l s := by
  intro s
  by_cases h : c s
  · simpa only [if_pos h, if_pos ((hc s).mpr h)] using hk s
  · simpa only [if_neg h, if_neg (mt (hc s).mp h)] using hl s

theorem record_withStatus (c : Call) (s : State) : record c (withStatus v s) = withStatus v (record c s) := rfl

theorem setPhase_withStatus (p : PumpPhase) (s : State) :
    setPhase p (withStatus v s) = withStatus v (setPhase p s) := rfl

theorem countLost_withStatus (s : State) : countLost (withStatus v s) = withStatus v (countLost s) := rfl

theorem takeBuffer_withStatus (h : Handle) (c : Nat) (s : State) :
    takeBuffer h c (withStatus v s) = withStatus v (takeBuffer h c s) := rfl

theorem recordFault_withStatus (f : FaultCode) (info : FaultInfo) (s : State) :
    recordFault f info (withStatus v s) = withStatus v (recordFault f info s) := by
  unfold recordFault
  by_cases h : s.fault = .none
  · rw [if_pos h, if_pos (by exact h)]; rfl
  · rw [if_neg h, if_neg (by exact h)]

theorem raise_statusBlind (f : FaultCode) (info : FaultInfo) : StatusBlind v (raise (α := α) f info) :=
  fun s => congrArg Run.raised (recordFault_withStatus f info s)

theorem report_statusBlind (e : EventCode) (r : Result) : StatusBlind v (report e r) := fun _ => rfl

/-! ## The byte spaces -/

theorem spaceSize_withStatus (sp : Space) (s : State) : spaceSize (withStatus v s) sp = spaceSize s sp := by
  cases sp <;> rfl

theorem spaceMem_withStatus (sp : Space) (s : State) : spaceMem (withStatus v s) sp = spaceMem s sp := by
  cases sp <;> rfl

theorem mayRead_withStatus (sp : Space) (s : State) : mayRead (withStatus v s) sp = mayRead s sp := by
  cases sp <;> rfl

theorem mayWrite_withStatus (sp : Space) (s : State) : mayWrite (withStatus v s) sp = mayWrite s sp := by
  cases sp <;> rfl

theorem setSpaceMem_withStatus (sp : Space) (m : Memory) (s : State) :
    setSpaceMem sp m (withStatus v s) = withStatus v (setSpaceMem sp m s) := by
  cases sp <;> rfl

theorem memRead_statusBlind (sp : Space) (i : Nat) : StatusBlind v (memRead sp i) := by
  refine statusBlind_ite (fun s => by rw [spaceSize_withStatus, mayRead_withStatus]) (raise_statusBlind _ _)
    fun s => ?_
  rw [readByteOf_congr (spaceMem_withStatus sp s)]
  cases readByteOf s sp i <;> rfl

theorem memWrite_statusBlind (sp : Space) (i : Nat) (b : Byte) : StatusBlind v (memWrite sp i b) := by
  refine statusBlind_ite (fun s => by rw [spaceSize_withStatus, mayWrite_withStatus]) (raise_statusBlind _ _)
    fun s => ?_
  rw [spaceMem_withStatus, setSpaceMem_withStatus]
  rfl

theorem readSpan_statusBlind (sp : Space) (n : Nat) : ∀ i, StatusBlind v (readSpan sp i n) := by
  induction n with
  | zero => exact fun _ _ => rfl
  | succ n ih =>
    exact fun i => statusBlind_andThen (memRead_statusBlind sp i) fun _ =>
      statusBlind_andThen (ih (i + 1)) fun _ _ => rfl

theorem writeSpan_statusBlind (sp : Space) (bs : List Byte) : ∀ i, StatusBlind v (writeSpan sp i bs) := by
  induction bs with
  | nil => exact fun _ _ => rfl
  | cons b bs ih => exact fun i => statusBlind_andThen (memWrite_statusBlind sp i b) fun _ => ih (i + 1)

/-! ## The codec and the reassembler -/

theorem encodeOp_statusBlind (p : List Byte) (dstCap : Nat) : StatusBlind v (encodeOp p dstCap) :=
  statusBlind_ite (fun _ => Iff.rfl) (raise_statusBlind _ _) fun _ => rfl

theorem decodeOp_statusBlind (r : List Byte) (dstCap : Nat) : StatusBlind v (decodeOp r dstCap) :=
  statusBlind_ite (fun _ => Iff.rfl) (raise_statusBlind _ _) fun _ => rfl

theorem feedOp_statusBlind (b : Byte) : StatusBlind v (feedOp b) :=
  statusBlind_ite (fun _ => Iff.rfl) (fun _ => rfl) fun s =>
    statusBlind_andThen (memWrite_statusBlind .acc s.fill b)
      (fun _ => statusBlind_ite (fun _ => Iff.rfl) (fun _ => rfl) fun _ => rfl) s

/-! ## The pump -/

theorem releaseBuffer_statusBlind (h : Handle) : StatusBlind v (releaseBuffer h) :=
  statusBlind_ite (fun _ => Iff.rfl) (fun _ => rfl) (raise_statusBlind _ _)

theorem ingestBuffer_statusBlind (h : Handle) (k : Nat) : StatusBlind v (ingestBuffer h k) := by
  refine statusBlind_ite (fun _ => Iff.rfl) (fun s => ?_) (raise_statusBlind _ _)
  show (match s.draws.ingest with | .ok => _ | .fail => _) = _
  cases s.draws.ingest <;> rfl

theorem finishRx_statusBlind (e : EventCode) : StatusBlind v (finishRx e) := by
  intro s
  cases hh : s.held with
  | none => rw [finishRx_done hh, finishRx_done (by exact hh)]; rfl
  | some h =>
    rw [finishRx_raised hh, finishRx_raised (s := withStatus v s) hh, recordFault_withStatus]
    rfl

theorem dropFrame_statusBlind (h : Handle) (e : EventCode) : StatusBlind v (dropFrame h e) :=
  statusBlind_andThen (fun s => releaseBuffer_statusBlind h (setPhase .release s))
    fun _ s => finishRx_statusBlind e { s with held := none }

theorem offerFrame_statusBlind (h : Handle) (k : Nat) : StatusBlind v (offerFrame h k) :=
  statusBlind_andThen (fun s => ingestBuffer_statusBlind h k (setPhase .ingest s)) fun
    | .ok => fun s => finishRx_statusBlind .delivered { s with held := none }
    | .fail => statusBlind_andThen (fun s => releaseBuffer_statusBlind h (setPhase .release s))
        fun _ s => finishRx_statusBlind .ingestionRejected (countLost { s with held := none })

theorem inspectFrame_statusBlind (h : Handle) (k : Nat) : StatusBlind v (inspectFrame h k) := by
  intro s
  cases hf : s.draws.filter with
  | reject =>
    rw [inspectFrame_reject hf, inspectFrame_reject (s := withStatus v s) hf, setPhase_withStatus, record_withStatus]
    exact dropFrame_statusBlind h .filteredOut _
  | accept =>
    cases hc : s.draws.checksum with
    | invalid =>
      rw [inspectFrame_invalid hf hc, inspectFrame_invalid (s := withStatus v s) hf hc]
      simp only [setPhase_withStatus, record_withStatus]
      exact dropFrame_statusBlind h .checksumInvalid _
    | valid =>
      rw [inspectFrame_valid hf hc, inspectFrame_valid (s := withStatus v s) hf hc]
      simp only [setPhase_withStatus, record_withStatus]
      exact offerFrame_statusBlind h k _

theorem decodeFrame_statusBlind (h : Handle) (len : Nat) : StatusBlind v (decodeFrame h len) :=
  statusBlind_andThen (fun s => readSpan_statusBlind .acc len 0 (setPhase .decode s)) fun span =>
    statusBlind_andThen (fun s => decodeOp_statusBlind span (capOf s h) s) fun out =>
      statusBlind_andThen (writeSpan_statusBlind (.pkt h) out 0) fun _ => inspectFrame_statusBlind h out.length

theorem acquireForFrame_statusBlind (len : Nat) : StatusBlind v (acquireForFrame len) := by
  intro s
  cases ha : s.draws.acquire with
  | none =>
    rw [acquireForFrame_none ha, acquireForFrame_none (s := withStatus v s) ha, setPhase_withStatus,
      record_withStatus, countLost_withStatus]
    exact finishRx_statusBlind .poolExhausted _
  | some p =>
    rw [acquireForFrame_some ha, acquireForFrame_some (s := withStatus v s) ha, setPhase_withStatus,
      record_withStatus, takeBuffer_withStatus]
    exact decodeFrame_statusBlind p.1 len _

/-! ## The transmit path -/

theorem encodeAndSubmit_statusBlind (h : Handle) (n : Nat) : StatusBlind v (encodeAndSubmit h n) :=
  statusBlind_andThen (readSpan_statusBlind (.pkt h) n 0) fun p =>
    statusBlind_andThen (encodeOp_statusBlind p (2 * n + 2)) fun r =>
      statusBlind_andThen (writeSpan_statusBlind .scratch r.1 0) fun _ _ => rfl

theorem finishSend_statusBlind (h : Handle) (rel : Bool) (e : EventCode) : StatusBlind v (finishSend h rel e) := by
  cases rel with
  | false => exact fun _ => rfl
  | true => exact statusBlind_andThen (releaseBuffer_statusBlind h) fun _ => report_statusBlind e .none

theorem sendBody_statusBlind (h : Handle) (n : Nat) (rel : Bool) : StatusBlind v (sendBody h n rel) := by
  have hsend := statusBlind_andThen (v := v) (encodeAndSubmit_statusBlind h n)
    fun _ => finishSend_statusBlind h rel .sent
  refine statusBlind_ite (fun _ => Iff.rfl) (fun s => raise_statusBlind _ _ s)
    (statusBlind_ite (fun _ => Iff.rfl) (raise_statusBlind _ _) (statusBlind_ite (fun _ => Iff.rfl) ?_ ?_))
  · exact fun s => hsend
      (record (.queryLinkUp s.draws.linkUp) (setLife h (if rel then .ownedByBlock else .borrowed) s))
  · exact fun s => finishSend_statusBlind h rel .linkDown
      (record (.queryLinkUp s.draws.linkUp) (setLife h (if rel then .ownedByBlock else .borrowed) s))

/-! ## The instructions -/

theorem close_mapState (f : State → State) (r : Run Unit) : (r.mapState f).close = mapNext f r.close := by
  cases r <;> rfl

theorem whenRunning_withStatus (s : State) {o p : Host.Outcome State Fault Refusal}
    (h : o = mapNext (withStatus v) p) :
    whenRunning (withStatus v s) o = mapNext (withStatus v) (whenRunning s p) := by
  by_cases hf : s.fault = .none
  · rw [whenRunning_running hf, whenRunning_running (by exact hf), h]
  · rw [whenRunning_stopped hf, whenRunning_stopped (by exact hf)]
    rfl

theorem transact_withStatus {body : State → Run Unit} (hb : StatusBlind v body) (s : State) :
    transact (withStatus v s) body = mapNext (withStatus v) (transact s body) :=
  whenRunning_withStatus s ((congrArg Run.close (hb (startTransaction s))).trans (close_mapState _ _))

theorem symbolStep_withStatus (f : Codec → Codec) (s : State) :
    symbolStep (withStatus v s) f = mapNext (withStatus v) (symbolStep s f) :=
  whenRunning_withStatus s rfl

theorem execEncode_withStatus (s : State) :
    execEncode (withStatus v s) = mapNext (withStatus v) (execEncode s) :=
  transact_withStatus (fun s => statusBlind_andThen (encodeOp_statusBlind (payloadOperand s) (dstCapOperand s))
    (fun r => report_statusBlind .ok (.encoded r.1 r.2)) s) s

theorem execDecode_withStatus (s : State) :
    execDecode (withStatus v s) = mapNext (withStatus v) (execDecode s) :=
  transact_withStatus (fun s => statusBlind_andThen (decodeOp_statusBlind (rawOperand s) (dstCapOperand s))
    (fun out => report_statusBlind .ok (.decoded out out.length)) s) s

theorem execSend_withStatus (rel : Bool) (s : State) :
    execSend rel (withStatus v s) = mapNext (withStatus v) (execSend rel s) :=
  transact_withStatus (fun s => sendBody_statusBlind (handleOperand s) (lengthOperand s) rel s) s

theorem execFeed_withStatus (b : Byte) (s : State) :
    execFeed b (withStatus v s) = mapNext (withStatus v) (execFeed b s) :=
  transact_withStatus
    (statusBlind_andThen (feedOp_statusBlind b) fun
      | .incomplete => report_statusBlind .incomplete .none
      | .overflow => report_statusBlind .overflow .none
      | .frameReady start len =>
        statusBlind_andThen (readSpan_statusBlind .acc len start) fun span =>
          report_statusBlind .frameReady (.frame start len span)) s

theorem execRxByte_withStatus (b : Byte) (s : State) :
    execRxByte b (withStatus v s) = mapNext (withStatus v) (execRxByte b s) :=
  transact_withStatus
    (statusBlind_andThen (fun s => feedOp_statusBlind b (setPhase .feed s)) fun
      | .incomplete => fun s => finishRx_statusBlind .incomplete (markReceiving s)
      | .overflow => fun s => finishRx_statusBlind .overflow (countLost s)
      | .frameReady _ len => acquireForFrame_statusBlind len) s

/-- Settles O59: every meaning is a transaction or a symbol row, and no piece of either looks at TD_STATUS. -/
theorem noInstructionReadsOrWritesTdStatus : Obligations.NoInstructionReadsOrWritesTdStatus := by
  intro i s v
  cases i with
  | encode => exact execEncode_withStatus s
  | decode => exact execDecode_withStatus s
  | feed b => exact execFeed_withStatus b s
  | send rel => exact execSend_withStatus rel s
  | readStatus => exact transact_withStatus (fun _ => rfl) s
  | illegal w => exact transact_withStatus (raise_statusBlind _ _) s
  | rxByte b => exact execRxByte_withStatus b s
  | encEnd => exact symbolStep_withStatus _ s
  | encEsc => exact symbolStep_withStatus _ s
  | encLit b => exact symbolStep_withStatus _ s
  | decNEnd => exact symbolStep_withStatus _ s
  | decNEsc => exact symbolStep_withStatus _ s
  | decNLit b => exact symbolStep_withStatus _ s
  | decEEscEnd => exact symbolStep_withStatus _ s
  | decEEscEsc => exact symbolStep_withStatus _ s
  | decELit b => exact symbolStep_withStatus _ s
  | decEoiEscaped => exact symbolStep_withStatus _ s

end Sys2Proof.Machine
end

section
/-! Which instruction writes which byte space (R51, R53): the packet buffers and ACC by the ends of FEED, RX_BYTE and
SEND, then all three spaces over the whole instruction set (O57). -/

namespace Sys2Proof.Machine

/-- R51, R154: RX_BYTE leaves the bytes of every packet buffer but the one the pool answered with. -/
theorem rxEnd_pktMem {s t : State} {b : Byte} (ht : RxEnd s b t) (h : Handle) :
    spaceMem t (.pkt h) = spaceMem s (.pkt h) ∨ ∃ c, s.draws.acquire = some (h, c) := by
  have htaken {k : Handle} {c : Nat} (ha : s.draws.acquire = some (k, c))
      (hother : h ≠ k → spaceMem t (.pkt h) = spaceMem s (.pkt h)) :
      spaceMem t (.pkt h) = spaceMem s (.pkt h) ∨ ∃ c, s.draws.acquire = some (h, c) := by
    by_cases hk : h = k
    · exact .inr ⟨c, hk ▸ ha⟩
    · exact .inl (hother hk)
  cases ht with
  | overflow => exact .inl rfl
  | stored => exact .inl rfl
  | noBuffer => exact .inl rfl
  | leakOverflow => exact .inl rfl
  | leakStored => exact .inl rfl
  | leakNoBuffer => exact .inl rfl
  | tooSmall k c _ _ ha => exact htaken ha (spaceMem_afterAcquire_ne s · c)
  | filteredOut bs k c _ _ ha => exact htaken ha (spaceMem_afterDecode_ne s bs · c)
  | checksumInvalid bs k c _ _ ha => exact htaken ha (spaceMem_afterDecode_ne s bs · c)
  | delivered bs k c _ _ ha => exact htaken ha (spaceMem_afterDecode_ne s bs · c)
  | refused bs k c _ _ ha => exact htaken ha (spaceMem_afterDecode_ne s bs · c)

theorem feedEnd_scratch {s t : State} {b : Byte} (ht : FeedEnd s b t) : t.scratch = s.scratch := by
  cases ht <;> rfl

theorem feedEnd_pkt {s t : State} {b : Byte} (ht : FeedEnd s b t) : t.pkt = s.pkt := by
  cases ht <;> rfl

theorem sendEnd_acc {s t : State} {rel : Bool} (ht : SendEnd s rel t) : t.acc = s.acc := by
  cases ht with
  | tooLong => rfl
  | wrongBuffer => rfl
  | linkDown => rfl
  | outside => rfl
  | sent p => exact sendSubmitted_acc rel p s

theorem sendEnd_pkt {s t : State} {rel : Bool} (ht : SendEnd s rel t) : t.pkt = s.pkt := by
  cases ht with
  | tooLong => rfl
  | wrongBuffer => rfl
  | linkDown => rfl
  | outside => rfl
  | sent p => exact sendSubmitted_pkt rel p s

theorem readByteOf_pkt_congr {s t : State} (h : t.pkt = s.pkt) (k : Handle) (j : Nat) :
    readByteOf t (.pkt k) j = readByteOf s (.pkt k) j :=
  readByteOf_congr (by unfold spaceMem; rw [h]) j

/-- R51, R53: an instruction that changes a byte of a packet buffer is an RX_BYTE whose pool answer is that buffer. -/
theorem exec_pktBytes {i : Instr} {s t : State} (ht : exec i s = .next t) (h : Handle) :
    (∀ j, readByteOf t (.pkt h) j = readByteOf s (.pkt h) j) ∨
      ∃ b c, i = .rxByte b ∧ s.draws.acquire = some (h, c) := by
  cases (exec_next ht).2 with
  | feed he => exact .inl (readByteOf_pkt_congr (feedEnd_pkt he) h)
  | send he => exact .inl (readByteOf_pkt_congr (sendEnd_pkt he) h)
  | aside => exact .inl (readByteOf_pkt_congr rfl h)
  | rxByte he => exact (rxEnd_pktMem he h).imp readByteOf_congr fun ⟨c, ha⟩ => ⟨_, c, rfl, ha⟩

/-- R20: an instruction that changes ACC is FEED or RX_BYTE. -/
theorem exec_acc {i : Instr} {s t : State} (ht : exec i s = .next t) :
    t.acc = s.acc ∨ ∃ b, i = .feed b ∨ i = .rxByte b := by
  cases (exec_next ht).2 with
  | feed => exact .inr ⟨_, .inl rfl⟩
  | rxByte => exact .inr ⟨_, .inr rfl⟩
  | send he => exact .inl (sendEnd_acc he)
  | aside => exact .inl rfl

/-- R25: an instruction that changes SCRATCH is SEND. -/
theorem exec_scratch {i : Instr} {s t : State} (ht : exec i s = .next t) :
    t.scratch = s.scratch ∨ ∃ rel, i = .send rel := by
  cases (exec_next ht).2 with
  | feed he => exact .inl (feedEnd_scratch he)
  | rxByte he => exact .inl (rxEnd_leaves he).scratch
  | send => exact .inr ⟨_, rfl⟩
  | aside => exact .inl rfl

/-- Settles O57, space by space: every other instruction's ends leave the space as it was. -/
theorem eachSpaceIsWrittenByItsOwnOperationOnly : Obligations.EachSpaceIsWrittenByItsOwnOperationOnly :=
  fun _ _ _ ht => ⟨exec_acc ht, exec_scratch ht, exec_pktBytes ht⟩

end Sys2Proof.Machine
end

section
/-! The decoder's tables read both ways (R73, R74, R81 to R84): each command row by the word it takes, each symbol row
by its key, then decode and encode against each other (O1, O2, O3). -/

namespace Sys2Proof

/-! ## The command words -/

/-- R81, R82: the words of the five legal rows. -/
theorem Word.legal_iff {w : Word} :
    w.legal = true ↔
      w = 1#32 ∨ w = 2#32 ∨ w &&& 0xFFFF00FF#32 = 3#32 ∨ w &&& 0xFFFFFFEF#32 = 4#32 ∨ w = 5#32 := by
  simp [Word.legal, or_assoc]

/-- R81 to R83: the row of the command table that takes a word, with the mask that the word meets. -/
inductive CmdRow (w : Word) : Instr → Prop where
  | encode (h : w = 1#32) : CmdRow w .encode
  | decode (h : w = 2#32) : CmdRow w .decode
  | feed (h : w &&& 0xFFFF00FF#32 = 3#32) : CmdRow w (.feed (w.extractLsb' 8 8))
  | send (h : w &&& 0xFFFFFFEF#32 = 4#32) : CmdRow w (.send (w.getLsbD 4))
  | readStatus (h : w = 5#32) : CmdRow w .readStatus
  | illegal (h : w.legal = false) : CmdRow w (.illegal w)

theorem decodeCmd_row (w : Word) : CmdRow w (decodeCmd w) := by
  unfold decodeCmd
  split
  · next h => exact .encode h
  split
  · next h => exact .decode h
  split
  · next h => exact .feed h
  split
  · next h => exact .send h
  split
  · next h => exact .readStatus h
  next h1 h2 h3 h4 h5 =>
    refine .illegal (Bool.eq_false_iff.mpr fun hl => ?_)
    rcases Word.legal_iff.mp hl with h | h | h | h | h <;> contradiction

/-- R83: the catch-all takes exactly the words no row before it takes, and keeps the word. -/
theorem decodeCmd_eq_illegal_iff {w v : Word} : decodeCmd w = .illegal v ↔ v = w ∧ w.legal = false := by
  have hrow := decodeCmd_row w
  constructor
  · intro h
    rw [h] at hrow
    cases hrow with
    | illegal hl => exact ⟨rfl, hl⟩
  · rintro ⟨rfl, hl⟩
    have hno := mt Word.legal_iff.mpr (Bool.eq_false_iff.mp hl)
    generalize decodeCmd v = i at hrow
    cases hrow with
    | illegal => rfl
    | encode h => exact absurd (.inl h) hno
    | decode h => exact absurd (.inr (.inl h)) hno
    | feed h => exact absurd (.inr (.inr (.inl h))) hno
    | send h => exact absurd (.inr (.inr (.inr (.inl h)))) hno
    | readStatus h => exact absurd (.inr (.inr (.inr (.inr h)))) hno

/-- R81, R87: the word with OP 3 and `b` in IMM8 is FEED's, and IMM8 is read back. -/
theorem feedWord_fields : ∀ b : Byte,
    BitVec.ofNat 32 (b.toNat * 256 + 3) &&& 0xFFFF00FF#32 = 3#32 ∧
      (BitVec.ofNat 32 (b.toNat * 256 + 3)).extractLsb' 8 8 = b := by decide

theorem decodeCmd_feedWord (b : Byte) : decodeCmd (BitVec.ofNat 32 (b.toNat * 256 + 3)) = .feed b := by
  obtain ⟨hmask, himm⟩ := feedWord_fields b
  have hne {v : Word} (hv : v &&& 0xFFFF00FF#32 ≠ 3#32) : BitVec.ofNat 32 (b.toNat * 256 + 3) ≠ v := by
    rintro rfl
    exact hv hmask
  unfold decodeCmd
  rw [if_neg (hne (by decide)), if_neg (hne (by decide)), if_pos hmask, himm]

/-- R81 to R83: whatever row takes a word, the row's instruction is well formed and is written as that word. -/
theorem encode_decodeCmd (w : Word) : (decodeCmd w).wf = true ∧ encode (decodeCmd w) = (.cmd, w.toNat) := by
  have hrow := decodeCmd_row w
  generalize decodeCmd w = i at hrow
  cases hrow with
  | encode h => subst h; exact ⟨rfl, rfl⟩
  | decode h => subst h; exact ⟨rfl, rfl⟩
  | feed h => exact ⟨rfl, congrArg (Format.cmd, ·) (feed_word h)⟩
  | send h => exact ⟨rfl, congrArg (Format.cmd, ·) (send_word h).symm⟩
  | readStatus h => subst h; exact ⟨rfl, rfl⟩
  | illegal h => exact ⟨congrArg (!·) h, rfl⟩

/-! ## The symbol keys -/

/-- R73: the row of the encoder symbol table that takes `b` is well formed and is written as `b`. -/
theorem encode_decodeEncSym (b : Byte) :
    (decodeEncSym b).wf = true ∧ encode (decodeEncSym b) = (.encSym, b.toNat) := by
  unfold decodeEncSym
  split
  · next h => subst h; exact ⟨rfl, rfl⟩
  split
  · next h => subst h; exact ⟨rfl, rfl⟩
  · next h1 h2 => exact ⟨by simp [Instr.wf, h1, h2], rfl⟩

/-- R74: the row of the decoder symbol table that takes mode and byte is well formed and is written as their key. -/
theorem encode_decodeDecSym (m : Bool) (b : Byte) :
    (decodeDecSym m b).wf = true ∧ encode (decodeDecSym m b) = (.decSym, m.toNat * 256 + b.toNat) := by
  unfold decodeDecSym
  cases m with
  | true =>
    rw [if_pos rfl]
    split
    · next h => subst h; exact ⟨rfl, rfl⟩
    split
    · next h => subst h; exact ⟨rfl, rfl⟩
    · next h1 h2 => exact ⟨by simp [Instr.wf, h1, h2], rfl⟩
  | false =>
    rw [if_neg Bool.false_ne_true]
    split
    · next h => subst h; exact ⟨rfl, rfl⟩
    split
    · next h => subst h; exact ⟨rfl, rfl⟩
    · next h1 h2 => exact ⟨by simp [Instr.wf, h1, h2], by simp [encode]⟩

/-- R74: a 9-bit number is the key of its top bit and its low byte. -/
theorem decSymKey_of_lt {w : Nat} (h : w < 2 ^ 9) :
    (w.testBit 8).toNat * 256 + (BitVec.ofNat 8 w).toNat = w := by
  rw [Nat.toNat_testBit, BitVec.toNat_ofNat]
  omega

/-- R74: the mode and the byte of a key. -/
theorem decode_decSymKey (m : Bool) (b : Byte) :
    decode .decSym (m.toNat * 256 + b.toNat) = .ok (decodeDecSym m b) := by
  have hb := b.isLt
  have hm : m.toNat ≤ 1 := m.toNat_le
  have hmode : (m.toNat * 256 + b.toNat).testBit 8 = m := by
    rw [Nat.testBit_eq_decide_div_mod_eq, show (m.toNat * 256 + b.toNat) / 2 ^ 8 % 2 = m.toNat by omega]
    cases m <;> rfl
  have hbyte : BitVec.ofNat 8 (m.toNat * 256 + b.toNat) = b := by
    apply BitVec.eq_of_toNat_eq
    rw [BitVec.toNat_ofNat]
    omega
  rw [decode_decSym (by omega), hmode, hbyte]

/-! ## Words and bytes presented as numbers -/

theorem decode_cmd_toNat (w : Word) : decode .cmd w.toNat = .ok (decodeCmd w) := by
  rw [decode_cmd w.isLt, BitVec.ofNat_toNat, BitVec.setWidth_eq]

/-- R84: every byte on the receive port starts RX_BYTE. -/
theorem decode_rxPort_toNat (b : Byte) : decode .rxPort b.toNat = .ok (.rxByte b) := by
  rw [decode_rxPort b.isLt, BitVec.ofNat_toNat, BitVec.setWidth_eq]

theorem decode_encSym_toNat (b : Byte) : decode .encSym b.toNat = .ok (decodeEncSym b) := by
  rw [decode_encSym b.isLt, BitVec.ofNat_toNat, BitVec.setWidth_eq]

/-! ## Decode against encode -/

/-- Settles O1, row by row: a command by its word, a symbol by its key, a row tried last by what `wf` excludes. -/
theorem decodeOfEncodeIsTheInstruction : Obligations.DecodeOfEncodeIsTheInstruction := by
  intro i hwf
  cases i with
  | encode => rfl
  | decode => rfl
  | feed b =>
    have hlt : b.toNat * 256 + 3 < 2 ^ 32 := Laws.EncodeFits.feed b rfl
    exact (decode_cmd hlt).trans (congrArg Except.ok (decodeCmd_feedWord b))
  | send rel => cases rel <;> rfl
  | readStatus => rfl
  | illegal w =>
    have hl : w.legal = false := by simpa [Instr.wf] using hwf
    exact (decode_cmd_toNat w).trans (congrArg Except.ok (decodeCmd_eq_illegal_iff.mpr ⟨rfl, hl⟩))
  | rxByte b => exact decode_rxPort_toNat b
  | encEnd => rfl
  | encEsc => rfl
  | encLit b =>
    obtain ⟨h1, h2⟩ : b ≠ END ∧ b ≠ ESC := by simpa [Instr.wf] using hwf
    exact (decode_encSym_toNat b).trans (by rw [decodeEncSym, if_neg h1, if_neg h2])
  | decNEnd => rfl
  | decNEsc => rfl
  | decNLit b =>
    obtain ⟨h1, h2⟩ : b ≠ END ∧ b ≠ ESC := by simpa [Instr.wf] using hwf
    have hkey := decode_decSymKey false b
    simpa [encode, decodeDecSym, h1, h2] using hkey
  | decEEscEnd => rfl
  | decEEscEsc => rfl
  | decELit b =>
    obtain ⟨h1, h2⟩ : b ≠ ESC_END ∧ b ≠ ESC_ESC := by simpa [Instr.wf] using hwf
    have hkey := decode_decSymKey true b
    simpa [encode, decodeDecSym, h1, h2] using hkey
  | decEoiEscaped => rfl

/-- What decodes is no wider than its format. -/
theorem lt_of_decode_ok {f : Format} {w : Nat} {i : Instr} (h : decode f w = .ok i) : w < 2 ^ formatWidth f := by
  by_contra hw
  rw [decode_tooWide (Nat.le_of_not_lt hw)] at h
  cases h

/-- Settles O2, format by format: the row that takes the number is well formed and is written as that number. -/
theorem encodeOfDecodeIsTheWord : Obligations.EncodeOfDecodeIsTheWord := by
  intro f w i h
  have hw := lt_of_decode_ok h
  cases f with
  | cmd =>
    rw [decode_cmd hw] at h
    obtain rfl := Except.ok.inj h
    have := encode_decodeCmd (BitVec.ofNat 32 w)
    rwa [BitVec.toNat_ofNat, Nat.mod_eq_of_lt (b := 2 ^ 32) hw] at this
  | rxPort =>
    rw [decode_rxPort hw] at h
    obtain rfl := Except.ok.inj h
    exact ⟨rfl, congrArg (Format.rxPort, ·) (Nat.mod_eq_of_lt hw)⟩
  | encSym =>
    rw [decode_encSym hw] at h
    obtain rfl := Except.ok.inj h
    have := encode_decodeEncSym (BitVec.ofNat 8 w)
    rwa [BitVec.toNat_ofNat, Nat.mod_eq_of_lt (b := 2 ^ 8) hw] at this
  | decSym =>
    rw [decode_decSym hw] at h
    obtain rfl := Except.ok.inj h
    have := encode_decodeDecSym (w.testBit 8) (BitVec.ofNat 8 w)
    rwa [decSymKey_of_lt hw] at this
  | decEoi =>
    obtain rfl | rfl : w = 0 ∨ w = 1 := by
      have : w < 2 := hw
      omega
    · rw [decode_decEoi_zero] at h; cases h
    · rw [decode_decEoi_one] at h
      obtain rfl := Except.ok.inj h
      exact ⟨rfl, rfl⟩

/-- Of the numbers that fit their format, only the end of input in NORMAL mode has no row. -/
theorem decode_fits {f : Format} {w : Nat} (hw : w < 2 ^ formatWidth f) :
    (∃ i, decode f w = .ok i) ∨ (f = .decEoi ∧ w = 0) := by
  cases f with
  | cmd => exact .inl ⟨_, decode_cmd hw⟩
  | rxPort => exact .inl ⟨_, decode_rxPort hw⟩
  | encSym => exact .inl ⟨_, decode_encSym hw⟩
  | decSym => exact .inl ⟨_, decode_decSym hw⟩
  | decEoi =>
    obtain rfl | rfl : w = 0 ∨ w = 1 := by
      have : w < 2 := hw
      omega
    · exact .inr ⟨rfl, rfl⟩
    · exact .inl ⟨_, decode_decEoi_one⟩

/-- Settles O3: a number that fits decodes unless it is that one. -/
theorem decoderRejectsOnlyWhatHasNoRow : Obligations.DecoderRejectsOnlyWhatHasNoRow := by
  intro f w
  constructor
  · rintro ⟨e, he⟩
    by_contra hn
    rw [not_or] at hn
    rcases decode_fits (Nat.lt_of_not_le hn.1) with ⟨i, hi⟩ | heoi
    · rw [hi] at he; cases he
    · exact hn.2 heoi
  · rintro (hw | ⟨rfl, rfl⟩)
    · exact ⟨_, decode_tooWide hw⟩
    · exact ⟨_, decode_decEoi_zero⟩

/-- Settles O5: the words by evaluation, the receive port for every byte. -/
theorem sampleWordsDecodeAsTheSpecSays : Obligations.SampleWordsDecodeAsTheSpecSays :=
  ⟨rfl, rfl, rfl, rfl, rfl, rfl, rfl, rfl, rfl, rfl, rfl, rfl, rfl, rfl, decode_rxPort_toNat⟩

/-- Settles O6: the two tables of R85 and R86, entry by entry. -/
theorem eventAndFaultCodesHaveTheirNumbers : Obligations.EventAndFaultCodesHaveTheirNumbers := ⟨rfl, rfl⟩

end Sys2Proof
end

section
/-! The illegal command word (R83): its four conditions as arithmetic on the word, and what ILLEGAL does (O4). -/

namespace Sys2Proof

open Sys2Proof.Machine Sys2Proof.Safety

/-- R81, R82: the words of the FEED row, by OP, IMM8 and the bits that must be 0. -/
theorem feedMask_iff {w : Word} :
    w &&& 0xFFFF00FF#32 = 3#32 ↔ w.toNat % 256 = 3 ∧ w.toNat < 65536 := by
  constructor
  · intro h
    have hw := feed_word h
    have himm := (w.extractLsb' 8 8).isLt
    omega
  · rintro ⟨hlow, hhigh⟩
    have hw : w = BitVec.ofNat 32 ((BitVec.ofNat 8 (w.toNat / 256)).toNat * 256 + 3) := by
      apply BitVec.eq_of_toNat_eq
      simp only [BitVec.toNat_ofNat]
      omega
    rw [hw]
    exact (feedWord_fields _).1

/-- R81, R82: the words of the SEND row, with REL 0 and with REL 1. -/
theorem sendMask_iff {w : Word} : w &&& 0xFFFFFFEF#32 = 4#32 ↔ w.toNat = 4 ∨ w.toNat = 20 := by
  constructor
  · intro h
    rw [send_word h]
    cases w.getLsbD 4 <;> simp
  · rintro (h | h)
    · rw [BitVec.eq_of_toNat_eq (y := 4#32) h]; decide
    · rw [BitVec.eq_of_toNat_eq (y := 20#32) h]; decide

/-- R81, R82: the legal words as numbers. -/
theorem Word.legal_iff_toNat {w : Word} :
    w.legal = true ↔
      w.toNat = 1 ∨ w.toNat = 2 ∨ (w.toNat % 256 = 3 ∧ w.toNat < 65536) ∨ (w.toNat = 4 ∨ w.toNat = 20) ∨
        w.toNat = 5 := by
  rw [Word.legal_iff, feedMask_iff, sendMask_iff]
  simp only [← BitVec.toNat_inj, BitVec.toNat_ofNat, Nat.reduceMod, Nat.reducePow]

/-- R83: the four conditions as arithmetic on the word. -/
theorem illegalByFields_iff_toNat {w : Word} :
    IllegalByFields w ↔
      w.toNat % 16 = 0 ∨ 6 ≤ w.toNat % 16 ∨ w.toNat / 32 % 8 ≠ 0 ∨ w.toNat / 65536 % 65536 ≠ 0 ∨
        (w.toNat / 16 % 2 = 1 ∧ w.toNat % 16 ≠ 4) ∨ (w.toNat / 256 % 256 ≠ 0 ∧ w.toNat % 16 ≠ 3) := by
  simp [IllegalByFields, ← BitVec.toNat_inj, BitVec.extractLsb'_toNat, Nat.shiftRight_eq_div_pow, BitVec.getLsbD,
    Nat.testBit_eq_decide_div_mod_eq]

/-- R83: the words of no legal row are those that meet one of the four conditions. -/
theorem illegalByFields_iff {w : Word} : IllegalByFields w ↔ w.legal = false := by
  have hw := w.isLt
  rw [← Bool.not_eq_true, Word.legal_iff_toNat, illegalByFields_iff_toNat]
  omega

/-- R83, R204: ILLEGAL on a running block. -/
theorem exec_illegal {s : State} (hf : s.fault = .none) (w : Word) :
    exec (.illegal w) s =
      .next { s with fault := .illegalCommand, faultInfo := .word w, status := none, result := .none } := by
  simp only [exec, execIllegal, transact, whenRunning_running hf, raise, close_raised]
  rw [recordFault_running (by exact hf)]
  rfl

/-- Settles O4: the catch-all row keeps its word and takes what the four conditions say. -/
theorem illegalWordRaisesIllegalCommand : Obligations.IllegalWordRaisesIllegalCommand := by
  refine ⟨fun w => ?_, fun w => ?_, fun w s hf => exec_illegal hf w⟩
  · rw [decodeCmd_eq_illegal_iff, illegalByFields_iff]
    exact and_iff_right rfl
  · by_cases h : decodeCmd w = .illegal w
    · exact .inr h
    · refine .inl fun v hv => h ?_
      obtain rfl := (decodeCmd_eq_illegal_iff.mp hv).1
      exact hv

end Sys2Proof
end

section
/-! The symbol rows run one by one against the loops of the codec (R73, R74, R100, R110): each row is the codec's own
operation for its key, so a run of rows is a loop (O21). -/

namespace Sys2Proof.Machine

open Sys2Proof.Safety

/-- R73: the encoder row of a byte does what ENCODE does with the byte. -/
theorem exec_decodeEncSym (b : Byte) (s : State) : exec (decodeEncSym b) s = symbolStep s (Codec.encSymbol b) := by
  unfold symbolStep Codec.encSymbol decodeEncSym
  split
  · rfl
  · split <;> rfl

/-- R74: the decoder row of the present mode and a byte does what DECODE does with the byte. -/
theorem exec_decodeDecSym (b : Byte) (s : State) :
    exec (decodeDecSym (s.codec.mode == some .escaped) b) s = symbolStep s (Codec.decSymbol b) := by
  unfold symbolStep Codec.decSymbol decodeDecSym
  by_cases hm : s.codec.mode = some .escaped
  · rw [if_pos (beq_iff_eq.mpr hm), if_pos hm]
    split
    · rfl
    · split <;> rfl
  · rw [if_neg (mt beq_iff_eq.mp hm), if_neg hm]
    split
    · rfl
    · split <;> rfl

theorem symbolStep_running {s : State} (hf : s.fault = .none) (f : Codec → Codec) :
    symbolStep s f = .next { s with codec := f s.codec } := whenRunning_running hf _

/-- R100: the encoder rows of a payload, one by one, are ENCODE's loop. -/
theorem runEncSymbols_eq (p : List Byte) {s : State} (hf : s.fault = .none) :
    runEncSymbols p s = .next { s with codec := Codec.encLoop p s.codec } := by
  induction p generalizing s with
  | nil => rfl
  | cons b p ih =>
    simp only [runEncSymbols, exec_decodeEncSym, symbolStep_running hf]
    exact ih hf

/-- R110: the decoder rows of a raw frame, one by one, are DECODE's loop. -/
theorem runDecSymbols_eq (r : List Byte) {s : State} (hf : s.fault = .none) :
    runDecSymbols r s = .next { s with codec := Codec.decLoop r s.codec } := by
  induction r generalizing s with
  | nil => rfl
  | cons b r ih =>
    simp only [runDecSymbols, exec_decodeDecSym, symbolStep_running hf]
    exact ih hf

/-- R112 to R116: every decoder row leaves a mode. -/
theorem decSymbol_mode (b : Byte) (c : Codec) : ∃ m, (c.decSymbol b).mode = some m := by
  unfold Codec.decSymbol
  split
  · split
    · exact ⟨_, rfl⟩
    · split <;> exact ⟨_, rfl⟩
  · split
    · exact ⟨_, rfl⟩
    · split <;> exact ⟨_, rfl⟩

theorem decLoop_mode (r : List Byte) {c : Codec} (h : ∃ m, c.mode = some m) :
    ∃ m, (Codec.decLoop r c).mode = some m := by
  induction r generalizing c with
  | nil => exact h
  | cons b r ih => exact ih (decSymbol_mode b c)

/-- R118: the end of the input emits nothing. -/
@[simp] theorem decEndOfInput_out (c : Codec) : c.decEndOfInput.out = c.out := by
  unfold Codec.decEndOfInput
  split <;> rfl

/-- Settles O21: the rows are the loops, which build the bytes of the wire format's plain functions. -/
theorem rowByRowRunEqualsTheCodec : Obligations.RowByRowRunEqualsTheCodec := by
  refine ⟨fun p s hf => ?_, fun r s hf hmode => ?_⟩
  · rw [runEncSymbols_eq p hf, encLoop_eq]
    rfl
  · have hcodec : s.codec = { mode := some .normal, out := s.codec.out } := by rw [← hmode]
    obtain ⟨m, hm⟩ := decLoop_mode r ⟨_, hmode⟩
    have hout : (Codec.decLoop r s.codec).out = s.codec.out ++ unescape r := by
      rw [← decEndOfInput_out, hcodec, decLoop_out]
    refine ⟨m, ?_⟩
    rw [runDecSymbols_eq r hf, ← hm, ← hout]

end Sys2Proof.Machine
end

section
/-! How a transaction ends (R85, R211): one event code of its row, or one recorded fault and no status (O55). -/

namespace Sys2Proof.Machine

open Sys2Proof.Safety

/-- R85, R211: the state `t` after instruction `i` holds one event code of `i`, or a fault and no status. -/
def OneEventOrOneFault (i : Instr) (t : State) : Prop :=
  (t.fault = .none ∧ ∃ e, t.status = some e ∧ mayReport i e = true) ∨
  (t.fault ≠ .none ∧ t.faultInfo ≠ .none ∧ t.status = none ∧ t.result = .none)

theorem OneEventOrOneFault.event {i : Instr} {t : State} {e : EventCode} (hf : t.fault = .none)
    (hs : t.status = some e) (he : mayReport i e = true) : OneEventOrOneFault i t := .inl ⟨hf, e, hs, he⟩

theorem OneEventOrOneFault.fault {i : Instr} {t : State} (hf : t.fault ≠ .none) (hi : t.faultInfo ≠ .none)
    (hs : t.status = none) (hr : t.result = .none) : OneEventOrOneFault i t := .inr ⟨hf, hi, hs, hr⟩

theorem feedEnd_oneEventOrOneFault {s t : State} {b : Byte} (hf : s.fault = .none) (ht : FeedEnd s b t) :
    OneEventOrOneFault (.feed b) t := by
  cases ht with
  | overflow => exact .event hf rfl rfl
  | stored => exact .event hf rfl rfl
  | frame => exact .event hf rfl rfl

theorem sendEnd_oneEventOrOneFault {s t : State} {rel : Bool} (hf : s.fault = .none) (ht : SendEnd s rel t) :
    OneEventOrOneFault (.send rel) t := by
  cases ht with
  | tooLong => exact .fault nofun nofun rfl rfl
  | wrongBuffer => exact .fault nofun nofun rfl rfl
  | outside => exact .fault nofun nofun rfl rfl
  | linkDown => exact .event hf rfl rfl
  | sent p => exact .event ((sendSubmitted_fault rel p s).trans hf) rfl rfl

theorem rxEnd_oneEventOrOneFault {s t : State} {b : Byte} (hf : s.fault = .none) (ht : RxEnd s b t) :
    OneEventOrOneFault (.rxByte b) t := by
  have hdecoded (bs : List Byte) (h : Handle) (c : Nat) : (afterDecode s bs h c).fault = .none :=
    (afterDecode_fault s bs h c).trans hf
  cases ht with
  | overflow => exact .event hf rfl rfl
  | stored => exact .event hf rfl rfl
  | noBuffer => exact .event hf rfl rfl
  | leakOverflow => exact .fault nofun nofun rfl rfl
  | leakStored => exact .fault nofun nofun rfl rfl
  | leakNoBuffer => exact .fault nofun nofun rfl rfl
  | tooSmall => exact .fault nofun nofun rfl rfl
  | filteredOut bs h c => exact .event (hdecoded bs h c) rfl rfl
  | checksumInvalid bs h c => exact .event (hdecoded bs h c) rfl rfl
  | delivered bs h c => exact .event (hdecoded bs h c) rfl rfl
  | refused bs h c => exact .event (hdecoded bs h c) rfl rfl

/-- Settles O55: each transaction by its ends. -/
theorem transactionEndsInOneEventOrOneFault : Obligations.TransactionEndsInOneEventOrOneFault := by
  intro i s t hi ht
  change OneEventOrOneFault i t
  cases i with
  | encode =>
    obtain ⟨hf, rfl | rfl⟩ := encode_next ht
    · exact .event hf rfl rfl
    · exact .fault nofun nofun rfl rfl
  | decode =>
    obtain ⟨hf, rfl | rfl⟩ := decode_next ht
    · exact .event hf rfl rfl
    · exact .fault nofun nofun rfl rfl
  | feed b => exact feedEnd_oneEventOrOneFault (feed_next ht).1 (feed_next ht).2
  | send rel => exact sendEnd_oneEventOrOneFault (send_next ht).1 (send_next ht).2
  | readStatus =>
    obtain ⟨hf, rfl⟩ := readStatus_next ht
    exact .event hf rfl rfl
  | illegal w =>
    obtain ⟨-, rfl⟩ := illegal_next ht
    exact .fault nofun nofun rfl rfl
  | rxByte b => exact rxEnd_oneEventOrOneFault (rxByte_next ht).1 (rxByte_next ht).2
  | encEnd => cases hi
  | encEsc => cases hi
  | encLit b => cases hi
  | decNEnd => cases hi
  | decNEsc => cases hi
  | decNLit b => cases hi
  | decEEscEnd => cases hi
  | decEEscEsc => cases hi
  | decELit b => cases hi
  | decEoiEscaped => cases hi

end Sys2Proof.Machine
end

section
/-! A step on a presented word (R80, R81, R90, R245), and the word the host places (O14). -/

namespace Sys2Proof.Machine

theorem runInstr_eq_exec {i : Instr} {s : State} (hd : dutyRefusal i s = none) : runInstr i s = exec i s := by
  unfold runInstr
  rw [hd]

/-- R245: a request that breaks a duty no rule gives an effect to is refused by a running block. -/
theorem runInstr_eq_refused {i : Instr} {s : State} {r : Refusal} (hd : dutyRefusal i s = some r)
    (hf : s.fault = .none) : runInstr i s = .refused r := by
  unfold runInstr
  rw [hd]
  exact whenRunning_running hf _

/-- R80, R90: a step on a request runs the instruction its number decodes to, with its operands and answers. -/
theorem step_request {s : State} {f : Format} {w : Nat} {fields : Fields} {draws : Draws} {rest : List Input}
    {i : Instr} (hw : s.cfg.wf = true) (hi : s.inbox = .request f w fields draws :: rest) (hd : decode f w = .ok i) :
    step s = runInstr i { s with fields := fields, draws := draws, inbox := rest } := by
  unfold step
  rw [hi]
  simp [hw, runRequest, hd, acceptRequest]

/-- What the host reads from the bits of an instruction is what the decoder reads under the format chosen for them. -/
theorem decodeTableWord_eq_some {nbits w : Nat} {i : Instr} (h : decodeTableWord nbits w = some i) :
    ∃ f, tableFormat nbits w = some f ∧ decode f w = .ok i := by
  unfold decodeTableWord at h
  split at h
  · cases h
  · next f hf =>
    refine ⟨f, hf, ?_⟩
    split at h
    · next hd => rwa [Option.some.inj h] at hd
    · cases h

theorem withFetchWord_eq {nbits w : Nat} {f : Format} (h : tableFormat nbits w = some f) (s : State) :
    s.withFetchWord nbits w = { s with inbox := .request f w s.fields s.draws :: s.inbox } := by
  unfold State.withFetchWord
  rw [h]

/-- Settles O14: the step on a request, and the placed word as the request that carries the state's own fields. -/
theorem stepRunsTheDecodedInstruction : Obligations.StepRunsTheDecodedInstruction := by
  refine ⟨fun s f w fields draws rest i hw hi hd => ?_, fun s nbits w i hw hdw hduty => ?_⟩
  · rw [step_request hw hi hd]
    exact ⟨runInstr_eq_exec, fun r => runInstr_eq_refused⟩
  · obtain ⟨f, hformat, hd⟩ := decodeTableWord_eq_some hdw
    rw [withFetchWord_eq hformat,
      step_request (s := { s with inbox := .request f w s.fields s.draws :: s.inbox }) hw rfl hd]
    exact runInstr_eq_exec hduty

end Sys2Proof.Machine
end

section
/-! ENCODE and DECODE on a running block (R100 to R102, R110, R117): each as the one next state its capacity check
decides (O22, O23, O26, O27), and the output length law (O24). -/

namespace Sys2Proof.Machine

open Sys2Proof.Safety

/-- R100: ENCODE where the destination holds the frame. -/
theorem exec_encode_fits {s : State} (hf : s.fault = .none)
    (hcap : encodedLength s.fields.payload ≤ s.fields.dstCap) :
    exec .encode s =
      .next { s with
        codec := { s.codec with out := [] }, status := some .ok
        result := .encoded (frameOf s.fields.payload) (encodedLength s.fields.payload) } := by
  simp only [exec, execEncode, transact, whenRunning_running hf]
  rw [encodeOp_done (by exact hcap)]
  rfl

/-- R102: ENCODE where it does not. -/
theorem exec_encode_tooSmall {s : State} (hf : s.fault = .none)
    (hcap : s.fields.dstCap < encodedLength s.fields.payload) :
    exec .encode s =
      .next { s with
        fault := .bufferTooSmall, faultInfo := .sizes (encodedLength s.fields.payload) s.fields.dstCap
        status := none, result := .none } := by
  simp only [exec, execEncode, transact, whenRunning_running hf]
  rw [encodeOp_raised (by exact hcap), recordFault_running (by exact hf)]
  rfl

/-- R110: DECODE where the destination is as long as the raw frame. -/
theorem exec_decode_fits {s : State} (hf : s.fault = .none) (hcap : s.fields.raw.length ≤ s.fields.dstCap) :
    exec .decode s =
      .next { s with
        codec := Codec.rest, status := some .ok
        result := .decoded (unescape s.fields.raw) (unescape s.fields.raw).length } := by
  simp only [exec, execDecode, transact, whenRunning_running hf]
  rw [decodeOp_done (by exact hcap)]
  rfl

/-- R117: DECODE where it is shorter. -/
theorem exec_decode_tooSmall {s : State} (hf : s.fault = .none) (hcap : s.fields.dstCap < s.fields.raw.length) :
    exec .decode s =
      .next { s with
        fault := .decodeDstTooSmall, faultInfo := .sizes s.fields.raw.length s.fields.dstCap
        status := none, result := .none } := by
  simp only [exec, execDecode, transact, whenRunning_running hf]
  rw [decodeOp_raised (by exact hcap), recordFault_running (by exact hf)]
  rfl

/-- Settles O22: the capacity is at least the length ENCODE checks against. -/
theorem encodeReturnsTheFrame : Obligations.EncodeReturnsTheFrame := by
  intro s hf hcap
  rw [← encodedLength_eq] at hcap ⊢
  exact exec_encode_fits hf hcap

/-- Settles O23: the capacity is below the length ENCODE checks against. -/
theorem encodeIntoTooSmallABufferFaults : Obligations.EncodeIntoTooSmallABufferFaults := by
  intro s hf hcap
  rw [← encodedLength_eq] at hcap ⊢
  exact exec_encode_tooSmall hf hcap

/-- Settles O24: of the two next states of ENCODE only the first has a frame, and its length is the checked one. -/
theorem encodedLengthLaw : Obligations.EncodedLengthLaw := by
  intro s t out l ht hresult
  obtain ⟨-, rfl | rfl⟩ := encode_next ht
  · cases hresult
    have hlen := encodedLength_eq s.fields.payload
    exact ⟨frameOf_length _, hlen, by omega, encodedLength_le _⟩
  · cases hresult

/-- Settles O26: the check passes, and the loop's output is the payload of the raw frame. -/
theorem decodeReturnsThePayload : Obligations.DecodeReturnsThePayload := fun _ => exec_decode_fits

/-- Settles O27: the check compares the capacity with the raw frame, not with what it decodes to. -/
theorem decodeIntoTooSmallABufferFaults : Obligations.DecodeIntoTooSmallABufferFaults := fun _ => exec_decode_tooSmall

end Sys2Proof.Machine
end

section
/-! What each symbol row does and which key it takes (R73, R74, R104 to R106, R112 to R116), with the example frames
(O18, O19), and the unpaired ESC at the end of the input (R118, O20). -/

namespace Sys2Proof.Machine

open Sys2Proof.Safety

/-! ## The keys of the rows that are tried last -/

/-- R73: a byte that is no key of the first two encoder rows. -/
theorem decodeEncSym_lit {b : Byte} (hend : b ≠ END) (hesc : b ≠ ESC) : decodeEncSym b = .encLit b := by
  unfold decodeEncSym
  rw [if_neg hend, if_neg hesc]

/-- R74: in NORMAL mode, a byte that is no key of the first two rows. -/
theorem decodeDecSym_normal_lit {b : Byte} (hend : b ≠ END) (hesc : b ≠ ESC) : decodeDecSym false b = .decNLit b := by
  unfold decodeDecSym
  rw [if_neg Bool.false_ne_true, if_neg hend, if_neg hesc]

/-- R74: in ESCAPED mode, a byte that is no key of the first two rows; END and ESC are such bytes. -/
theorem decodeDecSym_escaped_lit {b : Byte} (hend : b ≠ ESC_END) (hesc : b ≠ ESC_ESC) :
    decodeDecSym true b = .decELit b := by
  unfold decodeDecSym
  rw [if_pos rfl, if_neg hend, if_neg hesc]

/-! ## The rows -/

/-- R100: the answer of ENCODE for the payload `p`. -/
theorem exec_encode_result {s : State} {p : List Byte} (hf : s.fault = .none) (hp : s.fields.payload = p)
    (hcap : encodedLength p ≤ s.fields.dstCap) :
    ∃ t, exec .encode s = .next t ∧ t.result = .encoded (frameOf p) (encodedLength p) := by
  subst hp
  exact ⟨_, exec_encode_fits hf hcap, rfl⟩

/-- Settles O18: a row on a running block is its codec operation, and the frames are those of the wire format. -/
theorem encoderRowsAppendTheirBytes : Obligations.EncoderRowsAppendTheirBytes := by
  refine ⟨fun s hf => ?_, fun b => decodeEncSym_lit, rfl, rfl,
    fun s hf hcap => ⟨fun hp => ?_, fun hp => ?_, fun hp => ?_⟩⟩
  · exact ⟨symbolStep_running hf _, symbolStep_running hf _, fun b => symbolStep_running hf _⟩
  · exact exec_encode_result hf hp hcap
  · exact exec_encode_result hf hp hcap
  · exact exec_encode_result hf hp (Nat.le_of_succ_le hcap)

/-- Settles O19: a row on a running block is its codec operation, and the keys are those of the decoder's table. -/
theorem decoderRowsEmitTheirBytes : Obligations.DecoderRowsEmitTheirBytes := by
  refine ⟨fun s hf => ?_, ⟨rfl, rfl, fun b => decodeDecSym_normal_lit⟩, rfl, rfl, fun b => decodeDecSym_escaped_lit⟩
  exact ⟨symbolStep_running hf _, symbolStep_running hf _, fun b => symbolStep_running hf _,
    symbolStep_running hf _, symbolStep_running hf _, fun b => symbolStep_running hf _⟩

/-! ## The unpaired ESC at the end of the input -/

/-- R110: the loop over one byte more is one row more. -/
theorem decLoop_append_singleton (r : List Byte) (b : Byte) (c : Codec) :
    Codec.decLoop (r ++ [b]) c = (Codec.decLoop r c).decSymbol b := by
  induction r generalizing c with
  | nil => rfl
  | cons a r ih => exact ih (c.decSymbol a)

/-- R113: in NORMAL mode an ESC emits nothing. -/
theorem decSymbol_esc_out {c : Codec} (hmode : c.mode = some .normal) : (c.decSymbol ESC).out = c.out := by
  obtain ⟨mode, out⟩ := c
  obtain rfl : mode = some .normal := hmode
  rw [decSymbol_normal, if_neg esc_ne_end, if_pos rfl]

/-- R118: an ESC after a raw frame that leaves NORMAL mode adds nothing to its payload. -/
theorem unescape_append_esc {r : List Byte}
    (hmode : (Codec.decLoop r { mode := some .normal, out := [] }).mode = some .normal) :
    unescape (r ++ [ESC]) = unescape r := by
  have hout (q : List Byte) : (Codec.decLoop q { mode := some .normal, out := [] }).out = unescape q := by
    rw [← decEndOfInput_out, decLoop_out, List.nil_append]
  rw [← hout, decLoop_append_singleton, decSymbol_esc_out hmode, hout]

/-- Settles O20: DECODE answers the payload of the whole input, to which the trailing ESC adds nothing. -/
theorem trailingEscapeEmitsNothing : Obligations.TrailingEscapeEmitsNothing := by
  refine ⟨fun s hf => symbolStep_running hf _, fun s r hf hraw hcap hmode => ?_⟩
  have hpayload : unescape s.fields.raw = unescape r := by
    rw [hraw]
    exact unescape_append_esc hmode
  rw [exec_decode_fits hf hcap, hpayload]

end Sys2Proof.Machine
end

section
/-! FEED on a running block (R130 to R133): each outcome as its one next state (O30, O31, O32), and FEED as the same
operation on ACC and FILL inside RX_BYTE (R136, O36). -/

namespace Sys2Proof.Machine

open Sys2Proof.Safety

/-! ## The three outcomes of the command -/

/-- R131: FEED with ACC full. -/
theorem exec_feed_full {s : State} (hf : s.fault = .none) (hfull : s.cfg.accCap < s.fill + 1) (b : Byte) :
    exec (.feed b) s =
      .next { s with fill := 0, receiving := false, status := some .overflow, result := .none } := by
  simp only [exec, execFeed, transact, whenRunning_running hf]
  rw [feedOp_overflow (by exact hfull)]
  rfl

/-- R133: FEED of a byte that completes no frame. -/
theorem exec_feed_stored {s : State} {b : Byte} (hf : s.fault = .none) (hroom : s.fill < s.cfg.accCap)
    (hb : b ≠ END ∨ s.fill = 0) :
    exec (.feed b) s =
      .next { s with
        acc := Table.insert s.fill b s.acc, fill := s.fill + 1, status := some .incomplete, result := .none } := by
  simp only [exec, execFeed, transact, whenRunning_running hf]
  rw [feedOp_incomplete (by exact hroom) (by exact hb)]
  rfl

/-- R132: FEED of the END after `bs`; the span is read back from ACC, where it stands with the new END. -/
theorem exec_feed_end {s : State} {bs : List Byte} (hf : s.fault = .none) (hroom : s.fill < s.cfg.accCap)
    (h0 : 0 < s.fill) (hst : Holds s.acc 0 bs) (hl : bs.length = s.fill) :
    exec (.feed END) s =
      .next { s with
        acc := Table.insert s.fill END s.acc, fill := 0, receiving := false, status := some .frameReady
        result := .frame 0 (s.fill + 1) (bs ++ [END]) } := by
  have hlen : (bs ++ [END]).length = s.fill + 1 := by simp [hl]
  have hspan : Holds (Table.insert s.fill END s.acc) 0 (bs ++ [END]) := hl ▸ holds_insert hst END
  have hread := readSpan_acc
    (s := { startTransaction s with acc := Table.insert s.fill END s.acc, fill := 0, receiving := false })
    hspan (hlen ▸ hroom)
  rw [hlen] at hread
  simp only [exec, execFeed, transact, whenRunning_running hf]
  rw [feedOp_frame (by exact hroom) (by exact h0), andThen_done]
  exact congrArg (fun r => (Run.andThen r _).close) hread

/-- Settles O30: the model's mark is false afterwards, since no span is in progress. -/
theorem feedIntoAFullBufferOverflows : Obligations.FeedIntoAFullBufferOverflows :=
  fun _ b hf hfull => ⟨false, exec_feed_full hf hfull b⟩

/-- Settles O31: the byte completes no frame. -/
theorem feedStoresAByteOfAFrame : Obligations.FeedStoresAByteOfAFrame :=
  fun _ _ => exec_feed_stored

/-- Settles O32: the next state, and the two bounds from FILL's. -/
theorem feedOfEndCompletesTheFrame : Obligations.FeedOfEndCompletesTheFrame :=
  fun _ _ hf hroom h0 hst hl => ⟨⟨false, exec_feed_end hf hroom h0 hst hl⟩, Nat.succ_le_succ h0, hroom⟩

/-! ## FEED inside RX_BYTE -/

/-- R130: ACC and FILL of `t` are those FEED(b) makes of ACC and FILL of `s`. -/
structure FeedWrites (s : State) (b : Byte) (t : State) : Prop where
  acc : t.acc = if s.fill < s.cfg.accCap then Table.insert s.fill b s.acc else s.acc
  fill : t.fill = if s.fill < s.cfg.accCap ∧ (b ≠ END ∨ s.fill = 0) then s.fill + 1 else 0

section
variable {s t : State} {b : Byte}

theorem feedWrites_overflow (hr : s.cfg.accCap < s.fill + 1) (hacc : t.acc = s.acc) (hfill : t.fill = 0) :
    FeedWrites s b t where
  acc := by rw [if_neg (by omega), hacc]
  fill := by rw [if_neg (by omega), hfill]

theorem feedWrites_stored (hr : s.fill < s.cfg.accCap) (hb : b ≠ END ∨ s.fill = 0)
    (hacc : t.acc = Table.insert s.fill b s.acc) (hfill : t.fill = s.fill + 1) : FeedWrites s b t where
  acc := by rw [if_pos hr, hacc]
  fill := by rw [if_pos ⟨hr, hb⟩, hfill]

theorem feedWrites_frame (hr : s.fill < s.cfg.accCap) (h0 : 0 < s.fill)
    (hacc : t.acc = Table.insert s.fill END s.acc) (hfill : t.fill = 0) : FeedWrites s END t where
  acc := by rw [if_pos hr, hacc]
  fill := by rw [if_neg fun ⟨_, hb⟩ => hb.elim (· rfl) h0.ne', hfill]

theorem feedEnd_feedWrites (ht : FeedEnd s b t) : FeedWrites s b t := by
  cases ht with
  | overflow b hr => exact feedWrites_overflow hr rfl rfl
  | stored b hr hb => exact feedWrites_stored hr hb rfl rfl
  | frame span hr h0 => exact feedWrites_frame hr h0 rfl rfl

/-- R136: what RX_BYTE does after its FEED, with a frame or with a fault, writes neither ACC nor FILL. -/
theorem rxEnd_feedWrites (ht : RxEnd s b t) : FeedWrites s b t := by
  have hdecoded (bs : List Byte) (k : Handle) (c : Nat) (hr : s.fill < s.cfg.accCap) (h0 : 0 < s.fill)
      (hacc : t.acc = (afterDecode s bs k c).acc) (hfill : t.fill = (afterDecode s bs k c).fill) :
      FeedWrites s END t :=
    feedWrites_frame hr h0 (hacc.trans (afterDecode_acc s bs k c)) (hfill.trans (afterDecode_fill s bs k c))
  cases ht with
  | overflow b hh hr => exact feedWrites_overflow hr rfl rfl
  | leakOverflow b k hh hr => exact feedWrites_overflow hr rfl rfl
  | stored b hh hr hb => exact feedWrites_stored hr hb rfl rfl
  | leakStored b k hh hr hb => exact feedWrites_stored hr hb rfl rfl
  | noBuffer hh hr h0 => exact feedWrites_frame hr h0 rfl rfl
  | leakNoBuffer k hh hr h0 => exact feedWrites_frame hr h0 rfl rfl
  | tooSmall k c hr h0 => exact feedWrites_frame hr h0 rfl rfl
  | filteredOut bs k c hr h0 => exact hdecoded bs k c hr h0 rfl rfl
  | checksumInvalid bs k c hr h0 => exact hdecoded bs k c hr h0 rfl rfl
  | delivered bs k c hr h0 => exact hdecoded bs k c hr h0 rfl rfl
  | refused bs k c hr h0 => exact hdecoded bs k c hr h0 rfl rfl

/-- R136: a direct FEED calls no collaborator. -/
theorem feedEnd_history (ht : FeedEnd s b t) : t.history = s.history := by
  cases ht <;> rfl

end

/-- Settles O36: both write ACC and FILL as FEED does, and no end of the direct FEED counts a loss or makes a call. -/
theorem feedInsideRxByteIsTheSameFeed : Obligations.FeedInsideRxByteIsTheSameFeed := by
  intro s t u b ht hu
  have hfeed := (feed_next ht).2
  have hdirect := feedEnd_feedWrites hfeed
  have hinside := rxEnd_feedWrites (rxByte_next hu).2
  exact ⟨hinside.acc.trans hdirect.acc.symm, hinside.fill.trans hdirect.fill.symm, feedEnd_lostRx hfeed,
    feedEnd_history hfeed⟩

end Sys2Proof.Machine
end

section
/-! RX_BYTE on a running block (R150 to R162): each outcome short of a buffer as its one next state (O37, O38, O39), the
pool's answer that is too small (O43), and the four fates of a frame taken into a buffer (O40, O41, O42). -/

namespace Sys2Proof.Machine

open Sys2Proof.Safety

/-! ## No frame, or no buffer for it -/

/-- R152: RX_BYTE of a byte that completes no frame. -/
theorem exec_rxByte_stored {s : State} {b : Byte} (hf : s.fault = .none) (hheld : s.held = none)
    (hroom : s.fill < s.cfg.accCap) (hb : b ≠ END ∨ s.fill = 0) :
    exec (.rxByte b) s =
      .next { s with
        acc := Table.insert s.fill b s.acc, fill := s.fill + 1, pumpPhase := .waitByte, status := some .incomplete
        result := .none, history := s.history ++ [.readByte], receiving := true } := by
  simp only [exec, execRxByte, transact, whenRunning_running hf]
  rw [feedOp_incomplete (by exact hroom) (by exact hb), andThen_done]
  dsimp only
  rw [finishRx_done (by exact hheld)]
  rfl

/-- R153: RX_BYTE with ACC full. -/
theorem exec_rxByte_full {s : State} (hf : s.fault = .none) (hheld : s.held = none)
    (hfull : s.cfg.accCap < s.fill + 1) (b : Byte) :
    exec (.rxByte b) s =
      .next { s with
        fill := 0, lostRx := s.lostRx + 1, pumpPhase := .waitByte, status := some .overflow, result := .none
        history := s.history ++ [.readByte], receiving := false } := by
  simp only [exec, execRxByte, transact, whenRunning_running hf]
  rw [feedOp_overflow (by exact hfull), andThen_done]
  dsimp only
  rw [finishRx_done (by exact hheld)]
  rfl

/-- R154: RX_BYTE of the END of a frame for which the pool has no buffer. -/
theorem exec_rxByte_noBuffer {s : State} (hf : s.fault = .none) (hheld : s.held = none) (h0 : 0 < s.fill)
    (hroom : s.fill < s.cfg.accCap) (ha : s.draws.acquire = none) :
    exec (.rxByte END) s =
      .next { s with
        acc := Table.insert s.fill END s.acc, fill := 0, lostRx := s.lostRx + 1, pumpPhase := .waitByte
        status := some .poolExhausted, result := .none
        history := s.history ++ [.acquire (s.fill + 1) none, .readByte], receiving := false } := by
  simp only [exec, execRxByte, transact, whenRunning_running hf]
  rw [feedOp_frame (by exact hroom) (by exact h0), andThen_done]
  dsimp only
  rw [acquireForFrame_none (by exact ha), finishRx_done (by exact hheld)]
  simp [countLost, record, setPhase, startTransaction]

/-- Settles O37: the model's mark is true afterwards, since the span holds a byte of the receive port. -/
theorem rxByteInsideAFrameOnlyStores : Obligations.RxByteInsideAFrameOnlyStores :=
  fun _ _ hf hheld hroom hb => ⟨true, exec_rxByte_stored hf hheld hroom hb⟩

/-- Settles O38: the model's mark is false afterwards, since no span is in progress. -/
theorem rxByteOverflowIsCounted : Obligations.RxByteOverflowIsCounted :=
  fun _ b hf hheld hfull => ⟨false, exec_rxByte_full hf hheld hfull b⟩

/-- Settles O39: the model's mark is false afterwards, since no span is in progress. -/
theorem rxByteWithoutABufferIsCounted : Obligations.RxByteWithoutABufferIsCounted :=
  fun _ hf hheld h0 hroom ha => ⟨false, exec_rxByte_noBuffer hf hheld h0 hroom ha⟩

/-! ## The buffer the pool gives -/

/-- A byte read depends on what is written at its index only. -/
theorem readByteOf_congr_lookup {s t : State} {sp : Space} {i : Nat}
    (h : Table.lookup i (spaceMem t sp) = Table.lookup i (spaceMem s sp)) :
    readByteOf t sp i = readByteOf s sp i := by
  unfold readByteOf
  rw [h]

theorem LedgerSet.lifeOf_ne {s t : State} {k h : Handle} {v : Life} (hl : LedgerSet s t k v) (hne : h ≠ k) :
    lifeOf t h = lifeOf s h := by
  rw [hl.life, if_neg hne.symm]

theorem LedgerSet.ownerOf_ne {s t : State} {k h : Handle} {v : Life} (hl : LedgerSet s t k v) (hne : h ≠ k) :
    ownerOf t h = ownerOf s h := by
  rw [hl.owner, if_neg hne.symm]

/-- R42: a buffer given anew reads below its capacity as it did before. -/
theorem readByteOf_afterAcquire {s : State} {h : Handle} {c i : Nat} (hi : i < c) :
    readByteOf (afterAcquire s h c) (.pkt h) i = readByteOf s (.pkt h) i :=
  readByteOf_congr_lookup (by rw [spaceMem_afterAcquire_self, lookup_below, if_pos hi])

/-- R162: DECODE's own check refuses the buffer, and the block stops with it. -/
theorem exec_rxByte_tooSmall {s : State} {bs : List Byte} {h : Handle} {c : Nat} (hs : SpanReady s bs)
    (ha : s.draws.acquire = some (h, c)) (hc : c < s.fill + 1) :
    exec (.rxByte END) s =
      .next { setPhase .decode (afterAcquire s h c) with
        fault := .decodeDstTooSmall, faultInfo := .sizes (s.fill + 1) c } := by
  have hlen : (bs ++ [END]).length = s.fill + 1 := by simp [hs.length]
  rw [rxByte_span hs.running hs.stored hs.length hs.some_byte hs.room ha, decodeOp_raised (hlen ▸ hc), andThen_raised,
    close_raised, recordFault_running (by exact hs.running), hlen]

/-- Settles O43: the block stops in the state the pool's answer left, which wrote no byte of any buffer. -/
theorem rxByteTooSmallABufferFaultsHoldingIt : Obligations.RxByteTooSmallABufferFaultsHoldingIt := by
  intro s bs h c hs ha hc
  have hledger := afterAcquire_ledgerSet s h c
  refine ⟨_, exec_rxByte_tooSmall hs ha hc, rfl, rfl, rfl, rfl, ?_, rfl, rfl, ?_, rfl, rfl, rfl, rfl, rfl, rfl, rfl, ?_⟩
  · exact (hledger.life h).trans (if_pos rfl)
  · exact fun i hi => (readByteOf_pkt_congr (s := afterAcquire s h c) rfl h i).trans (readByteOf_afterAcquire hi)
  · refine fun h' hne => ⟨hledger.lifeOf_ne hne, hledger.ownerOf_ne hne, fun i => ?_⟩
    exact (readByteOf_pkt_congr (s := afterAcquire s h c) rfl h' i).trans
      (readByteOf_congr (spaceMem_afterAcquire_ne s hne c) i)

/-! ## A frame taken into the buffer -/

/-- R157 to R159, R161: the end of an RX_BYTE whose frame was decoded into `h`: the buffer given back with LIFE(h) at
`v` after the collaborators' `calls`, the event `e` reported, and counted where R85 says that it is a loss. -/
def afterFate (s : State) (bs : List Byte) (h : Handle) (c : Nat) (v : Life) (e : EventCode) (calls : List Call) :
    State :=
  { setLife h v (afterDecode s bs h c) with
    held := none, pumpPhase := .waitByte
    lostRx := if isLost e then (afterDecode s bs h c).lostRx + 1 else (afterDecode s bs h c).lostRx
    history := (afterDecode s bs h c).history ++ calls, status := some e, result := .none }

section
variable {s : State} {bs : List Byte} {h : Handle} {c : Nat}

/-- R155: the buffer begins with the decoded bytes. -/
theorem afterDecode_holds (s : State) (bs : List Byte) (h : Handle) (c : Nat) :
    Holds (spaceMem (afterDecode s bs h c) (.pkt h)) 0 (unescape (bs ++ [END])) := by
  intro j b hb
  obtain ⟨hj, -⟩ := List.getElem?_eq_some_iff.mp hb
  rw [spaceMem_afterDecode_self, Nat.zero_add, lookup_putBytes, if_pos ⟨Nat.zero_le _, by omega⟩]
  exact hb

/-- R155: the bytes after the decoded ones read as they did before. -/
theorem readByteOf_afterDecode_beyond {i : Nat} (hi : (unescape (bs ++ [END])).length ≤ i) (hc : i < c) :
    readByteOf (afterDecode s bs h c) (.pkt h) i = readByteOf s (.pkt h) i :=
  readByteOf_congr_lookup (by
    rw [spaceMem_afterDecode_self, lookup_putBytes, if_neg (by omega), lookup_below, if_pos hc])

/-- The calls of a frame taken into a buffer begin with the `acquire` that gave it. -/
theorem afterDecode_history_append (s : State) (bs : List Byte) (h : Handle) (c : Nat) (calls : List Call) :
    (afterDecode s bs h c).history ++ calls = s.history ++ .acquire (s.fill + 1) (some (h, c)) :: calls := by
  rw [afterDecode_history, List.append_assoc, List.singleton_append]

theorem afterDecode_setLife_ledgerSet (s : State) (bs : List Byte) (h : Handle) (c : Nat) (v : Life) :
    LedgerSet s (setLife h v (afterDecode s bs h c)) h v :=
  (afterDecode_ledgerSet s bs h c).setLife v

theorem afterFate_rxFrame (s : State) (bs : List Byte) (h : Handle) (c : Nat) (v : Life) (e : EventCode)
    (calls : List Call) : RxFrame s (afterFate s bs h c v e calls) h :=
  have hledger := afterDecode_setLife_ledgerSet s bs h c v
  { afterDecode_leaves s bs h c with
    fault := afterDecode_fault s bs h c
    faultInfo := afterDecode_faultInfo s bs h c
    life := fun _ hne => hledger.lifeOf_ne hne
    owner := fun _ hne => hledger.ownerOf_ne hne
    cap := fun h' hne => (capOf_afterDecode s bs h c h').trans (if_neg hne.symm)
    pkt := fun _ hne => readByteOf_congr (spaceMem_afterDecode_ne s bs hne c) }

theorem afterFate_frameTaken (s : State) (bs : List Byte) (h : Handle) (c : Nat) (v : Life) (e : EventCode)
    (calls : List Call) : FrameTaken s (afterFate s bs h c v e calls) bs h c where
  acc := afterDecode_acc s bs h c
  fill := afterDecode_fill s bs h c
  codec := afterDecode_codec s bs h c
  cap := (capOf_afterDecode s bs h c h).trans (if_pos rfl)
  decoded := afterDecode_holds s bs h c
  beyond := fun _ => readByteOf_afterDecode_beyond
  held := rfl
  phase := rfl
  result := rfl
  frame := afterFate_rxFrame s bs h c v e calls

theorem afterFate_lostRx (v : Life) (e : EventCode) (calls : List Call) :
    (afterFate s bs h c v e calls).lostRx = if isLost e then s.lostRx + 1 else s.lostRx := by
  simp only [afterFate, afterDecode_lostRx]

/-- R155 to R159: where a frame arrives, what its inspection ends in is the next state of RX_BYTE. -/
theorem exec_rxByte_fate {v : Life} {e : EventCode} {calls : List Call} (ha : FrameArrives s bs h c)
    (hfate : inspectFrame h (unescape (bs ++ [END])).length (afterDecode s bs h c) =
      .done () (afterFate s bs h c v e calls)) :
    ∃ t, exec (.rxByte END) s = .next t ∧ FrameTaken s t bs h c ∧ t.status = some e ∧
      t.lostRx = (if isLost e then s.lostRx + 1 else s.lostRx) ∧ lifeOf t h = v ∧
      t.history = s.history ++ .acquire (s.fill + 1) (some (h, c)) :: calls := by
  obtain ⟨⟨hf, -, hst, hl, h0, hroom⟩, hacq, hlarge⟩ := ha
  refine ⟨afterFate s bs h c v e calls, ?_, afterFate_frameTaken s bs h c v e calls, rfl, afterFate_lostRx v e calls,
    lifeOf_setLife_self h v (afterDecode s bs h c), afterDecode_history_append s bs h c calls⟩
  rw [rxByte_taken hf hst hl h0 hroom hacq hlarge, hfate, close_done]

end

/-- Settles O40: the filter's rejection, then the checksum's. -/
theorem rxByteRejectedFrameIsReleasedUncounted : Obligations.RxByteRejectedFrameIsReleasedUncounted := by
  intro s bs h c ha
  have howned := afterDecode_owned s bs h c
  have hdraws := afterDecode_draws s bs h c
  refine ⟨fun hfilter => ?_, fun hfilter hsum => ?_⟩
  · exact exec_rxByte_fate (e := .filteredOut) ha (inspectFrame_filteredOut howned (hdraws ▸ hfilter) _)
  · exact exec_rxByte_fate (e := .checksumInvalid) ha
      (inspectFrame_checksumInvalid howned (hdraws ▸ hfilter) (hdraws ▸ hsum) _)

/-- Settles O41: the consumer takes the frame. -/
theorem rxByteDeliversAFrame : Obligations.RxByteDeliversAFrame := by
  intro s bs h c ha hfilter hsum hingest
  have hdraws := afterDecode_draws s bs h c
  exact exec_rxByte_fate (e := .delivered) ha
    (inspectFrame_delivered (afterDecode_owned s bs h c) (hdraws ▸ hfilter) (hdraws ▸ hsum) (hdraws ▸ hingest) _)

/-- Settles O42: the consumer refuses the frame. -/
theorem rxByteRefusedFrameIsReleasedAndCounted : Obligations.RxByteRefusedFrameIsReleasedAndCounted := by
  intro s bs h c ha hfilter hsum hingest
  have hdraws := afterDecode_draws s bs h c
  exact exec_rxByte_fate (e := .ingestionRejected) ha
    (inspectFrame_refused (afterDecode_owned s bs h c) (hdraws ▸ hfilter) (hdraws ▸ hsum) (hdraws ▸ hingest) _)

end Sys2Proof.Machine
end

section
/-! The collaborator calls of an instruction (R15, R40): those of RX_BYTE stand in the order of R150 (O45), and a buffer
that an instruction is not about gets none of them and keeps its ledger entry (O58). -/

namespace Sys2Proof.Machine

open Sys2Proof.Safety

/-! ## The order of RX_BYTE's calls -/

/-- Settles O45: each end of RX_BYTE without a fault is one of the branches. -/
theorem rxByteCallsStandInOrder : Obligations.RxByteCallsStandInOrder := by
  intro s t b ht hf
  cases (rxByte_next ht).2 with
  | overflow => exact ⟨_, rfl, .inl rfl⟩
  | stored => exact ⟨_, rfl, .inl rfl⟩
  | noBuffer => exact ⟨_, rfl, .inr (.inl ⟨_, rfl⟩)⟩
  | leakOverflow => cases hf
  | leakStored => cases hf
  | leakNoBuffer => cases hf
  | tooSmall => cases hf
  | filteredOut bs h c =>
    exact ⟨_, afterDecode_history_append s bs h c _, .inr (.inr ⟨_, h, c, _, .inl rfl⟩)⟩
  | checksumInvalid bs h c =>
    exact ⟨_, afterDecode_history_append s bs h c _, .inr (.inr ⟨_, h, c, _, .inr (.inl rfl)⟩)⟩
  | delivered bs h c =>
    exact ⟨_, afterDecode_history_append s bs h c _, .inr (.inr ⟨_, h, c, _, .inr (.inr (.inl rfl))⟩)⟩
  | refused bs h c =>
    exact ⟨_, afterDecode_history_append s bs h c _, .inr (.inr ⟨_, h, c, _, .inr (.inr (.inr rfl))⟩)⟩

/-! ## A buffer the instruction is not about -/

/-- R42 to R44: the call is about buffer `h`, which the block passes to a collaborator. -/
def callPasses (h : Handle) : Call → Bool
  | .readByte => false
  | .acquire _ _ => false
  | .release k => k == h
  | .filter k _ _ => k == h
  | .checksum k _ _ => k == h
  | .ingest k _ _ => k == h
  | .queryLinkUp _ => false
  | .submitWrite _ => false

theorem ne_of_callPasses_false {h : Handle} {c : Call} (hc : callPasses h c = false) :
    c ≠ .release h ∧ ∀ k, (∀ a, c ≠ .filter h k a) ∧ (∀ a, c ≠ .checksum h k a) ∧ ∀ a, c ≠ .ingest h k a := by
  have hne {d : Call} (hd : callPasses h d = true) : c ≠ d := by
    rintro rfl
    rw [hc] at hd
    cases hd
  have hself : (h == h) = true := beq_self_eq_true h
  exact ⟨hne hself, fun _ => ⟨fun _ => hne hself, fun _ => hne hself, fun _ => hne hself⟩⟩

/-- R254: from `s` to `t` the ledger entry of `h` stayed, and no call about `h` was made. -/
structure LeftAlone (h : Handle) (s t : State) : Prop where
  life : lifeOf t h = lifeOf s h
  calls : ∃ calls, t.history = s.history ++ calls ∧ ∀ c ∈ calls, callPasses h c = false

theorem leftAlone_of_eq {h : Handle} {s t : State} (hlife : t.life = s.life) (hhist : t.history = s.history) :
    LeftAlone h s t :=
  ⟨by unfold lifeOf; rw [hlife], [], by rw [hhist, List.append_nil], nofun⟩

/-- R254: RX_BYTE is about the buffer the pool answers with and about no other. -/
theorem rxEnd_leftAlone {s t : State} {b : Byte} {h : Handle} (ha : ∀ c, s.draws.acquire ≠ some (h, c))
    (ht : RxEnd s b t) : LeftAlone h s t := by
  have hother {k : Handle} {c : Nat} (hk : s.draws.acquire = some (k, c)) : k ≠ h := fun he => ha c (he ▸ hk)
  have hdecoded {k : Handle} {c : Nat} {calls : List Call} (bs : List Byte) (v : Life) (hne : k ≠ h)
      (hlife : lifeOf t h = lifeOf (setLife k v (afterDecode s bs k c)) h)
      (hhist : t.history = (afterDecode s bs k c).history ++ calls)
      (hcalls : ∀ d ∈ calls, callPasses h d = false) : LeftAlone h s t :=
    ⟨hlife.trans ((afterDecode_setLife_ledgerSet s bs k c v).lifeOf_ne hne.symm), _,
      hhist.trans (afterDecode_history_append s bs k c calls), List.forall_mem_cons.mpr ⟨rfl, hcalls⟩⟩
  cases ht with
  | overflow => exact ⟨rfl, _, rfl, by simp [callPasses]⟩
  | stored => exact ⟨rfl, _, rfl, by simp [callPasses]⟩
  | noBuffer => exact ⟨rfl, _, rfl, by simp [callPasses]⟩
  | leakOverflow => exact leftAlone_of_eq rfl rfl
  | leakStored => exact leftAlone_of_eq rfl rfl
  | leakNoBuffer => exact ⟨rfl, _, rfl, by simp [callPasses]⟩
  | tooSmall k c _ _ hk =>
    exact ⟨(afterAcquire_ledgerSet s k c).lifeOf_ne (hother hk).symm, _, rfl, by simp [callPasses]⟩
  | filteredOut bs k c _ _ hk =>
    exact hdecoded bs .released (hother hk) rfl rfl (by simp [callPasses, hother hk])
  | checksumInvalid bs k c _ _ hk =>
    exact hdecoded bs .released (hother hk) rfl rfl (by simp [callPasses, hother hk])
  | delivered bs k c _ _ hk =>
    exact hdecoded bs .handedOff (hother hk) rfl rfl (by simp [callPasses, hother hk])
  | refused bs k c _ _ hk =>
    exact hdecoded bs .released (hother hk) rfl rfl (by simp [callPasses, hother hk])

theorem feedEnd_leftAlone {s t : State} {b : Byte} (h : Handle) (ht : FeedEnd s b t) : LeftAlone h s t := by
  cases ht <;> exact leftAlone_of_eq rfl rfl

/-- The calls of a SEND that submits its frame begin with the question about the link and the submission. -/
theorem sendSubmitted_history_append (rel : Bool) (p : List Byte) (s : State) (calls : List Call) :
    (sendSubmitted rel p s).history ++ calls =
      s.history ++ .queryLinkUp true :: .submitWrite (frameOf p) :: calls := by
  rw [sendSubmitted_history, List.append_assoc, List.cons_append, List.singleton_append]

/-- R254: SEND is about the buffer of its request and about no other. -/
theorem sendEnd_leftAlone {s t : State} {rel : Bool} {h : Handle} (hne : s.fields.h ≠ h) (ht : SendEnd s rel t) :
    LeftAlone h s t := by
  have hrelease : ∀ d ∈ (if rel then [Call.release s.fields.h] else []), callPasses h d = false := by
    cases rel <;> simp [callPasses, hne]
  cases ht with
  | tooLong => exact leftAlone_of_eq rfl rfl
  | wrongBuffer => exact leftAlone_of_eq rfl rfl
  | linkDown =>
    exact ⟨(setLife_ledgerSet s s.fields.h _).lifeOf_ne hne.symm, _, List.append_assoc _ _ _,
      List.forall_mem_cons.mpr ⟨rfl, hrelease⟩⟩
  | outside =>
    exact ⟨(sendBegun_ledgerSet rel true s).lifeOf_ne hne.symm, _, sendBegun_history rel true s, by simp [callPasses]⟩
  | sent p =>
    exact ⟨((sendSubmitted_ledgerSet rel p s).setLife _).lifeOf_ne hne.symm, _,
      sendSubmitted_history_append rel p s _, List.forall_mem_cons.mpr ⟨rfl, List.forall_mem_cons.mpr ⟨rfl, hrelease⟩⟩⟩

/-- R158, R187, R254: an instruction is about the pool's buffer in RX_BYTE and about the request's in SEND. -/
theorem exec_leftAlone {i : Instr} {s t : State} {h : Handle} (ht : exec i s = .next t)
    (hrx : ∀ b c, i = .rxByte b → s.draws.acquire ≠ some (h, c)) (hsend : ∀ rel, i = .send rel → s.fields.h ≠ h) :
    LeftAlone h s t := by
  cases (exec_next ht).2 with
  | feed he => exact feedEnd_leftAlone h he
  | rxByte he => exact rxEnd_leftAlone (hrx _ · rfl) he
  | send he => exact sendEnd_leftAlone (hsend _ rfl) he
  | aside => exact leftAlone_of_eq rfl rfl

/-- Settles O58: the ledger and the calls by the ends of each instruction, the bytes by what writes a packet buffer. -/
theorem handedOffBufferIsLeftAlone : Obligations.HandedOffBufferIsLeftAlone := by
  intro i s t h ht hlife hrx hsend
  obtain ⟨hkept, calls, hhist, hcalls⟩ := exec_leftAlone ht hrx hsend
  have hbytes := (exec_pktBytes ht h).resolve_right fun ⟨b, c, hi, ha⟩ => hrx b c hi ha
  exact ⟨hkept.trans hlife, hbytes, calls, hhist, fun d hd => ne_of_callPasses_false (hcalls d hd)⟩

end Sys2Proof.Machine
end

section
/-! SEND on a running block (R180 to R188): what every SEND that reports leaves alone, the frame in SCRATCH, and each
end of R180 as its one next state (O46 to O50). -/

namespace Sys2Proof.Machine

open Sys2Proof.Safety

/-! ## Bytes put into a space -/

/-- A space holds what was put into it. -/
theorem holds_putBytes (i : Nat) (bs : List Byte) (m : Memory) : Holds (putBytes i bs m) i bs := by
  intro j b hb
  obtain ⟨hj, -⟩ := List.getElem?_eq_some_iff.mp hb
  rw [lookup_putBytes, if_pos ⟨Nat.le_add_right i j, Nat.add_lt_add_left hj i⟩, Nat.add_sub_cancel_left, hb]

theorem lookup_putBytes_beyond {i j : Nat} {bs : List Byte} (m : Memory) (hj : i + bs.length ≤ j) :
    Table.lookup j (putBytes i bs m) = Table.lookup j m := by
  rw [lookup_putBytes, if_neg fun h => Nat.not_lt.mpr hj h.2]

/-! ## A SEND that reports -/

section
variable {s t : State} {rel : Bool} {e : EventCode}

/-- R186: a SEND that reports has given the buffer back as REL says. -/
theorem sendEnd_ledgerSet (ht : SendEnd s rel t) (he : t.status = some e) :
    LedgerSet s t s.fields.h (sendLife rel) := by
  cases ht with
  | tooLong => cases he
  | wrongBuffer => cases he
  | outside => cases he
  | linkDown =>
    obtain ⟨hlife, howner⟩ := setLife_ledgerSet s s.fields.h (sendLife rel)
    exact ⟨hlife, howner⟩
  | sent p =>
    obtain ⟨hlife, howner⟩ := (sendSubmitted_ledgerSet rel p s).setLife (sendLife rel)
    exact ⟨hlife, howner⟩

/-- A SEND that reports leaves alone what SendFrame lists. -/
theorem sendEnd_sendFrame (ht : SendEnd s rel t) (he : t.status = some e) : SendFrame s t s.fields.h := by
  have hledger := sendEnd_ledgerSet ht he
  have hlife (h' : Handle) (hne : h' ≠ s.fields.h) := hledger.lifeOf_ne hne
  have howner (h' : Handle) (hne : h' ≠ s.fields.h) := hledger.ownerOf_ne hne
  cases ht with
  | tooLong => cases he
  | wrongBuffer => cases he
  | outside => cases he
  | linkDown =>
    exact ⟨rfl, rfl, rfl, rfl, rfl, rfl, rfl, rfl, rfl, rfl, rfl, rfl, rfl, rfl, rfl, rfl, hlife, howner⟩
  | sent p =>
    have hmode : (sendSubmitted rel p s).codec.mode = s.codec.mode := by rw [sendSubmitted_codec]
    exact { sendSubmitted_inputsKept rel p s with
      acc := sendSubmitted_acc rel p s
      fill := sendSubmitted_fill rel p s
      receiving := sendSubmitted_receiving rel p s
      lostRx := sendSubmitted_lostRx rel p s
      fault := sendSubmitted_fault rel p s
      faultInfo := sendSubmitted_faultInfo rel p s
      mode := hmode
      pumpPhase := sendSubmitted_pumpPhase rel p s
      held := sendSubmitted_held rel p s
      pkt := sendSubmitted_pkt rel p s
      caps := sendSubmitted_caps rel p s
      wire := sendSubmitted_wire rel p s
      life := hlife
      owner := howner }

/-- R188: of the ends without a fault the link alone chooses. -/
theorem sendEnd_status (hf : t.fault = .none) (ht : SendEnd s rel t) :
    t.status = some (if s.draws.linkUp then .sent else .linkDown) := by
  cases ht with
  | tooLong => cases hf
  | wrongBuffer => cases hf
  | outside => cases hf
  | linkDown _ _ hu => rw [hu]; rfl
  | sent _ _ _ hu => rw [hu]; rfl

end

/-- Settles O50: an end without a fault is one of the two that report. -/
theorem sendThatDoesNotFaultSucceeds : Obligations.SendThatDoesNotFaultSucceeds :=
  fun _ _ _ ht hf => sendEnd_status hf (send_next ht).2

/-- Settles O46: the frame put into SCRATCH and submitted, then the buffer given back. -/
theorem sendWithTheLinkUpSubmitsTheFrame : Obligations.SendWithTheLinkUpSubmitsTheFrame := by
  intro s rel p hf hn hh hu hl hc hp
  have hend := SendEnd.sent (rel := rel) p hn hh hu hc hl hp
  have hscratch := sendSubmitted_scratch rel p s
  refine ⟨_, send_sent rel hf hn hh hu hc hl hp, sendEnd_sendFrame hend rfl, rfl, rfl, ?codec, ?holds, ?beyond, ?td,
    sendSubmitted_inflight rel p s, ?life, ?history⟩
  case codec => exact congrArg Codec.out (sendSubmitted_codec rel p s)
  case holds => exact hscratch ▸ holds_putBytes 0 (frameOf p) s.scratch
  case beyond =>
    intro i hi
    exact (congrArg (Table.lookup i) hscratch).trans (lookup_putBytes_beyond s.scratch (by rwa [Nat.zero_add]))
  case td => exact frameOf_length p ▸ sendSubmitted_td rel p s
  case life => exact ((sendEnd_ledgerSet hend rfl).life s.fields.h).trans (if_pos rfl)
  case history => exact congrArg (· ++ _) (sendSubmitted_history rel p s)

/-- Settles O47: the buffer given back, and nothing else but the question about the link and the report. -/
theorem sendWithTheLinkDownWritesNothing : Obligations.SendWithTheLinkDownWritesNothing := by
  intro s rel hf hn hh hu
  have hend := SendEnd.linkDown (rel := rel) hn hh hu
  exact ⟨_, send_linkDown rel hf hn hh hu, sendEnd_sendFrame hend rfl, rfl, rfl, rfl, rfl, rfl, rfl,
    ((sendEnd_ledgerSet hend rfl).life s.fields.h).trans (if_pos rfl), rfl⟩

/-! ## A SEND that faults -/

/-- Settles O48: the length is checked before anything else. -/
theorem sendOfTooLongAPayloadFaults : Obligations.SendOfTooLongAPayloadFaults :=
  fun _ rel => send_tooLong rel

/-- R187: the two entries of LIFE that mark a buffer as the block's. -/
theorem blockHolds_eq_true_iff {s : State} {h : Handle} :
    blockHolds s h = true ↔ lifeOf s h = .ownedByBlock ∨ lifeOf s h = .borrowed := by
  rw [blockHolds, Bool.or_eq_true, beq_iff_eq, beq_iff_eq]

/-- Settles O49: a buffer that the block holds; then a payload longer than its buffer, where SEND stops in the state
in which it has taken the buffer and asked about the link. -/
theorem sendOfTheWrongBufferFaults : Obligations.SendOfTheWrongBufferFaults := by
  refine ⟨fun s rel hf hn hlife => send_wrongBuffer rel hf hn (blockHolds_eq_true_iff.mpr hlife), ?_⟩
  intro s rel hf hn hh hu hc
  have hledger := sendBegun_ledgerSet rel true s
  exact ⟨_, send_outside rel hf hn hh hu hc, rfl, rfl, rfl, rfl, rfl, rfl, rfl, rfl, rfl, rfl, rfl, rfl, rfl, rfl,
    fun h' hne => ⟨hledger.lifeOf_ne hne, hledger.ownerOf_ne hne⟩, rfl⟩

end Sys2Proof.Machine
end

section
/-! A stopped block (R211): no instruction runs on it and no step but reset changes FAULT (O15); and READ_STATUS on a
running block (R230, O54). -/

namespace Sys2Proof.Machine

/-- R211: every instruction's meaning begins with the check of FAULT. -/
theorem exec_stopped {s : State} (hn : s.fault ≠ .none) (i : Instr) : exec i s = .fault (.stopped s.fault) := by
  cases i <;> exact whenRunning_stopped hn _

theorem fault_of_whenRunning_next {s t : State} {o : Host.Outcome State Fault Refusal}
    (ht : whenRunning s o = .next t) : s.fault = .none := by
  unfold whenRunning at ht
  split at ht
  · assumption
  · cases ht

/-- R211: a presented word that ran found the block running; the operands and answers it brought are not FAULT. -/
theorem fault_of_runRequest_next {s t : State} {f : Format} {w : Nat} {fields : Fields} {draws : Draws}
    {rest : List Input} (ht : runRequest f w fields draws rest s = .next t) : s.fault = .none := by
  unfold runRequest at ht
  split at ht
  · obtain ⟨-, hexec⟩ := runInstr_next ht
    exact (exec_next hexec).1
  · cases ht

/-- R211, R24: the agents that move while the block is stopped are the transport, reset, the pool and the owners of
buffers outside, and of these only reset writes FAULT. -/
theorem step_stopped_fault {s t : State} (hn : s.fault ≠ .none) (ht : step s = .next t)
    (hr : ∀ rest, s.inbox ≠ .reset :: rest) : t.fault = s.fault ∧ t.faultInfo = s.faultInfo := by
  obtain ⟨hw, -⟩ := step_next ht
  unfold step at ht
  rw [if_neg (by simp [hw])] at ht
  cases hi : s.inbox with
  | nil =>
    rw [hi] at ht
    exact absurd (fault_of_whenRunning_next ht) hn
  | cons input rest =>
    rw [hi] at ht
    cases input with
    | request => exact absurd (fault_of_runRequest_next ht) hn
    | interrupted => exact absurd (fault_of_whenRunning_next ht) hn
    | complete =>
      cases ht
      exact ⟨rfl, rfl⟩
    | reset => exact absurd hi (hr rest)
    | poolGives =>
      obtain ⟨-, rfl⟩ := poolGivesOutside_next ht
      exact ⟨rfl, rfl⟩
    | ownerWrite =>
      obtain ⟨-, rfl⟩ := ownerWrites_next ht
      exact ⟨rfl, rfl⟩
    | ownerRelease =>
      obtain ⟨-, rfl⟩ := ownerReleases_next ht
      exact ⟨rfl, rfl⟩

/-- Settles O15: the check that every instruction begins with, and the agents that move in spite of a set FAULT. -/
theorem faultedBlockTakesNoStep : Obligations.FaultedBlockTakesNoStep :=
  ⟨fun i _ hn => exec_stopped hn i, fun _ _ => step_stopped_fault⟩

/-- R230: READ_STATUS on a running block. -/
theorem exec_readStatus {s : State} (hf : s.fault = .none) :
    exec .readStatus s =
      .next { s with status := some .ok, result := .block s.fill s.lostRx s.fault s.td.pending } :=
  whenRunning_running hf _

/-- Settles O54: a running block reports, the block at reset is running, a stopped block runs nothing. -/
theorem readStatusReturnsTheBlockStatus : Obligations.ReadStatusReturnsTheBlockStatus :=
  ⟨fun _ => exec_readStatus, fun _ => ⟨_, exec_readStatus rfl, rfl⟩, fun _ hn => exec_stopped hn .readStatus⟩

end Sys2Proof.Machine
end

section
/-! Reset: the values the spec gives (R240, O7), and the reset step (R240 to R242, O9). -/

namespace Sys2Proof.Machine

/-- Settles O7: the reset state of any configuration holds the values as written, and the platform's configuration is
well formed since ACC_CAP is 2 and more. -/
theorem resetLeavesTheValuesOfTheSpec : Obligations.ResetLeavesTheValuesOfTheSpec := by
  have hplatform : Config.platform.wf = true := decide_eq_true (Nat.le_add_left 2 Config.freeAccCap)
  exact ⟨fun _ => ⟨rfl, rfl, rfl, rfl, rfl, rfl, fun _ => rfl, rfl, rfl, rfl, fun _ => rfl, fun _ => rfl⟩,
    Config.platform, hplatform, rfl, rfl⟩

/-- R240: reset comes before every check but that of the configuration. -/
theorem step_reset {s : State} {rest : List Input} (hw : s.cfg.wf = true) (hi : s.inbox = .reset :: rest) :
    step s = .next (resetBlock { s with inbox := rest }) := by
  unfold step
  rw [hi]
  simp [hw]

/-- R241: a buffer the block held is an outside agent's after reset; every other owner stays (log entry 30). -/
theorem ownerOf_resetBlock (s : State) (h : Handle) :
    ownerOf (resetBlock s) h = if ownerOf s h = some .block then some .outside else ownerOf s h := by
  have hforget : ownerOf (resetBlock s) h = (ownerOf s h).map fun o => if o = .block then .outside else o :=
    lookup_forgetHeld h s.owner
  rw [hforget]
  rcases ownerOf s h with _ | _ | _ | _ <;> rfl

/-- Settles O9: the step is `resetBlock`, which writes every field named; only the owners need a lemma. -/
theorem resetStepClearsTheBlockAndReleasesNothing : Obligations.ResetStepClearsTheBlockAndReleasesNothing := by
  intro s rest hw hi
  exact ⟨_, step_reset hw hi, rfl, rfl, rfl, rfl, rfl, rfl, rfl, rfl, rfl, fun _ => rfl, rfl, rfl, rfl, rfl, rfl, rfl,
    rfl, ownerOf_resetBlock _, rfl, rfl, rfl, rfl, rfl, rfl⟩

end Sys2Proof.Machine
end

section
/-! The tail of a frame after an Overflow (R135, O35): FEED of bytes without END, stored one after another. -/

namespace Sys2Proof.Machine

open Sys2Proof.Safety

/-- R22: a running block whose bytes below FILL are `bs`. -/
structure Stored (s : State) (bs : List Byte) : Prop where
  running : s.fault = .none
  holds : Holds s.acc 0 bs
  length : bs.length = s.fill

theorem feedAll_cons {s t : State} {b : Byte} (ht : exec (.feed b) s = .next t) (bs : List Byte) :
    feedAll (b :: bs) s = feedAll bs t := by
  rw [feedAll, ht]

/-- R133, over many bytes: direct FEED of bytes that fit and contain no END stores them all and counts no loss. -/
theorem feedAll_stored {bs rest : List Byte} (hend : END ∉ bs) {s : State} {pre : List Byte} (hs : Stored s pre)
    (hroom : (pre ++ bs).length ≤ s.cfg.accCap) :
    ∃ t, feedAll (bs ++ rest) s = feedAll rest t ∧ Stored t (pre ++ bs) ∧ t.cfg = s.cfg ∧ t.lostRx = s.lostRx := by
  induction bs generalizing s pre with
  | nil => exact ⟨s, rfl, by rwa [List.append_nil], rfl, rfl⟩
  | cons b bs ih =>
    obtain ⟨hf, hholds, hl⟩ := hs
    obtain ⟨hb, hend⟩ := List.ne_and_not_mem_of_not_mem_cons hend
    have hfill : s.fill < s.cfg.accCap := by simp at hroom; omega
    have hstep := exec_feed_stored hf hfill (.inl hb.symm)
    have hnext : Stored
        { s with
          acc := Table.insert s.fill b s.acc, fill := s.fill + 1, status := some .incomplete, result := .none }
        (pre ++ [b]) := ⟨hf, hl ▸ holds_insert hholds b, by simp [hl]⟩
    obtain ⟨t, hrun, ht, hcfg, hlost⟩ := ih hend hnext (by simpa using hroom)
    exact ⟨t, (feedAll_cons hstep _).trans hrun, by simpa using ht, hcfg, hlost⟩

/-- Settles O35: the byte that overflows empties ACC, the tail is stored from index 0 on, and END makes a span of it. -/
theorem tailAfterOverflowIsAFrame : Obligations.TailAfterOverflowIsAFrame := by
  intro s b bs hf hfull hne hend hlen
  have hoverflow := exec_feed_full hf (by omega) b
  have hempty : Stored { s with fill := 0, receiving := false, status := some .overflow, result := .none } [] :=
    ⟨hf, nofun, rfl⟩
  obtain ⟨t, hrun, ⟨hft, hholds, hl⟩, hcfg, hlost⟩ := feedAll_stored (rest := [END]) hend hempty hlen.le
  rw [List.nil_append] at hholds hl
  have hroom : t.fill < t.cfg.accCap := by rw [hcfg, ← hl]; exact hlen
  have hpos : 0 < t.fill := hl ▸ List.length_pos_iff.mpr hne
  have hframe := exec_feed_end hft hroom hpos hholds hl
  exact ⟨_, (feedAll_cons hoverflow _).trans (hrun.trans (feedAll_cons hframe _)), rfl, by rw [hl], rfl, hlost⟩

end Sys2Proof.Machine
end

section
/-! The race for SCRATCH (R45, R252): what a completion puts on the wire (O52), and what a later SEND does to the
candidates of a pending transfer (O53). -/

namespace Sys2Proof.Machine

open Sys2Proof.Safety

/-- R45: the completed transfer's bytes join the wire. -/
theorem completion_wire {s : State} {which : Nat} {x : Transfer} (hx : s.inflight[which]? = some x) (v : Nat)
    (picks : List Nat) : (completion which v picks s).wire = s.wire ++ [pickBytes x.cand picks] := by
  simp only [completion, hx]

/-- Settles O52: the frame that joins the wire is what `pickBytes` takes from the lists. -/
theorem wireBytesAreAmongTheirCandidates : Obligations.WireBytesAreAmongTheirCandidates := by
  intro s t which v picks rest x hw hi hx hcand ht
  rw [step_complete hw hi] at ht
  cases ht
  exact ⟨_, completion_wire (s := { s with inbox := rest }) hx v picks, pickBytes_spec x.cand picks hcand⟩

/-- R10, R252: a pending transfer after a submission: as it was if it was copied, else overwritten. -/
theorem inflightAfter_getElem? {ts : List Transfer} {k : Nat} {x : Transfer} (hx : ts[k]? = some x) (c : Config)
    (bytes : List Byte) :
    (inflightAfter c bytes ts)[k]? = some (if c.txCopyAtSubmit then x else overwriteTransfer bytes x) := by
  obtain ⟨hk, -⟩ := List.getElem?_eq_some_iff.mp hx
  unfold inflightAfter
  split
  · rw [List.getElem?_append_left hk, hx]
  · rw [List.getElem?_append_left (by rwa [List.length_map]), List.getElem?_map, hx]
    rfl

/-- Settles O53: the SEND submits the frame, and the candidates of the pending transfer are those of
`overwriteCand`, index by index. -/
theorem scratchReuseRacesByteByByte : Obligations.ScratchReuseRacesByteByByte := by
  intro s rel p k x hf hn hh hu hl hc hp hx
  have hinflight : (sendSubmitted rel p s).inflight[k]? =
      some (if s.cfg.txCopyAtSubmit then x else overwriteTransfer (frameOf p) x) := by
    rw [sendSubmitted_inflight, inflightAfter_getElem? hx]
  refine ⟨_, _, send_sent rel hf hn hh hu hc hl hp, hinflight, fun hcopy => if_pos hcopy, fun hcopy => ?_⟩
  rw [hcopy, if_neg Bool.false_ne_true]
  refine ⟨overwriteCand_length x.cand (frameOf p), fun j c hj => ?_⟩
  have hcand := overwriteCand_getElem? x.cand (frameOf p) j c hj
  exact ⟨fun b hb => by rwa [hb] at hcand, fun hnone => by rwa [hnone] at hcand⟩

end Sys2Proof.Machine
end

section
/-! The duties of ownership (R245): the breaches that `step` refuses, and that an instruction which breaks none
completes without a lifecycle violation (O60). -/

namespace Sys2Proof.Machine

open Sys2Proof.Safety

/-! ## Breaches that are refused -/

/-- R154: the END that completes a span. -/
theorem completesSpan_end {s : State} (h0 : 0 < s.fill) (hroom : s.fill < s.cfg.accCap) :
    completesSpan END s = true := by
  simp [completesSpan, h0, hroom]

section
variable {s : State} {h : Handle} (hw : s.cfg.wf = true)
include hw

/-- R42: the pool gives a buffer to an agent outside. -/
theorem step_poolGives {cap : Nat} {rest : List Input} (hi : s.inbox = .poolGives h cap :: rest) :
    step s = poolGivesOutside h cap { s with inbox := rest } := by
  unfold step
  rw [hi]
  simp [hw]

/-- R46: an agent outside writes a buffer. -/
theorem step_ownerWrite {bytes : List Byte} {rest : List Input} (hi : s.inbox = .ownerWrite h bytes :: rest) :
    step s = ownerWrites h bytes { s with inbox := rest } := by
  unfold step
  rw [hi]
  simp [hw]

/-- R46: an agent outside gives a buffer back. -/
theorem step_ownerRelease {rest : List Input} (hi : s.inbox = .ownerRelease h :: rest) :
    step s = ownerReleases h { s with inbox := rest } := by
  unfold step
  rw [hi]
  simp [hw]

end

/-- R46: what the block or the pool owns is not for an agent outside to use. -/
theorem outsideMayUse_eq_false {s : State} {h : Handle} (ho : ownerOf s h = some .block ∨ ownerOf s h = some .pool) :
    outsideMayUse s h = false := by
  rcases ho with ho | ho <;> simp [outsideMayUse, ho]

/-- R42, R245 item 1: the pool answers RX_BYTE with a buffer that someone owns. -/
theorem dutyRefusal_rxByte_allocated {s : State} {b : Byte} {h : Handle} {c : Nat} (hs : completesSpan b s = true)
    (ha : s.draws.acquire = some (h, c)) (ho : allocated s h = true) :
    dutyRefusal (.rxByte b) s = some (.handleOwned h) := by
  simp [dutyRefusal, ha, hs, ho]

/-- R46, R245 item 3: SEND of a buffer that is neither the caller's nor held by the block. -/
theorem dutyRefusal_send_notTheOwner {s : State} (rel : Bool) (hm : outsideMayUse s s.fields.h = false)
    (hh : blockHolds s s.fields.h = false) : dutyRefusal (.send rel) s = some (.notTheOwner s.fields.h) := by
  simp [dutyRefusal, hm, hh]

/-! ## What keeping the duties says -/

/-- R245 item 1: the pool that keeps its duty gives a free buffer as large as was asked for. -/
theorem acquired_of_dutiful {s : State} {b : Byte} {h : Handle} {c : Nat} (hd : brokenDuties (.rxByte b) s = [])
    (hs : completesSpan b s = true) (ha : s.draws.acquire = some (h, c)) :
    allocated s h = false ∧ s.fill + 1 ≤ c := by
  simpa [brokenDuties, rxDuties, ha, hs] using (List.append_eq_nil_iff.mp hd).2

/-- R245 item 3: the caller of SEND that keeps its duties owns the buffer, and the payload fits it. -/
theorem sender_of_dutiful {s : State} {rel : Bool} (hd : brokenDuties (.send rel) s = []) :
    outsideMayUse s s.fields.h = true ∧ s.fields.n ≤ capOf s s.fields.h := by
  obtain ⟨hd, -⟩ := List.append_eq_nil_iff.mp hd
  obtain ⟨howns, hfits⟩ := List.append_eq_nil_iff.mp hd
  exact ⟨by simpa using howns, by simpa using hfits⟩

/-- R245: every refusal is for a duty broken. -/
theorem dutyRefusal_eq_none_of_dutiful {i : Instr} {s : State} (hd : brokenDuties i s = []) :
    dutyRefusal i s = none := by
  cases i with
  | rxByte b =>
    cases ha : s.draws.acquire with
    | none => simp [dutyRefusal, ha]
    | some answer =>
      obtain ⟨h, c⟩ := answer
      cases hs : completesSpan b s with
      | false => simp [dutyRefusal, ha, hs]
      | true =>
        obtain ⟨hfree, -⟩ := acquired_of_dutiful hd hs ha
        simp [dutyRefusal, ha, hfree]
  | send rel =>
    obtain ⟨howns, -⟩ := sender_of_dutiful hd
    simp [dutyRefusal, howns]
  | _ => rfl

/-! ## Instructions that break no duty -/

/-- The instruction completes without a lifecycle violation, and RX_BYTE without any fault. -/
def CompletesDutifully (i : Instr) (s : State) : Prop :=
  ∃ t, exec i s = .next t ∧ t.fault ≠ .lifecycleViolation ∧ ((∃ b, i = .rxByte b) → t.fault = .none)

theorem CompletesDutifully.running {i : Instr} {s t : State} (ht : exec i s = .next t) (hf : t.fault = .none) :
    CompletesDutifully i s :=
  ⟨t, ht, by rw [hf]; decide, fun _ => hf⟩

theorem CompletesDutifully.faulted {i : Instr} {s t : State} (hi : ∀ b, i ≠ .rxByte b) (ht : exec i s = .next t)
    (hf : t.fault ≠ .lifecycleViolation) : CompletesDutifully i s :=
  ⟨t, ht, hf, fun ⟨b, hb⟩ => absurd hb (hi b)⟩

/-- R157 to R159: a frame in a buffer the block owns is inspected to its end, whatever the collaborators answer. -/
theorem inspectFrame_done {s : State} {h : Handle} (hl : lifeOf s h = .ownedByBlock) (k : Nat) :
    ∃ t, inspectFrame h k s = .done () t ∧ t.fault = s.fault := by
  cases hfilter : s.draws.filter with
  | reject => exact ⟨_, inspectFrame_filteredOut hl hfilter k, rfl⟩
  | accept =>
    cases hsum : s.draws.checksum with
    | invalid => exact ⟨_, inspectFrame_checksumInvalid hl hfilter hsum k, rfl⟩
    | valid =>
      cases hingest : s.draws.ingest with
      | ok => exact ⟨_, inspectFrame_delivered hl hfilter hsum hingest k, rfl⟩
      | fail => exact ⟨_, inspectFrame_refused hl hfilter hsum hingest k, rfl⟩

section
variable {s : State} (hf : s.fault = .none)
include hf

theorem symbolStep_completes {i : Instr} {f : Codec → Codec} (he : exec i s = symbolStep s f) :
    CompletesDutifully i s :=
  .running (he.trans (symbolStep_running hf f)) hf

theorem encode_completes : CompletesDutifully .encode s := by
  rcases Nat.lt_or_ge s.fields.dstCap (encodedLength s.fields.payload) with hcap | hcap
  · exact .faulted nofun (exec_encode_tooSmall hf hcap) nofun
  · exact .running (exec_encode_fits hf hcap) hf

theorem decode_completes : CompletesDutifully .decode s := by
  rcases Nat.lt_or_ge s.fields.dstCap s.fields.raw.length with hcap | hcap
  · exact .faulted nofun (exec_decode_tooSmall hf hcap) nofun
  · exact .running (exec_decode_fits hf hcap) hf

/-- R130: the span that FEED returns was written byte by byte (R22). -/
theorem feed_completes (hm : MemoryInv s) (b : Byte) : CompletesDutifully (.feed b) s := by
  rcases feedOp_cases b s with ⟨hfull, -⟩ | ⟨hroom, hb, -⟩ | ⟨hroom, rfl, h0, -⟩
  · exact .running (exec_feed_full hf hfull b) hf
  · exact .running (exec_feed_stored hf hroom hb) hf
  · obtain ⟨bs, hholds, hl⟩ := stored_exists hm
    exact .running (exec_feed_end hf hroom h0 hholds hl) hf

/-- R150: nothing is held when the transaction begins, so no leak is found (R203), and a dutiful pool's buffer takes
the frame (R155). -/
theorem rxByte_completes {b : Byte} (hm : MemoryInv s) (hheld : s.held = none)
    (hd : brokenDuties (.rxByte b) s = []) : CompletesDutifully (.rxByte b) s := by
  rcases feedOp_cases b s with ⟨hfull, -⟩ | ⟨hroom, hb, -⟩ | ⟨hroom, rfl, h0, -⟩
  · exact .running (exec_rxByte_full hf hheld hfull b) hf
  · exact .running (exec_rxByte_stored hf hheld hroom hb) hf
  · cases ha : s.draws.acquire with
    | none => exact .running (exec_rxByte_noBuffer hf hheld h0 hroom ha) hf
    | some answer =>
      obtain ⟨h, c⟩ := answer
      obtain ⟨-, hlarge⟩ := acquired_of_dutiful hd (completesSpan_end h0 hroom) ha
      obtain ⟨bs, hholds, hl⟩ := stored_exists hm
      obtain ⟨t, hdone, hfault⟩ :=
        inspectFrame_done (afterDecode_owned s bs h c) (unescape (bs ++ [END])).length
      refine .running (t := t) ?_ (hfault.trans ((afterDecode_fault s bs h c).trans hf))
      rw [rxByte_taken hf hholds hl h0 hroom ha hlarge, hdone, close_done]

/-- R180: the caller's own buffer is not the block's, and the payload is read inside it; what is left is a payload too
long for SCRATCH. -/
theorem send_completes {rel : Bool} (hh : blockHolds s s.fields.h = false)
    (hd : brokenDuties (.send rel) s = []) : CompletesDutifully (.send rel) s := by
  obtain ⟨-, hfits⟩ := sender_of_dutiful hd
  rcases Nat.lt_or_ge s.cfg.maxTxPayload s.fields.n with hn | hn
  · exact .faulted nofun (send_tooLong rel hf hn) nofun
  · cases hu : s.draws.linkUp with
    | false => exact .running (send_linkDown rel hf hn hh hu) hf
    | true =>
      obtain ⟨p, hl, hp⟩ := packetReads_exists s s.fields.h s.fields.n
      exact .running (send_sent rel hf hn hh hu hfits hl hp) ((sendSubmitted_fault rel p s).trans hf)

end

/-- R245: every instruction that breaks no duty, from a running state that meets the two invariants. -/
theorem exec_completes_of_dutiful {i : Instr} {s : State} (hm : MemoryInv s) (hpump : PumpInv s)
    (hf : s.fault = .none) (hd : brokenDuties i s = []) : CompletesDutifully i s := by
  cases i with
  | encode => exact encode_completes hf
  | decode => exact decode_completes hf
  | feed b => exact feed_completes hf hm b
  | send rel => exact send_completes hf (hpump.unheld hf s.fields.h) hd
  | readStatus => exact .running (exec_readStatus hf) hf
  | illegal w => exact .faulted nofun (exec_illegal hf w) nofun
  | rxByte b => exact rxByte_completes hf hm (hpump.held hf) hd
  | encEnd => exact symbolStep_completes hf rfl
  | encEsc => exact symbolStep_completes hf rfl
  | encLit b => exact symbolStep_completes hf rfl
  | decNEnd => exact symbolStep_completes hf rfl
  | decNEsc => exact symbolStep_completes hf rfl
  | decNLit b => exact symbolStep_completes hf rfl
  | decEEscEnd => exact symbolStep_completes hf rfl
  | decEEscEsc => exact symbolStep_completes hf rfl
  | decELit b => exact symbolStep_completes hf rfl
  | decEoiEscaped => exact symbolStep_completes hf rfl

/-- Settles O60: the two refusals of a request, the two of an agent outside, and the runs that break no duty. -/
theorem brokenDutiesAreRefusedAndDutifulRunsComplete : Obligations.BrokenDutiesAreRefusedAndDutifulRunsComplete := by
  refine ⟨?receive, ?send, fun _ _ _ _ hw hi ha => (step_poolGives hw hi).trans (if_pos ha), ?owner,
    fun _ _ hm hpump hf hd => ⟨dutyRefusal_eq_none_of_dutiful hd, exec_completes_of_dutiful hm hpump hf hd⟩⟩
  case receive =>
    intro s fields draws rest h c hw hf hi h0 hroom ha ho
    rw [step_request hw hi (decode_rxPort_toNat END)]
    exact runInstr_eq_refused (dutyRefusal_rxByte_allocated (completesSpan_end h0 hroom) ha ho) hf
  case send =>
    intro s rel fields draws rest hw hf hi ho hh
    rw [step_request hw hi (decodeOfEncodeIsTheInstruction (.send rel) rfl)]
    exact runInstr_eq_refused (dutyRefusal_send_notTheOwner rel (outsideMayUse_eq_false (.inr ho)) hh) hf
  case owner =>
    intro s h bytes rest hw hi ho
    have hm : ¬ outsideMayUse s h = true := Bool.eq_false_iff.mp (outsideMayUse_eq_false ho)
    rcases hi with hi | hi
    · exact (step_ownerWrite hw hi).trans (if_neg hm)
    · exact (step_ownerRelease hw hi).trans (if_neg hm)

end Sys2Proof.Machine
end

section
/-! The wire format of an encoded frame: its grammar (R71, R103, O25), what DECODE reads out of it (R119, R120, O28,
O29), and FEED of it from an empty ACC (R138, O34). -/

namespace Sys2Proof.Machine

open Sys2Proof.Safety

/-! ## The grammar -/

/-- R73: an encoded byte extends the inside of a frame. -/
theorem wireBody_escape_append (b : Byte) {r : List Byte} (hr : WireBody r) : WireBody (escape b ++ r) := by
  unfold escape
  split
  · exact .escEnd r hr
  · next hend =>
    split
    · exact .escEsc r hr
    · next hesc => exact .lit b r hend hesc hr

theorem wireBody_flatMap_escape (p : List Byte) : WireBody (p.flatMap escape) := by
  induction p with
  | nil => exact .nil
  | cons b p ih => exact wireBody_escape_append b ih

/-- R71: the grammar has END at the two ends of a frame only. -/
theorem end_notMem_of_wireBody {r : List Byte} (hr : WireBody r) : END ∉ r := by
  induction hr with
  | nil => exact List.not_mem_nil
  | escEnd r _ ih => simpa [esc_ne_end.symm, escEnd_ne_end.symm] using ih
  | escEsc r _ ih => simpa [esc_ne_end.symm, escEsc_ne_end.symm] using ih
  | lit b r hend _ _ ih => simpa [Ne.symm hend] using ih

theorem end_notMem_flatMap_escape (p : List Byte) : END ∉ p.flatMap escape :=
  end_notMem_of_wireBody (wireBody_flatMap_escape p)

theorem frameOf_wireFrame (p : List Byte) : WireFrame (frameOf p) := ⟨_, wireBody_flatMap_escape p, rfl⟩

/-- R100, R102: a frame that ENCODE answers is that of its payload, with its length. -/
theorem encode_result {s t : State} {out : List Byte} {l : Nat} (ht : exec .encode s = .next t)
    (hresult : t.result = .encoded out l) : out = frameOf s.fields.payload ∧ l = out.length := by
  obtain ⟨-, rfl | rfl⟩ := encode_next ht
  · cases hresult
    exact ⟨rfl, (frameOf_length _).symm⟩
  · cases hresult

/-- R71: in `END, body, END` an index strictly inside falls in the body. -/
theorem getElem?_delimited_ne_end {body : List Byte} (hbody : END ∉ body) {i : Nat} (h0 : 0 < i)
    (hi : i < body.length + 1) : (END :: (body ++ [END]))[i]? ≠ some END := by
  obtain ⟨j, rfl⟩ := Nat.exists_eq_add_of_lt h0
  rw [Nat.zero_add, List.getElem?_cons_succ, List.getElem?_append_left (by omega)]
  exact fun h => hbody (List.mem_of_getElem? h)

/-- Settles O25: ENCODE returns the frame of its payload, whose inside is in the grammar and so has no END. -/
theorem encodedFrameIsDelimited : Obligations.EncodedFrameIsDelimited := by
  intro s t out l ht hresult
  obtain ⟨rfl, rfl⟩ := encode_result ht hresult
  refine ⟨frameOf_wireFrame _, rfl, ?_, fun i h0 hi => ?_⟩
  · simp [frameOf]
  · exact getElem?_delimited_ne_end (end_notMem_flatMap_escape _) h0 (by simpa [frameOf] using hi)

/-! ## The payload of a frame -/

/-- Settles O28: the payload is read out of the raw frame, and never longer. -/
theorem decodedLengthIsBounded : Obligations.DecodedLengthIsBounded := by
  intro s t out k ht hresult
  obtain ⟨-, rfl | rfl⟩ := decode_next ht
  · cases hresult
    exact ⟨rfl, unescape_length_le _⟩
  · cases hresult

/-- R112: an END in NORMAL mode stands for nothing. -/
@[simp] theorem unescape_end_cons (r : List Byte) : unescape (END :: r) = unescape r := by
  cases r <;> simp [unescape]

/-- R113, R115, R116: an ESC and the byte after it stand for one byte. -/
@[simp] theorem unescape_esc_cons (c : Byte) (r : List Byte) : unescape (ESC :: c :: r) = escaped c :: unescape r := by
  simp [unescape]

/-- R114: any other byte stands for itself. -/
theorem unescape_lit_cons {b : Byte} (hend : b ≠ END) (hesc : b ≠ ESC) (r : List Byte) :
    unescape (b :: r) = b :: unescape r := by
  cases r <;> simp [unescape, hend, hesc]

/-- R73 against R74: the wire bytes of a payload byte are read as that byte. -/
theorem unescape_escape_append (b : Byte) (r : List Byte) : unescape (escape b ++ r) = b :: unescape r := by
  unfold escape
  split
  · next h => simp [h, escaped]
  · next hend =>
    split
    · next h => simp [h, escaped]
    · next hesc => exact unescape_lit_cons hend hesc r

theorem unescape_flatMap_escape_append (p r : List Byte) : unescape (p.flatMap escape ++ r) = p ++ unescape r := by
  induction p with
  | nil => rfl
  | cons b p ih => rw [List.flatMap_cons, List.append_assoc, unescape_escape_append, ih, List.cons_append]

/-- R120: the frame of a payload decodes to it. -/
theorem unescape_frameOf (p : List Byte) : unescape (frameOf p) = p := by
  rw [frameOf, unescape_end_cons, unescape_flatMap_escape_append, unescape_end_cons, unescape, List.append_nil]

/-- Settles O29: the capacity is the frame's length, so DECODE passes its check and reads the payload. -/
theorem encodeThenDecodeRecoversThePayload : Obligations.EncodeThenDecodeRecoversThePayload := by
  intro s t u out l ht hresult hf hraw hcap
  obtain ⟨rfl, rfl⟩ := encode_result ht hresult
  refine ⟨_, exec_decode_fits hf (by rw [hraw, hcap]), ?_⟩
  rw [hraw, unescape_frameOf]

/-! ## FEED of a frame -/

/-- R91: a run of direct FEEDs that gives a next state begins with a FEED that gives one. -/
theorem feedAll_cons_next {b : Byte} {bs : List Byte} {s t : State} (ht : feedAll (b :: bs) s = .next t) :
    ∃ u, exec (.feed b) s = .next u ∧ feedAll bs u = .next t := by
  cases he : exec (.feed b) s with
  | next u => exact ⟨u, rfl, by rwa [feedAll_cons he] at ht⟩
  | fault f => simp [feedAll, he] at ht
  | refused r => simp [feedAll, he] at ht

/-- R33, R91: the last byte of a run of direct FEEDs is one FEED, under the configuration the run began with. -/
theorem feedAll_append_singleton_next {bs : List Byte} {b : Byte} {s t : State}
    (ht : feedAll (bs ++ [b]) s = .next t) : ∃ u, exec (.feed b) u = .next t ∧ u.cfg = s.cfg := by
  induction bs generalizing s with
  | nil =>
    obtain ⟨v, he, hv⟩ := feedAll_cons_next ht
    exact ⟨s, he.trans hv, rfl⟩
  | cons a bs ih =>
    obtain ⟨v, he, hv⟩ := feedAll_cons_next ht
    obtain ⟨u, hu, hcfg⟩ := ih hv
    exact ⟨u, hu, hcfg.trans (exec_inputsKept he).cfg⟩

/-- R132: a reported span lies in ACC. -/
theorem feedEnd_frame_le {s t : State} {b : Byte} {start len : Nat} {span : List Byte} (ht : FeedEnd s b t)
    (hresult : t.result = .frame start len span) : len ≤ s.cfg.accCap := by
  cases ht with
  | overflow => cases hresult
  | stored => cases hresult
  | frame span hr =>
    cases hresult
    exact hr

/-- R138: an encoded frame that fits in an empty ACC is stored up to its last END, which makes a span of it. -/
theorem feedAll_frameOf_fits {s : State} {p : List Byte} (hf : s.fault = .none) (hfill : s.fill = 0)
    (hfits : (frameOf p).length ≤ s.cfg.accCap) :
    ∃ t, feedAll (frameOf p) s = .next t ∧ t.status = some .frameReady ∧
      t.result = .frame 0 (frameOf p).length (frameOf p) := by
  have hlen : (frameOf p).length = ([END] ++ p.flatMap escape).length + 1 := by simp [frameOf]
  have hroom : ([END] ++ p.flatMap escape).length < s.cfg.accCap := by omega
  have hfirst := exec_feed_stored (b := END) hf (by omega) (.inr hfill)
  have hstored : Stored
      { s with
        acc := Table.insert s.fill END s.acc, fill := s.fill + 1, status := some .incomplete, result := .none }
      ([] ++ [END]) := by
    refine ⟨hf, ?_, by simp [hfill]⟩
    rw [hfill]
    exact holds_insert (bs := []) nofun END
  obtain ⟨t, hrun, ⟨hft, hholds, hl⟩, hcfg, -⟩ :=
    feedAll_stored (rest := [END]) (end_notMem_flatMap_escape p) hstored hroom.le
  have hlast : t.fill < t.cfg.accCap := by rwa [hcfg, ← hl]
  have hpos : 0 < t.fill := by rw [← hl]; simp
  have hframe := exec_feed_end hft hlast hpos hholds hl
  refine ⟨_, (feedAll_cons hfirst _).trans (hrun.trans (feedAll_cons hframe _)), rfl, ?_⟩
  rw [← hl, hlen]
  rfl

/-- Settles O34: a frame that fits is stored and spanned; a span of the whole frame lies in ACC, so the frame fits. -/
theorem encodedFrameIsReassembledExactlyWhenItFits : Obligations.EncodedFrameIsReassembledExactlyWhenItFits := by
  intro s p hf hfill
  rw [← encodedLength_eq, ← frameOf_length]
  constructor
  · rintro ⟨t, hrun, -, hresult⟩
    obtain ⟨u, hlast, hcfg⟩ := feedAll_append_singleton_next (bs := END :: p.flatMap escape) (b := END) hrun
    exact hcfg ▸ feedEnd_frame_le (feed_next hlast).2 hresult
  · exact feedAll_frameOf_fits hf hfill

end Sys2Proof.Machine
end

section
/-! The lifecycle of a buffer over one RX_BYTE (R160, O44). -/

namespace Sys2Proof.Machine

/-- R161, R203: an RX_BYTE that does not fault holds no buffer at its end. -/
theorem rxEnd_held {s t : State} {b : Byte} (ht : RxEnd s b t) (hf : t.fault = .none) : t.held = none := by
  cases ht with
  | overflow b hh => exact hh
  | stored b hh => exact hh
  | noBuffer hh => exact hh
  | leakOverflow => cases hf
  | leakStored => cases hf
  | leakNoBuffer => cases hf
  | tooSmall => cases hf
  | filteredOut => rfl
  | checksumInvalid => rfl
  | delivered => rfl
  | refused => rfl

/-- Settles O44: in each branch of R150 the buffer acquired, if one was, has one release or one accepted `ingest`. -/
theorem rxByteReleasesOrHandsOffExactlyOnce : Obligations.RxByteReleasesOrHandsOffExactlyOnce := by
  intro s t b ht hf
  obtain ⟨calls, hhistory, hcalls⟩ := rxByteCallsStandInOrder s t b ht hf
  refine ⟨rxEnd_held (rxByte_next ht).2 hf, calls, hhistory, ?_⟩
  obtain rfl | ⟨n, rfl⟩ | ⟨n, k, c, len, rfl | rfl | rfl | rfl⟩ := hcalls
  · exact ⟨by decide, fun h => rfl⟩
  · exact ⟨Nat.zero_le 1, fun h => rfl⟩
  all_goals
    refine ⟨Nat.le_refl 1, fun h => ?_⟩
    by_cases hk : k = h <;> simp [hk]

end Sys2Proof.Machine
end
